-- ==== Sys2Proof/Word.lean ====
section
/-! DEFINITION. The word types of the block: a byte and an unsigned 16-bit field (spec 00_scope R7). -/

namespace Sys2Proof

/-- A byte, 8 bits, bit 0 least significant (R7). -/
abbrev Byte := BitVec 8

/-- An unsigned 16-bit field: frame `size`, frame `checksum`, sub-packet `size`, a diagnostic operand (R7, R82). -/
abbrev Word := BitVec 16

end Sys2Proof
end

