-- ==== Sys2Proof/Config.lean ====
section
/-! DEFINITION. The implementation parameters of spec 00_scope R5 and R6, and the one free value. -/

namespace Sys2Proof

/-- The model arguments of R5, each with its default. They are plain numbers and no step changes them (log 1). -/
structure Config where
  /-- `N`, frame size in bytes, both directions. -/
  n : Nat := 256
  /-- `NCH`, number of dispatch-table entries. -/
  nch : Nat := 16
  /-- `HANDLER_W`, width of a handler identifier in bits. -/
  handlerW : Nat := 8
  /-- `CTX_W`, width of a context word in bits. -/
  ctxW : Nat := 32
  deriving DecidableEq, Repr

namespace Config

/-- The defaults of R5. -/
abbrev default : Config where
  n := 256
  nch := 16
  handlerW := 8
  ctxW := 32

/-- `CAP = N - FH`, the largest legal frame `size` (R5; `FH = 4`). -/
def cap (c : Config) : Nat := c.n - 4

/-- `PMAX = N - FH - SH`, the largest payload of one sub-packet (R5; `FH = SH = 4`, 90_conflicts C1). -/
def pmax (c : Config) : Nat := c.n - 8

/-- The bounds of R6. -/
abbrev Legal (c : Config) : Prop :=
  9 ≤ c.n ∧ c.n ≤ 65539 ∧ 1 ≤ c.nch ∧ c.nch ≤ 256 ∧ 1 ≤ c.handlerW

/-- `ceil(HANDLER_W / 8)`: bytes of `handler` in a command record (R77). -/
def handlerBytes (c : Config) : Nat := (c.handlerW + 7) / 8

/-- `ceil(CTX_W / 8)`: bytes of `context` in a command record (R77). -/
def ctxBytes (c : Config) : Nat := (c.ctxW + 7) / 8

/-- FREE VALUE (log 15): the u16 operand `a` of a diagnostic (R82) for an offset `pos` above 65535, which R6 allows
when `N > 65536` and for which the spec states no 16-bit value. No body: nothing can be proved of it. -/
opaque freeDiagPos : Nat → Word

end Config

/-- `K`, the checksum constant (R5). -/
abbrev checksumK : Word := 0x5555#16

end Sys2Proof
end

