-- ==== Sys2Proof/Syntax.lean ====
section
/-! DEFINITION. The operations of the block: one constructor of `Instr` for every row of spec/opcode_table.json. -/

namespace Sys2Proof

/-- The two frame buffers (R30): `OUT`, the outbound accumulator, and `IN`, the inbound scratch frame. -/
inductive Buf where
  | out
  | inp
  deriving DecidableEq, Repr

/-- `PV`, the packet view (R31): `plen` is the number of payload bytes, `payload` the bytes themselves. -/
structure PacketView where
  channel : Byte
  opcode : Byte
  plen : Word
  payload : List Byte
  deriving DecidableEq, Repr

/-- The rows of spec/opcode_table.json, in the table's order. `origin` is bit 7 of the code byte (R79), kept where
the row's mask ignores it. -/
inductive Instr where
  /-- `SEND_SYNC` (R137). -/
  | sendSync (origin : Bool) (channel opcode : Byte) (payload : List Byte)
  /-- `SEND_DEFERRED` with `origin = 0` (R138). -/
  | sendDeferred (channel opcode : Byte) (payload : List Byte)
  /-- `SEND_DEFERRED.h`: `SEND_DEFERRED` with `origin = 1` (R139, R79). -/
  | sendDeferredH (channel opcode : Byte) (payload : List Byte)
  /-- `FLUSH_NOW` (R140). -/
  | flushNow (origin : Bool)
  /-- `REGISTER` (R162). -/
  | register (origin : Bool) (channel : Byte) (handler context : Nat)
  /-- `UNREGISTER` (R163). -/
  | unregister (origin : Bool) (channel : Byte)
  /-- `SET_DEBUG_TAP` (R164). -/
  | setDebugTap (origin : Bool) (handler context : Nat)
  /-- `CLEAR_DEBUG_TAP` (R165). -/
  | clearDebugTap (origin : Bool)
  /-- `IRQ_RECV` (R141), started by the event input. -/
  | irqRecv
  /-- `ENCODE` (R100). -/
  | encode (channel opcode : Byte) (payload : List Byte)
  /-- `DECODE` (R102) of the slice `B[pos .. pos + rem - 1]`. -/
  | decode (b : Buf) (pos rem : Nat)
  /-- `FB_RESET` (R110). -/
  | fbReset (b : Buf)
  /-- `FB_APPEND` (R111). -/
  | fbAppend (channel opcode : Byte) (payload : List Byte)
  /-- `FB_PARSE` (R113, R114). -/
  | fbParse (b : Buf)
  /-- `XFER_CYCLE` (R130). -/
  | xferCycle
  /-- `DISPATCH` (R160). -/
  | dispatch (pv : PacketView)
  /-- `TAP_FORWARD` (R167). -/
  | tapForward
  /-- `FRAME_HEADER` (R70): the first four bytes of a frame, other than those of the empty frame. -/
  | frameHeader (size checksum : Word)
  /-- `EMPTY_FRAME_HEADER` (R110): `00 00 55 55`. -/
  | emptyFrameHeader
  /-- `SUBPKT_HEADER` (R72): the header of a real message. -/
  | subpktHeader (channel opcode : Byte) (size : Word)
  /-- `SENTINEL_CHANNEL` (R75): a header with `channel == 0`. -/
  | sentinelChannel (opcode : Byte) (size : Word)
  /-- `SENTINEL_SIZE` (R75): a header with `size == 0` (and, so that no header has two readings, `channel != 0`). -/
  | sentinelSize (channel opcode : Byte)
  /-- `RESERVED_CMD` (R80): the code byte of a reserved command. -/
  | reservedCmd (code : Byte)
  /-- `RESULT_OK` (R81). -/
  | resultOk
  /-- `RESULT_NOSPACE` (R81). -/
  | resultNoSpace
  /-- `RESULT_INVALIDCHANNEL` (R81). -/
  | resultInvalidChannel
  /-- `RESULT_TRANSPORTERROR` (R81). -/
  | resultTransportError
  /-- `DIAG_INVALIDCHECKSUM` (R82). -/
  | diagInvalidChecksum (a b : Word)
  /-- `DIAG_MALFORMEDSUBPACKET` (R82). -/
  | diagMalformedSubPacket (a b : Word)
  /-- `DIAG_OVERSIZEDPAYLOAD` (R82). -/
  | diagOversizedPayload (a b : Word)
  /-- `DIAG_FRAMESIZEOVERRUN` (R82). -/
  | diagFrameSizeOverrun (a b : Word)
  /-- `DIAG_TRANSPORTERROR` (R82). -/
  | diagTransportError (a b : Word)
  deriving DecidableEq, Repr

end Sys2Proof
end

