-- ==== Sys2Proof/WellFormed.lean ====
section
/-! DEFINITION. Which terms of `Instr` are operations of the block under given parameters: the operand ranges and
preconditions the spec states. -/

namespace Sys2Proof

/-- A view the parser may yield (R31, R83): `plen` is the payload's length, `1 <= plen <= PMAX`, `channel != 0`. -/
abbrev PacketView.Ok (c : Config) (v : PacketView) : Prop :=
  v.plen.toNat = v.payload.length ∧ 1 ≤ v.payload.length ∧ v.payload.length ≤ c.pmax ∧ v.channel ≠ 0#8

/-- The operand checks of each operation: operand widths (R78, R5), the preconditions of `ENCODE` (R100) and `DECODE`
(R102), the shape of a view (R31), the reserved ops (R80), and which of two header rows a header belongs to (R75). -/
def Instr.wf (c : Config) : Instr → Bool
  | .sendSync _ _ _ p => decide (p.length ≤ 65535)
  | .sendDeferred _ _ p => decide (p.length ≤ 65535)
  | .sendDeferredH _ _ p => decide (p.length ≤ 65535)
  | .flushNow _ => true
  | .register _ _ h x => decide (h < 2 ^ c.handlerW ∧ x < 2 ^ c.ctxW)
  | .unregister _ _ => true
  | .setDebugTap _ h x => decide (h < 2 ^ c.handlerW ∧ x < 2 ^ c.ctxW)
  | .clearDebugTap _ => true
  | .irqRecv => true
  | .encode _ _ p => decide (p.length ≤ c.pmax)
  | .decode _ pos rem => decide (4 ≤ pos ∧ 1 ≤ rem ∧ pos + rem ≤ c.n)
  | .fbReset _ => true
  | .fbAppend _ _ p => decide (p.length ≤ 65535)
  | .fbParse _ => true
  | .xferCycle => true
  | .dispatch v => decide (v.Ok c)
  | .tapForward => true
  | .frameHeader size checksum => decide (¬ (size = 0#16 ∧ checksum = checksumK))
  | .emptyFrameHeader => true
  | .subpktHeader ch _ size => decide (ch ≠ 0#8 ∧ size ≠ 0#16)
  | .sentinelChannel _ _ => true
  | .sentinelSize ch _ => decide (ch ≠ 0#8)
  | .reservedCmd code => decide (code.toNat % 128 = 0 ∨ 8 ≤ code.toNat % 128)
  | .resultOk => true
  | .resultNoSpace => true
  | .resultInvalidChannel => true
  | .resultTransportError => true
  | .diagInvalidChecksum _ _ => true
  | .diagMalformedSubPacket _ _ => true
  | .diagOversizedPayload _ _ => true
  | .diagFrameSizeOverrun _ _ => true
  | .diagTransportError _ _ => true

end Sys2Proof
end

