-- ==== Sys2Proof/Decode.lean ====
section
/-! DEFINITION. The decoders of every port (command records R77 to R80, frame and sub-packet headers R70 to R75, result
and diagnostic records R81, R82), total on any bytes and rejecting by name, and the encoder written from the same tables. -/

namespace Sys2Proof

/-! ## Fields -/

/-- `LE16(b0, b1)` (R8, R50): `b0` at the lower offset holds bits 7..0. -/
def le16 (b0 b1 : Byte) : Word := BitVec.ofNat 16 (b0.toNat + 256 * b1.toNat)

/-- `v[7:0]` (R8). -/
def loByte (v : Word) : Byte := BitVec.ofNat 8 v.toNat

/-- `v[15:8]` (R8). -/
def hiByte (v : Word) : Byte := BitVec.ofNat 8 (v.toNat / 256)

/-- `LE16BYTES(v)` (R8): first byte at the lower offset. -/
def le16Bytes (v : Word) : List Byte := [loByte v, hiByte v]

/-- The number a little-endian byte sequence holds (R77 "Multi-byte operands are little-endian"). -/
def leNat : List Byte → Nat
  | [] => 0
  | b :: bs => b.toNat + 256 * leNat bs

/-- `k` bytes of a number, little-endian (R77). -/
def leBytes : Nat → Nat → List Byte
  | 0, _ => []
  | k + 1, v => BitVec.ofNat 8 v :: leBytes k (v / 256)

/-- The op field of a command's code byte, bits 6..0 (R77). -/
def opField (code : Byte) : Nat := code.toNat % 128

/-- The origin bit of a command's code byte, bit 7 (R77). -/
def originBit (code : Byte) : Bool := decide (128 ≤ code.toNat)

/-- `code = origin * 0x80 + op` (R77). -/
def codeByte (origin : Bool) (op : Nat) : Byte := BitVec.ofNat 8 ((if origin then 128 else 0) + op)

/-- `checksum = size XOR 0x5555` (R71). -/
def checksumOf (size : Word) : Word := size ^^^ checksumK

/-- `ENCODE(channel, opcode, payload)` (R100): the wire image of a sub-packet. -/
def subPacketBytes (channel opcode : Byte) (payload : List Byte) : List Byte :=
  channel :: opcode :: (le16Bytes (BitVec.ofNat 16 payload.length) ++ payload)

/-! ## Decoding -/

/-- Why a decoder rejects. -/
inductive DecodeError where
  /-- No byte at all. -/
  | empty
  /-- Fewer bytes than the record's operands take (R78). -/
  | truncated
  /-- More bytes than the record's operands take (R78 "a record whose byte count disagrees with `len` is not a command"). -/
  | trailing
  /-- An unused high bit of `handler` or `context` is not zero (R77). -/
  | unusedBits
  /-- No record of this port has this code (R81, R82). -/
  | unknownCode
  /-- This port carries no record with bytes (R78: the event and the internal primitives have no code). -/
  | noPort
  deriving DecidableEq, Repr

/-- The operands of a send (R78): the sub-packet's wire image. -/
def decodeSend (mk : Byte → Byte → List Byte → Instr) : List Byte → Except DecodeError (Instr × List Byte)
  | ch :: op :: l0 :: l1 :: rest =>
    if rest.length < (le16 l0 l1).toNat then .error .truncated
    else .ok (mk ch op (rest.take (le16 l0 l1).toNat), rest.drop (le16 l0 l1).toNat)
  | _ => .error .truncated

/-- The operands `handler`, `context` (R77, R78): `ceil(W / 8)` bytes each, unused high bits zero. -/
def decodePair (c : Config) (mk : Nat → Nat → Instr) (bs : List Byte) : Except DecodeError (Instr × List Byte) :=
  if bs.length < c.handlerBytes + c.ctxBytes then .error .truncated
  else
    let h := leNat (bs.take c.handlerBytes)
    let x := leNat ((bs.drop c.handlerBytes).take c.ctxBytes)
    if h < 2 ^ c.handlerW ∧ x < 2 ^ c.ctxW then .ok (mk h x, bs.drop (c.handlerBytes + c.ctxBytes))
    else .error .unusedBits

/-- One command record read from the front of a byte sequence, and the bytes after it (R77 to R80). A reserved code is
read as `RESERVED_CMD`, whose meaning is the refusal; no length is defined for it, so it takes all the bytes. -/
def decodeCommandFrom (c : Config) : List Byte → Except DecodeError (Instr × List Byte)
  | [] => .error .empty
  | code :: rest =>
    match opField code with
    | 1 => decodeSend (.sendSync (originBit code)) rest
    | 2 => decodeSend (if originBit code then .sendDeferredH else .sendDeferred) rest
    | 3 => .ok (.flushNow (originBit code), rest)
    | 4 =>
      match rest with
      | [] => .error .truncated
      | ch :: rest => decodePair c (.register (originBit code) ch) rest
    | 5 =>
      match rest with
      | [] => .error .truncated
      | ch :: rest => .ok (.unregister (originBit code) ch, rest)
    | 6 => decodePair c (.setDebugTap (originBit code)) rest
    | 7 => .ok (.clearDebugTap (originBit code), rest)
    | _ => .ok (.reservedCmd code, [])

/-- A record on the command port: exactly one command (R78). -/
def decodeCommand (c : Config) (bs : List Byte) : Except DecodeError Instr :=
  match decodeCommandFrom c bs with
  | .ok (i, []) => .ok i
  | .ok (_, _ :: _) => .error .trailing
  | .error e => .error e

/-- The first four bytes of a frame (R70). -/
def decodeFrameHeader (b0 b1 b2 b3 : Byte) : Instr :=
  if le16 b0 b1 = 0#16 ∧ le16 b2 b3 = checksumK then .emptyFrameHeader
  else .frameHeader (le16 b0 b1) (le16 b2 b3)

/-- The four header bytes of a sub-packet (R72, R75). -/
def decodeSubHeader (b0 b1 b2 b3 : Byte) : Instr :=
  if b0 = 0#8 then .sentinelChannel b1 (le16 b2 b3)
  else if le16 b2 b3 = 0#16 then .sentinelSize b0 b1
  else .subpktHeader b0 b1 (le16 b2 b3)

/-- A result record (R81). -/
def decodeResult : List Byte → Except DecodeError Instr
  | [] => .error .empty
  | [code] =>
    match code.toNat with
    | 0x00 => .ok .resultOk
    | 0x01 => .ok .resultNoSpace
    | 0x02 => .ok .resultInvalidChannel
    | 0x03 => .ok .resultTransportError
    | _ => .error .unknownCode
  | _ => .error .trailing

/-- A diagnostic record `(code : u8, a : u16, b : u16)` (R82), its u16 operands little-endian (log 18). -/
def decodeDiag : List Byte → Except DecodeError Instr
  | [] => .error .empty
  | [code, a0, a1, b0, b1] =>
    match code.toNat with
    | 0x10 => .ok (.diagInvalidChecksum (le16 a0 a1) (le16 b0 b1))
    | 0x11 => .ok (.diagMalformedSubPacket (le16 a0 a1) (le16 b0 b1))
    | 0x12 => .ok (.diagOversizedPayload (le16 a0 a1) (le16 b0 b1))
    | 0x13 => .ok (.diagFrameSizeOverrun (le16 a0 a1) (le16 b0 b1))
    | 0x14 => .ok (.diagTransportError (le16 a0 a1) (le16 b0 b1))
    | _ => .error .unknownCode
  | bs => if bs.length < 5 then .error .truncated else .error .trailing

/-- Where the bytes of a row are found. -/
inductive Port where
  | command
  | frame
  | subPacket
  | result
  | diagnostic
  | none
  deriving DecidableEq, Repr

/-- The port of a row (the table's "format"): the event and the internal primitives have no encoding (R78). -/
def Instr.port : Instr → Port
  | .sendSync .. | .sendDeferred .. | .sendDeferredH .. | .flushNow _ | .register .. | .unregister ..
  | .setDebugTap .. | .clearDebugTap _ | .reservedCmd _ => .command
  | .irqRecv | .encode .. | .decode .. | .fbReset _ | .fbAppend .. | .fbParse _ | .xferCycle | .dispatch _
  | .tapForward => .none
  | .frameHeader .. | .emptyFrameHeader => .frame
  | .subpktHeader .. | .sentinelChannel .. | .sentinelSize .. => .subPacket
  | .resultOk | .resultNoSpace | .resultInvalidChannel | .resultTransportError => .result
  | .diagInvalidChecksum .. | .diagMalformedSubPacket .. | .diagOversizedPayload .. | .diagFrameSizeOverrun ..
  | .diagTransportError .. => .diagnostic

/-- The decoder of a port, on any bytes. -/
def decodeOn (c : Config) : Port → List Byte → Except DecodeError Instr
  | .command, bs => decodeCommand c bs
  | .frame, [b0, b1, b2, b3] => .ok (decodeFrameHeader b0 b1 b2 b3)
  | .frame, bs => .error (if bs.length < 4 then .truncated else .trailing)
  | .subPacket, [b0, b1, b2, b3] => .ok (decodeSubHeader b0 b1 b2 b3)
  | .subPacket, bs => .error (if bs.length < 4 then .truncated else .trailing)
  | .result, bs => decodeResult bs
  | .diagnostic, bs => decodeDiag bs
  | .none, _ => .error .noPort

/-! ## Encoding -/

/-- The bytes of an operation on its port; none for the event and the internal primitives (R78). -/
def encode (c : Config) : Instr → List Byte
  | .sendSync o ch op p => codeByte o 1 :: subPacketBytes ch op p
  | .sendDeferred ch op p => codeByte false 2 :: subPacketBytes ch op p
  | .sendDeferredH ch op p => codeByte true 2 :: subPacketBytes ch op p
  | .flushNow o => [codeByte o 3]
  | .register o ch h x => codeByte o 4 :: ch :: (leBytes c.handlerBytes h ++ leBytes c.ctxBytes x)
  | .unregister o ch => [codeByte o 5, ch]
  | .setDebugTap o h x => codeByte o 6 :: (leBytes c.handlerBytes h ++ leBytes c.ctxBytes x)
  | .clearDebugTap o => [codeByte o 7]
  | .irqRecv => []
  | .encode _ _ _ => []
  | .decode _ _ _ => []
  | .fbReset _ => []
  | .fbAppend _ _ _ => []
  | .fbParse _ => []
  | .xferCycle => []
  | .dispatch _ => []
  | .tapForward => []
  | .frameHeader size checksum => le16Bytes size ++ le16Bytes checksum
  | .emptyFrameHeader => [0x00#8, 0x00#8, 0x55#8, 0x55#8]
  | .subpktHeader ch op size => [ch, op] ++ le16Bytes size
  | .sentinelChannel op size => [0x00#8, op] ++ le16Bytes size
  | .sentinelSize ch op => [ch, op, 0x00#8, 0x00#8]
  | .reservedCmd code => [code]
  | .resultOk => [0x00#8]
  | .resultNoSpace => [0x01#8]
  | .resultInvalidChannel => [0x02#8]
  | .resultTransportError => [0x03#8]
  | .diagInvalidChecksum a b => 0x10#8 :: (le16Bytes a ++ le16Bytes b)
  | .diagMalformedSubPacket a b => 0x11#8 :: (le16Bytes a ++ le16Bytes b)
  | .diagOversizedPayload a b => 0x12#8 :: (le16Bytes a ++ le16Bytes b)
  | .diagFrameSizeOverrun a b => 0x13#8 :: (le16Bytes a ++ le16Bytes b)
  | .diagTransportError a b => 0x14#8 :: (le16Bytes a ++ le16Bytes b)

/-! ## The words of opcode_table.json (log 14) -/

/-- The four bytes of a 32-bit header pattern, byte 0 the most significant (the table's own note on its match and mask). -/
def headerBytes (w : Nat) : Byte × Byte × Byte × Byte :=
  (BitVec.ofNat 8 (w / 0x1000000), BitVec.ofNat 8 (w / 0x10000), BitVec.ofNat 8 (w / 0x100), BitVec.ofNat 8 w)

/-- Whether four bytes are a valid frame header (R71). -/
def validHeader (b0 b1 b2 b3 : Byte) : Bool := decide (le16 b2 b3 = checksumOf (le16 b0 b1))

/-- Whether a code byte is a diagnostic's (R82). -/
def isDiagCode (code : Byte) : Bool := decide (0x10 ≤ code.toNat ∧ code.toNat ≤ 0x14)

/-- A command word's bytes, the first in bits 7..0, followed by the zero bytes the operands may need. -/
def wordBytes (c : Config) (nbits w : Nat) : List Byte :=
  leBytes (nbits / 8) w ++ List.replicate (5 + c.handlerBytes + c.ctxBytes) 0#8

/-- What a table word stands for, and the bytes it is made of: a 32-bit word is a header pattern (a frame header when
its checksum holds, else a sub-packet header); a word whose first byte is a diagnostic code is a diagnostic record; any
other word is a command record, cut to the record's own length. -/
def readTableWord (c : Config) (nbits w : Nat) : Port × List Byte :=
  if nbits = 32 then
    match headerBytes w with
    | (b0, b1, b2, b3) => if validHeader b0 b1 b2 b3 then (.frame, [b0, b1, b2, b3]) else (.subPacket, [b0, b1, b2, b3])
  else
    let bs := wordBytes c nbits w
    if isDiagCode (bs.headD 0#8) then (.diagnostic, bs.take 5)
    else
      match decodeCommandFrom c bs with
      | .ok (.reservedCmd code, _) => (.command, [code])
      | .ok (_, rest) => (.command, bs.take (bs.length - rest.length))
      | .error _ => (.command, bs)

/-- The instruction the decoder reads from a table word. -/
def decodeTableWord (nbits w : Nat) : Option Instr :=
  match readTableWord .default nbits w with
  | (port, bs) => (decodeOn .default port bs).toOption

end Sys2Proof
end

