-- ==== Sys2Proof/Machine/State.lean ====
section
/-! DEFINITION. The state of the block (spec 10_state R20) as plain data, its value after reset (R35), and the reasons
a step can stop. -/

namespace Sys2Proof.Machine

/-- Why the machine stops with a fault. The block itself has no fault state (R11, R184); this is the one stop of the
model, and no state that keeps the invariants of Safety.lean reaches it. -/
inductive Fault where
  /-- An access to a buffer offset of `N` or more, which R8 and R30 say does not exist. Raised by `DECODE` on a slice
  outside the buffer (its precondition `pos + rem <= N`, R102) and by the parser's reads. Safe. -/
  | outsideBuffer
  deriving DecidableEq, Repr

/-- Why the machine has no meaning for what it is given. -/
inductive Refusal where
  /-- An instruction whose meaning is not written. Raised by no arm of this model. Safe. -/
  | notModelled (mnemonic : String)
  /-- A reserved command code (R80, D25: "a model gives them no meaning and refuses them"). Raised by `RESERVED_CMD`.
  Safe. -/
  | reservedCommand (code : Byte)
  /-- A record on the command port that is no command (R78: "is not a command"). Raised by the step when it takes such
  a record. Safe. -/
  | notACommand (why : DecodeError)
  deriving DecidableEq, Repr

/-- A frame buffer's bytes: (offset, byte), offsets strictly rising, no entry equal to what an unlisted offset reads
as (log 16). -/
abbrev Memory := List Host.Cell

/-- An entry of the dispatch table (R26). -/
structure DtEntry where
  handler : Nat
  context : Nat
  deriving DecidableEq, Repr

/-- `TAP`, the debug tap register (R27). -/
structure Tap where
  valid : Bool
  handler : Nat
  context : Nat
  deriving DecidableEq, Repr

/-- `phase` (R28). -/
inductive Phase where
  | idle
  | xfer
  | disp
  deriving DecidableEq, Repr

/-- The parse cursor `(lim, pos, rem)` (R25); `rem` may become negative (R7). -/
structure Cursor where
  lim : Nat
  pos : Nat
  rem : Int
  deriving DecidableEq, Repr

/-- How far the parse of the cycle in progress has come: the cursor is live only inside one `FB_PARSE` run (R25). -/
inductive Parse where
  | notBegun
  | running (cur : Cursor)
  | ended
  deriving DecidableEq, Repr

/-- Whose done the engine waits for (R166, R167). -/
inductive Service where
  | handler (handler context : Nat)
  | tap (handler context : Nat)
  deriving DecidableEq, Repr

/-- Who started the cycle in progress, so who is told how it ended: a client (R137, R140), the event (R141), or nobody
(`XFER_CYCLE` run on its own, and no cycle). -/
inductive Starter where
  | nobody
  | client (caller : Nat)
  | event
  deriving DecidableEq, Repr

/-- The results of commands (R180, R81). -/
inductive Result where
  | ok
  | noSpace
  | invalidChannel
  | transportError
  deriving DecidableEq, Repr

/-- The kinds of diagnostics (R82). -/
inductive DiagKind where
  | invalidChecksum
  | malformedSubPacket
  | oversizedPayload
  | frameSizeOverrun
  | transportError
  deriving DecidableEq, Repr

/-- A diagnostic record `(code, a, b)` (R82). -/
structure DiagRec where
  kind : DiagKind
  a : Word
  b : Word
  deriving DecidableEq, Repr

/-- What leaves the block on its ports (R83, R196, R197). -/
inductive PortRec where
  /-- Link port: the `N` bytes presented for an exchange. -/
  | linkRequest (frame : List Byte)
  /-- Dispatch port: one handler invocation. -/
  | dispatch (handler context : Nat) (view : PacketView)
  /-- Tap port: one raw frame. -/
  | tap (handler context : Nat) (frame : List Byte)
  /-- Diagnostic port. -/
  | diag (d : DiagRec)
  /-- Command port: the result of one command, to its caller. -/
  | result (caller : Nat) (r : Result)
  deriving DecidableEq, Repr

/-- What an internal primitive returns to the part of the block that called it. -/
inductive Ret where
  | none
  /-- `FB_APPEND` (R111) and `XFER_CYCLE` (R130). -/
  | status (r : Result)
  /-- `ENCODE` (R100). -/
  | bytes (bs : List Byte)
  /-- `DECODE` (R102). -/
  | sentinel
  | malformed
  | view (v : PacketView) (consumed : Nat)
  /-- `FB_PARSE` (R113, R114): the finite sequence of views. -/
  | views (vs : List PacketView)
  deriving DecidableEq, Repr

/-- What `DECODE` answers (R102); `outside` is the access its precondition excludes. -/
inductive DecodeResult where
  | sentinel
  | malformed
  | view (v : PacketView) (consumed : Nat)
  | outside
  deriving DecidableEq, Repr

/-- A command held at the command port (R33 (b), R143): its caller's tag and its record. `awaited` marks a command of
the handler in service which that handler waits for before it answers done (R230). -/
structure Held where
  caller : Nat
  record : List Byte
  awaited : Bool
  deriving DecidableEq, Repr

/-- One move of the closed system (log 3): the engine's, with its choice among what it may take (R190), or the
environment's (R10). -/
inductive Move where
  | engine (choice : Nat)
  /-- A command is issued on the command port. -/
  | issue (h : Held)
  /-- One edge of the event source (R185). -/
  | edge
  /-- The link's answer (R196): `some` frame for `Ok`, `none` for `Err`. -/
  | link (answer : Option (List Byte))
  /-- The handler (or tap handler) in service answers done (R166). -/
  | done
  deriving DecidableEq, Repr

/-- What the engine may do next (R190, R139). -/
inductive Choice where
  /-- Take the held command at this place. -/
  | command (idx : Nat)
  /-- Start `IRQ_RECV`. -/
  | event
  /-- Go on with the cycle in progress. -/
  | proceed
  deriving DecidableEq, Repr

/-- The state. The first group is the spec's (R20, R33, R183); the second is the model's own (INVENTORY.md, `## State`). -/
structure State where
  cfg : Config
  outb : Memory
  inb : Memory
  dt : List DtEntry
  tap : Tap
  phase : Phase
  irqPending : Bool
  parse : Parse
  pv : Option PacketView
  held : List Held
  /-- Everything the block has presented on its ports, oldest first (log 8); the diagnostic stream is its part. -/
  trace : List PortRec
  serv : Option Service
  starter : Starter
  caller : Nat
  ret : Ret
  script : List Move
  internal : List Instr
  deriving DecidableEq, Repr

/-- The state after reset under given parameters (R35): both buffers the empty frame, every entry unbound, no tap,
`Idle`, no event pending, nothing held, the diagnostic stream empty; the model's own fields at the values of log 2. -/
def State.resetWith (c : Config) : State where
  cfg := c
  outb := []
  inb := []
  dt := List.replicate c.nch ⟨0, 0⟩
  tap := ⟨false, 0, 0⟩
  phase := .idle
  irqPending := false
  parse := .notBegun
  pv := none
  held := []
  trace := []
  serv := none
  starter := .nobody
  caller := 0
  ret := .none
  script := []
  internal := []

/-- The machine right after reset, with the default parameters of R5. -/
def State.reset : State := State.resetWith .default

end Sys2Proof.Machine
end

