-- ==== Sys2Proof/Machine/Operands.lean ====
section
/-! DEFINITION. Operand access: bytes and 16-bit fields of a buffer (R8, R50), the fields of a frame header (R21, R70),
the byte an unlisted offset reads as, and the codes of results and diagnostics (R81, R82). -/

namespace Sys2Proof.Machine

/-- What an unlisted offset of a buffer reads as: the empty frame `00 00 55 55 00 ...` (R110), the reset contents of
both buffers (R35). -/
def Memory.fill (off : Nat) : Byte := if off = 2 ∨ off = 3 then 0x55#8 else 0x00#8

/-- `MemRead(B, off, 1)` (R8). -/
def Memory.read : Memory → Nat → Byte
  | [], off => Memory.fill off
  | (a, x) :: m, off => if a = off then x else Memory.read m off

/-- `MemRead(B, off, 2)` (R8). -/
def Memory.read16 (m : Memory) (off : Nat) : Word := le16 (m.read off) (m.read (off + 1))

/-- `B[off .. off + k - 1]` (R7). -/
def Memory.slice (m : Memory) : Nat → Nat → List Byte
  | _, 0 => []
  | off, k + 1 => m.read off :: Memory.slice m (off + 1) k

/-- `OUT.size` or `IN.size`, the declared size (R21, R70). -/
def Memory.frameSize (m : Memory) : Word := m.read16 0

/-- `OUT.checksum` or `IN.checksum` (R21, R70). -/
def Memory.frameChecksum (m : Memory) : Word := m.read16 2

/-- The content of a frame: the declared number of bytes from offset 4 (R55). -/
def Memory.content (m : Memory) : List Byte := m.slice 4 m.frameSize.toNat

/-- `MemWrite(B, off, 1, v)` (R8), keeping the canonical form. -/
def Memory.write : Memory → Nat → Byte → Memory
  | [], off, v => if v = Memory.fill off then [] else [(off, v)]
  | (a, x) :: m, off, v =>
    if off < a then
      if v = Memory.fill off then (a, x) :: m else (off, v) :: (a, x) :: m
    else if off = a then
      if v = Memory.fill off then m else (off, v) :: m
    else (a, x) :: Memory.write m off v

/-- `MemWrite(B, off, 2, v)` (R8). -/
def Memory.write16 (m : Memory) (off : Nat) (v : Word) : Memory := (m.write off (loByte v)).write (off + 1) (hiByte v)

/-- Bytes written one after another from `off` (R8: "a payload is moved as a sequence of one-byte accesses"). -/
def Memory.writeBytes (m : Memory) : Nat → List Byte → Memory
  | _, [] => m
  | off, b :: bs => Memory.writeBytes (m.write off b) (off + 1) bs

/-- A buffer holding the given bytes from `off` on and the fill elsewhere. -/
def Memory.loadFrom : Nat → List Byte → Memory
  | _, [] => []
  | off, b :: bs => if b = Memory.fill off then Memory.loadFrom (off + 1) bs else (off, b) :: Memory.loadFrom (off + 1) bs

/-- A buffer written whole (R52: the link exchange). -/
def Memory.load (bs : List Byte) : Memory := Memory.loadFrom 0 bs

/-- The canonical form, entries at offsets from `lo` up to `n - 1`. -/
def Memory.wfFrom (n : Nat) : Nat → Memory → Bool
  | _, [] => true
  | lo, (a, x) :: m => decide (lo ≤ a ∧ a < n ∧ x ≠ Memory.fill a) && Memory.wfFrom n (a + 1) m

/-- The canonical form of a buffer of `n` bytes. -/
def Memory.wf (n : Nat) (m : Memory) : Bool := Memory.wfFrom n 0 m

/-- The result codes of R81. -/
def Result.code : Result → Byte
  | .ok => 0x00#8
  | .noSpace => 0x01#8
  | .invalidChannel => 0x02#8
  | .transportError => 0x03#8

/-- The diagnostic codes of R82. -/
def DiagKind.code : DiagKind → Byte
  | .invalidChecksum => 0x10#8
  | .malformedSubPacket => 0x11#8
  | .oversizedPayload => 0x12#8
  | .frameSizeOverrun => 0x13#8
  | .transportError => 0x14#8

/-- The u16 operand that names an offset of `IN` (R82 `pos`); for an offset that does not fit, the free value of log 15. -/
def diagPos (pos : Nat) : Word := if pos < 65536 then BitVec.ofNat 16 pos else Config.freeDiagPos pos

/-- A handler identifier or context as the register of width `w` bits holds it (R5, R26, R27). -/
def toWidth (w v : Nat) : Nat := v % 2 ^ w

end Sys2Proof.Machine
end

