-- ==== Sys2Proof/Machine/Flags.lean ====
section
/-! DEFINITION. The block has no status flag and no condition code (R32). This file holds the tests its results and
diagnostics rest on: checksum (R71, R113), capacity (R111, R118), oversize (R102), bound channel (R161), and which held
command may be taken in which phase (R139, R143). -/

namespace Sys2Proof.Machine

/-- A frame is valid exactly when `checksum = size XOR 0x5555` (R71). -/
def checksumValid (size checksum : Word) : Bool := decide (checksum = checksumOf size)

/-- `need = 4 + L`, without wrap-around (R111, R118). -/
def appendNeed (payload : List Byte) : Nat := 4 + payload.length

/-- `remaining = N - 4 - size` (R111). -/
def appendRemaining (c : Config) (out : Memory) : Nat := c.cap - out.frameSize.toNat

/-- Whether a sub-packet fits: not `need > remaining` (R111). -/
def appendFits (c : Config) (out : Memory) (payload : List Byte) : Bool :=
  decide (appendNeed payload ≤ appendRemaining c out)

/-- `size > N - 4`: the declared frame size leaves the buffer (R113, D6). -/
def sizeOverrun (c : Config) (size : Word) : Bool := decide (c.cap < size.toNat)

/-- `lim = min(size, CAP)` (R25, R113). -/
def contentLimit (c : Config) (size : Word) : Nat := min size.toNat c.cap

/-- `ps > PMAX` (R102). -/
def payloadOversized (c : Config) (ps : Word) : Bool := decide (c.pmax < ps.toNat)

/-- `pl`, the payload bytes taken: `min(ps, PMAX)` (R102, R168). -/
def payloadTaken (c : Config) (ps : Word) : Nat := min ps.toNat c.pmax

/-- A sentinel: `channel == 0` or `size == 0` (R75). -/
def isSentinel (ch : Byte) (ps : Word) : Bool := decide (ch = 0#8 ∨ ps = 0#16)

/-- A handler's deferred send: `SEND_DEFERRED` with `origin = 1`, code `0x82` (R79, R139). -/
def isHandlerSend (h : Held) : Bool :=
  match h.record with
  | [] => false
  | code :: _ => originBit code && opField code == 2

/-- Whether a held command may be taken (R143, R139): any in `Idle`, none in `Xfer`, a handler's deferred send in
`Disp`. -/
def takeable (p : Phase) (h : Held) : Bool :=
  match p with
  | .idle => true
  | .xfer => false
  | .disp => isHandlerSend h

end Sys2Proof.Machine
end

