-- ==== Sys2Proof/Machine/Ops.lean ====
section
/-! DEFINITION. The shared operations every meaning is made of: port records, the frame buffers, the dispatch table and
the tap, the sub-packet decoder, the parser, and the cycle's start, answer and end. An error is never an exception with
an entry here (R192): it is a result or a diagnostic record. -/

namespace Sys2Proof.Machine

/-! ## Ports -/

/-- Presents one record on a port. -/
def Ops.emit (r : PortRec) (s : State) : State := { s with trace := s.trace ++ [r] }

/-- `diag D(a, b)` (R9, R183). -/
def Ops.raiseDiag (kind : DiagKind) (a b : Word) (s : State) : State := Ops.emit (.diag ⟨kind, a, b⟩) s

/-- Raises the given records in order. -/
def Ops.raiseAll (ds : List DiagRec) (s : State) : State := { s with trace := s.trace ++ ds.map .diag }

/-- `return r` of a command: the result goes to its caller (R180). -/
def Ops.answer (caller : Nat) (r : Result) (s : State) : State := Ops.emit (.result caller r) s

/-- A command that may not be taken yet waits at the command port (R143). -/
def Ops.hold (i : Instr) (s : State) : State :=
  { s with held := s.held ++ [⟨s.caller, encode s.cfg i, false⟩] }

/-! ## Frame buffers -/

/-- The buffer a name stands for. -/
def Ops.buffer (b : Buf) (s : State) : Memory :=
  match b with
  | .out => s.outb
  | .inp => s.inb

/-- `FB_RESET(B)` (R110): the empty frame, which is the empty list of cells. -/
def Ops.resetBuffer (b : Buf) (s : State) : State :=
  match b with
  | .out => { s with outb := [] }
  | .inp => { s with inb := [] }

/-- The accumulator after a sub-packet that fits is written at the fill offset and the header is brought up to date
(R111). -/
def Ops.appended (out : Memory) (channel opcode : Byte) (payload : List Byte) : Memory :=
  let size' := BitVec.ofNat 16 (out.frameSize.toNat + appendNeed payload)
  ((out.writeBytes (4 + out.frameSize.toNat) (subPacketBytes channel opcode payload)).write16 0 size').write16 2
    (checksumOf size')

/-- `FB_APPEND` (R111): the state after it and its result. -/
def Ops.append (channel opcode : Byte) (payload : List Byte) (s : State) : State × Result :=
  if appendFits s.cfg s.outb payload then ({ s with outb := Ops.appended s.outb channel opcode payload }, .ok)
  else (s, .noSpace)

/-! ## Dispatch table and tap -/

/-- `DT[c]` (R26); a channel outside the table has no entry and reads as unbound (R161). -/
def Ops.entry (s : State) (channel : Byte) : DtEntry :=
  if channel.toNat < s.cfg.nch then s.dt.getD channel.toNat ⟨0, 0⟩ else ⟨0, 0⟩

/-- `DT[channel] <- (handler, context)` (R162). -/
def Ops.setEntry (channel : Byte) (handler context : Nat) (s : State) : State :=
  { s with dt := s.dt.set channel.toNat ⟨toWidth s.cfg.handlerW handler, toWidth s.cfg.ctxW context⟩ }

/-- `TAP <- (handler != 0, handler, context)` (R164). -/
def Ops.setTap (handler context : Nat) (s : State) : State :=
  { s with tap := ⟨toWidth s.cfg.handlerW handler != 0, toWidth s.cfg.handlerW handler, toWidth s.cfg.ctxW context⟩ }

/-- `invoke(h, x, view)` (R166): the dispatch record is presented and the engine waits for done. -/
def Ops.invoke (handler context : Nat) (v : PacketView) (s : State) : State :=
  Ops.emit (.dispatch handler context v) { s with pv := some v, serv := some (.handler handler context) }

/-- `TAP_FORWARD` (R167): all `N` bytes of `IN`, and the engine waits for done. -/
def Ops.forwardTap (s : State) : State :=
  Ops.emit (.tap s.tap.handler s.tap.context (s.inb.slice 0 s.cfg.n))
    { s with serv := some (.tap s.tap.handler s.tap.context) }

/-- `DISPATCH(pv)` (R160, R161). -/
def Ops.dispatchView (v : PacketView) (s : State) : State :=
  if (Ops.entry s v.channel).handler = 0 then { s with pv := none }
  else Ops.invoke (Ops.entry s v.channel).handler (Ops.entry s v.channel).context v s

/-! ## The sub-packet decoder and the parser -/

/-- `DECODE` with the header's fields at hand (R102, from the sentinel test on): the answer, and whether
`OversizedPayload` is raised. -/
def Ops.decodeFields (c : Config) (m : Memory) (pos rem : Nat) (ch op : Byte) (ps : Word) : DecodeResult × Bool :=
  if isSentinel ch ps then (.sentinel, false)
  else if rem < 4 + payloadTaken c ps then (.malformed, payloadOversized c ps)
  else if c.n < pos + 4 + payloadTaken c ps then (.outside, payloadOversized c ps)
  else
    (.view ⟨ch, op, BitVec.ofNat 16 (payloadTaken c ps), m.slice (pos + 4) (payloadTaken c ps)⟩ (4 + ps.toNat),
      payloadOversized c ps)

/-- `DECODE(B, pos, rem)` (R102). -/
def Ops.decodeAt (c : Config) (m : Memory) (pos rem : Nat) : DecodeResult × Bool :=
  if rem < 4 then (.malformed, false)
  else if c.n < pos + 4 then (.outside, false)
  else Ops.decodeFields c m pos rem (m.read pos) (m.read (pos + 1)) (m.read16 (pos + 2))

/-- The `OversizedPayload(pos, ps)` record, if it is raised (R82, R102). -/
def Ops.oversizeDiag (raised : Bool) (pos : Nat) (ps : Word) : List DiagRec :=
  if raised then [⟨.oversizedPayload, diagPos pos, ps⟩] else []

/-- The `MalformedSubPacket(pos, rem)` record (R82, R114). -/
def Ops.malformedDiag (pos : Nat) (rem : Int) : DiagRec :=
  ⟨.malformedSubPacket, diagPos pos, BitVec.ofNat 16 rem.toNat⟩

/-- The header checks of `FB_PARSE` (R113): the records raised, and the content limit when the frame is not discarded. -/
def Ops.checkHeader (c : Config) (size checksum : Word) : List DiagRec × Option Nat :=
  if checksumValid size checksum then
    (if sizeOverrun c size then [⟨.frameSizeOverrun, size, BitVec.ofNat 16 c.cap⟩] else [], some (contentLimit c size))
  else ([⟨.invalidChecksum, size, checksum⟩], none)

/-- The loop of `FB_PARSE` (R114) as the whole sequence of views and of records raised. `fuel` bounds the number of
rounds; `lim` rounds are enough (R114 (d)). -/
def Ops.parseLoop (c : Config) (m : Memory) : Nat → Nat → Int → List PacketView × List DiagRec
  | 0, _, _ => ([], [])
  | fuel + 1, pos, rem =>
    if rem ≤ 0 then ([], [])
    else
      match Ops.decodeAt c m pos rem.toNat with
      | (.sentinel, _) => ([], [])
      | (.malformed, big) => ([], Ops.oversizeDiag big pos (m.read16 (pos + 2)) ++ [Ops.malformedDiag pos rem])
      | (.outside, big) => ([], Ops.oversizeDiag big pos (m.read16 (pos + 2)))
      | (.view v consumed, big) =>
        (v :: (Ops.parseLoop c m fuel (pos + consumed) (rem - consumed)).1,
          Ops.oversizeDiag big pos (m.read16 (pos + 2)) ++
            (Ops.parseLoop c m fuel (pos + consumed) (rem - consumed)).2)

/-- `FB_PARSE(F)` (R113, R114) as a function: the views yielded and the records raised. -/
def Ops.parseFrame (c : Config) (m : Memory) : List PacketView × List DiagRec :=
  match Ops.checkHeader c m.frameSize m.frameChecksum with
  | (ds, none) => ([], ds)
  | (ds, some lim) => ((Ops.parseLoop c m lim 4 lim).1, ds ++ (Ops.parseLoop c m lim 4 lim).2)

/-- Whether the parser reads `IN` at all in this state: a cycle is past its exchange and no tap is installed (R134). -/
def Ops.parserReads (s : State) : Bool := decide (s.phase = .disp) && !s.tap.valid

/-- The parser meets the frame header (R135, then R113): a frame with `size == 0` is not parsed and not checked. -/
def Ops.parseHeader (size checksum : Word) (s : State) : State :=
  if Ops.parserReads s && decide (s.parse = .notBegun) then
    if size = 0#16 then { s with parse := .ended }
    else
      match Ops.checkHeader s.cfg size checksum with
      | (ds, none) => { Ops.raiseAll ds s with parse := .ended }
      | (ds, some lim) => { Ops.raiseAll ds s with parse := .running ⟨lim, 4, lim⟩ }
  else s

/-- One round of the parser's loop (R114) on the header fields at the cursor: the loop test, `DECODE`, and what follows
its answer. With no parse running, or with a view still to be dispatched, no header is read. -/
def Ops.parseRound (ch op : Byte) (ps : Word) (s : State) : Host.Outcome State Fault Refusal :=
  match Ops.parserReads s, s.parse, s.pv with
  | true, .running cur, none =>
    if cur.rem ≤ 0 then .next { s with parse := .ended }
    else if cur.rem < 4 then .next { Ops.raiseAll [Ops.malformedDiag cur.pos cur.rem] s with parse := .ended }
    else
      match Ops.decodeFields s.cfg s.inb cur.pos cur.rem.toNat ch op ps with
      | (.sentinel, _) => .next { s with parse := .ended }
      | (.malformed, big) =>
        .next { Ops.raiseAll (Ops.oversizeDiag big cur.pos ps ++ [Ops.malformedDiag cur.pos cur.rem]) s with
          parse := .ended }
      | (.view v consumed, big) =>
        .next { Ops.raiseAll (Ops.oversizeDiag big cur.pos ps) s with
          pv := some v, parse := .running ⟨cur.lim, cur.pos + consumed, cur.rem - consumed⟩ }
      | (.outside, _) => .fault .outsideBuffer
  | _, _, _ => .next s

/-! ## The cycle -/

/-- Step X1 begins (R130, R131): `phase <- Xfer`, and `OUT` is presented as it stands. -/
def Ops.startCycle (starter : Starter) (s : State) : State :=
  Ops.emit (.linkRequest (s.outb.slice 0 s.cfg.n)) { s with phase := .xfer, starter := starter, parse := .notBegun }

/-- How a cycle's result is reported: to the client (R137, R140), on the diagnostic stream for the event (R141), or to
the primitive's own caller. -/
def Ops.reportCycle (r : Result) (s : State) : State :=
  match s.starter with
  | .client caller => Ops.answer caller r s
  | .event => if r = .transportError then Ops.raiseDiag .transportError 0#16 0#16 s else s
  | .nobody => { s with ret := .status r }

/-- Step X4 and the failure path (R132, R136): `IN` is emptied, `phase <- Idle`, the transient state is gone, the
result is reported. -/
def Ops.endCycle (r : Result) (s : State) : State :=
  { Ops.reportCycle r s with
    inb := [], phase := .idle, parse := .notBegun, pv := none, serv := none, starter := .nobody }

/-- The link answers (R130 to R133): `OUT` is emptied in any case; on `Err` the cycle ends with `TransportError`; on
`Ok(G)` the frame is taken into `IN`. An answer nothing waits for, or one that is not `N` bytes, is no answer (log 5). -/
def Ops.linkAnswer (answer : Option (List Byte)) (s : State) : State :=
  match s.phase, answer with
  | .xfer, none => Ops.endCycle .transportError { s with outb := [] }
  | .xfer, some g =>
    if g.length = s.cfg.n then
      { s with outb := [], inb := Memory.load g, phase := .disp, parse := .notBegun, pv := none, serv := none }
    else s
  | _, _ => s

/-- The handler or tap handler in service answers done (R166, R167): its view is gone (R168, D23); after the tap the
parse is skipped (R134). A handler that waits for a command of its own cannot answer (R230). -/
def Ops.handlerDone (s : State) : State :=
  if s.held.any (·.awaited) then s
  else
    match s.serv with
    | none => s
    | some (.handler _ _) => { s with serv := none, pv := none }
    | some (.tap _ _) => { s with serv := none, parse := if s.phase = .disp then .ended else s.parse }

end Sys2Proof.Machine
end

