-- ==== Sys2Proof/Machine/Codec.lean ====
section
/-! DEFINITION. The sub-packet codec: `ENCODE` and `DECODE` (spec 40_codec). Both read and write no state of the block
(R36); what they return is kept in `ret` (log 9). -/

namespace Sys2Proof.Machine

/-- `ENCODE(channel, opcode, payload)` (R100). -/
def execEncode (channel opcode : Byte) (payload : List Byte) (s : State) : Host.Outcome State Fault Refusal :=
  .next { s with ret := .bytes (subPacketBytes channel opcode payload) }

/-- `DECODE(B, pos, rem)` (R102): the `OversizedPayload` record it may raise, and its answer. A slice outside the
buffer breaks its precondition and faults (log 19). -/
def execDecode (b : Buf) (pos rem : Nat) (s : State) : Host.Outcome State Fault Refusal :=
  match Ops.decodeAt s.cfg (Ops.buffer b s) pos rem with
  | (.sentinel, _) => .next { s with ret := .sentinel }
  | (.malformed, big) =>
    .next { Ops.raiseAll (Ops.oversizeDiag big pos ((Ops.buffer b s).read16 (pos + 2))) s with ret := .malformed }
  | (.view v consumed, big) =>
    .next { Ops.raiseAll (Ops.oversizeDiag big pos ((Ops.buffer b s).read16 (pos + 2))) s with ret := .view v consumed }
  | (.outside, _) => .fault .outsideBuffer

end Sys2Proof.Machine
end

