-- ==== Sys2Proof/Machine/FrameBuffer.lean ====
section
/-! DEFINITION. The frame buffer: `FB_RESET`, `FB_APPEND`, `FB_PARSE` (spec 41_frame_buffer). -/

namespace Sys2Proof.Machine

/-- `FB_RESET(B)` (R110). -/
def execFbReset (b : Buf) (s : State) : Host.Outcome State Fault Refusal :=
  .next (Ops.resetBuffer b s)

/-- `FB_APPEND(channel, opcode, payload)` (R111, R112). -/
def execFbAppend (channel opcode : Byte) (payload : List Byte) (s : State) : Host.Outcome State Fault Refusal :=
  match Ops.append channel opcode payload s with
  | (s', r) => .next { s' with ret := .status r }

/-- `FB_PARSE(F)` (R113, R114): the whole sequence of views is returned, the records are raised, nothing else is
written (R117 (d)). -/
def execFbParse (b : Buf) (s : State) : Host.Outcome State Fault Refusal :=
  match Ops.parseFrame s.cfg (Ops.buffer b s) with
  | (vs, ds) => .next { Ops.raiseAll ds s with ret := .views vs }

end Sys2Proof.Machine
end

