-- ==== Sys2Proof/Machine/Multiplexer.lean ====
section
/-! DEFINITION. The dispatch multiplexer and the debug tap: `REGISTER`, `UNREGISTER`, `SET_DEBUG_TAP`,
`CLEAR_DEBUG_TAP`, `DISPATCH`, `TAP_FORWARD` (spec 43_dispatch). The four commands are taken only in `Idle`, else held
(R143, R169); their origin bit is ignored (R79). -/

namespace Sys2Proof.Machine

/-- `REGISTER(channel, handler, context)` (R162). -/
def execRegister (origin : Bool) (channel : Byte) (handler context : Nat) (s : State) :
    Host.Outcome State Fault Refusal :=
  match s.phase with
  | .idle =>
    if channel.toNat < s.cfg.nch then .next (Ops.answer s.caller .ok (Ops.setEntry channel handler context s))
    else .next (Ops.answer s.caller .invalidChannel s)
  | _ => .next (Ops.hold (.register origin channel handler context) s)

/-- `UNREGISTER(channel)` (R163). -/
def execUnregister (origin : Bool) (channel : Byte) (s : State) : Host.Outcome State Fault Refusal :=
  match s.phase with
  | .idle =>
    if channel.toNat < s.cfg.nch then .next (Ops.answer s.caller .ok (Ops.setEntry channel 0 0 s))
    else .next (Ops.answer s.caller .ok s)
  | _ => .next (Ops.hold (.unregister origin channel) s)

/-- `SET_DEBUG_TAP(handler, context)` (R164). -/
def execSetDebugTap (origin : Bool) (handler context : Nat) (s : State) : Host.Outcome State Fault Refusal :=
  match s.phase with
  | .idle => .next (Ops.answer s.caller .ok (Ops.setTap handler context s))
  | _ => .next (Ops.hold (.setDebugTap origin handler context) s)

/-- `CLEAR_DEBUG_TAP()` (R165). -/
def execClearDebugTap (origin : Bool) (s : State) : Host.Outcome State Fault Refusal :=
  match s.phase with
  | .idle => .next (Ops.answer s.caller .ok { s with tap := ⟨false, 0, 0⟩ })
  | _ => .next (Ops.hold (.clearDebugTap origin) s)

/-- `DISPATCH(pv)` (R160, R161). -/
def execDispatch (v : PacketView) (s : State) : Host.Outcome State Fault Refusal :=
  .next (Ops.dispatchView v s)

/-- `TAP_FORWARD()` (R167). -/
def execTapForward (s : State) : Host.Outcome State Fault Refusal :=
  .next (Ops.forwardTap s)

end Sys2Proof.Machine
end

