-- ==== Sys2Proof/Machine/Records.lean ====
section
/-! DEFINITION. The port records: results (R81, R180), diagnostics (R82, R183) and the reserved command codes (R80). -/

namespace Sys2Proof.Machine

/-- `RESULT_OK` (R81): `Ok` is returned to the caller of the command being taken. -/
def execResultOk (s : State) : Host.Outcome State Fault Refusal :=
  .next (Ops.answer s.caller .ok s)

/-- `RESULT_NOSPACE` (R81, R181). -/
def execResultNoSpace (s : State) : Host.Outcome State Fault Refusal :=
  .next (Ops.answer s.caller .noSpace s)

/-- `RESULT_INVALIDCHANNEL` (R81, R181). -/
def execResultInvalidChannel (s : State) : Host.Outcome State Fault Refusal :=
  .next (Ops.answer s.caller .invalidChannel s)

/-- `RESULT_TRANSPORTERROR` (R81, R181). -/
def execResultTransportError (s : State) : Host.Outcome State Fault Refusal :=
  .next (Ops.answer s.caller .transportError s)

/-- `DIAG_INVALIDCHECKSUM` (R82): the record is appended to the diagnostic stream (R183). -/
def execDiagInvalidChecksum (a b : Word) (s : State) : Host.Outcome State Fault Refusal :=
  .next (Ops.raiseDiag .invalidChecksum a b s)

/-- `DIAG_MALFORMEDSUBPACKET` (R82). -/
def execDiagMalformedSubPacket (a b : Word) (s : State) : Host.Outcome State Fault Refusal :=
  .next (Ops.raiseDiag .malformedSubPacket a b s)

/-- `DIAG_OVERSIZEDPAYLOAD` (R82). -/
def execDiagOversizedPayload (a b : Word) (s : State) : Host.Outcome State Fault Refusal :=
  .next (Ops.raiseDiag .oversizedPayload a b s)

/-- `DIAG_FRAMESIZEOVERRUN` (R82). -/
def execDiagFrameSizeOverrun (a b : Word) (s : State) : Host.Outcome State Fault Refusal :=
  .next (Ops.raiseDiag .frameSizeOverrun a b s)

/-- `DIAG_TRANSPORTERROR` (R82). -/
def execDiagTransportError (a b : Word) (s : State) : Host.Outcome State Fault Refusal :=
  .next (Ops.raiseDiag .transportError a b s)

/-- `RESERVED_CMD` (R80, D25): refused by name. -/
def execReservedCmd (code : Byte) (_s : State) : Host.Outcome State Fault Refusal :=
  .refused (.reservedCommand code)

end Sys2Proof.Machine
end

