-- ==== Sys2Proof/Machine/Transport.lean ====
section
/-! DEFINITION. The transport engine: `SEND_SYNC`, `SEND_DEFERRED`, `SEND_DEFERRED.h`, `FLUSH_NOW`, `IRQ_RECV`,
`XFER_CYCLE` (spec 42_transport). A cycle waits for the link and for handlers, so an operation that runs one starts it
here and later steps end it (log 6). -/

namespace Sys2Proof.Machine

/-- `SEND_SYNC(channel, opcode, payload)` (R137), taken only in `Idle`, else held (R143). The origin bit is ignored
(R79). -/
def execSendSync (_origin : Bool) (channel opcode : Byte) (payload : List Byte) (s : State) :
    Host.Outcome State Fault Refusal :=
  match s.phase with
  | .idle =>
    match Ops.append channel opcode payload s with
    | (s', .ok) => .next (Ops.startCycle (.client s.caller) s')
    | (s', r) => .next (Ops.answer s.caller r s')
  | _ => .next (Ops.hold (.sendSync _origin channel opcode payload) s)

/-- `SEND_DEFERRED(channel, opcode, payload)` (R138), taken only in `Idle`, else held (R143). -/
def execSendDeferred (channel opcode : Byte) (payload : List Byte) (s : State) : Host.Outcome State Fault Refusal :=
  match s.phase with
  | .idle =>
    match Ops.append channel opcode payload s with
    | (s', r) => .next (Ops.answer s.caller r s')
  | _ => .next (Ops.hold (.sendDeferred channel opcode payload) s)

/-- `SEND_DEFERRED.h` (R139 in `Disp`, R138 in `Idle`); in `Xfer` it is held like any other command. -/
def execSendDeferredH (channel opcode : Byte) (payload : List Byte) (s : State) : Host.Outcome State Fault Refusal :=
  match s.phase with
  | .xfer => .next (Ops.hold (.sendDeferredH channel opcode payload) s)
  | _ =>
    match Ops.append channel opcode payload s with
    | (s', r) => .next (Ops.answer s.caller r s')

/-- `FLUSH_NOW()` (R140), taken only in `Idle`, else held (R143). -/
def execFlushNow (_origin : Bool) (s : State) : Host.Outcome State Fault Refusal :=
  match s.phase with
  | .idle => .next (Ops.startCycle (.client s.caller) s)
  | _ => .next (Ops.hold (.flushNow _origin) s)

/-- `IRQ_RECV()` (R141), enabled when `phase = Idle` and `irq_pending = 1`; otherwise the event stays latched or there
is none, and nothing happens (log 21). -/
def execIrqRecv (s : State) : Host.Outcome State Fault Refusal :=
  match s.phase, s.irqPending with
  | .idle, true => .next (Ops.startCycle .event { s with irqPending := false })
  | _, _ => .next s

/-- `XFER_CYCLE()` (R130) run on its own, its result returned to nobody's port; started only in `Idle`. -/
def execXferCycle (s : State) : Host.Outcome State Fault Refusal :=
  match s.phase with
  | .idle => .next (Ops.startCycle .nobody s)
  | _ => .next s

end Sys2Proof.Machine
end

