-- ==== Sys2Proof/Machine/Wire.lean ====
section
/-! DEFINITION. The wire-format rows (spec 30_encoding R70 to R75): what the parser does when it meets such a header in
`IN`. A header nothing reads is data and has no effect (log 11). -/

namespace Sys2Proof.Machine

/-- `FRAME_HEADER` (R70, R71): the test of R135 and the header checks of R113. -/
def execFrameHeader (size checksum : Word) (s : State) : Host.Outcome State Fault Refusal :=
  .next (Ops.parseHeader size checksum s)

/-- `EMPTY_FRAME_HEADER` (R110, R135): a frame with nothing to deliver. -/
def execEmptyFrameHeader (s : State) : Host.Outcome State Fault Refusal :=
  .next (Ops.parseHeader 0#16 checksumK s)

/-- `SUBPKT_HEADER` (R72): one round of the parser's loop (R114). -/
def execSubpktHeader (channel opcode : Byte) (size : Word) (s : State) : Host.Outcome State Fault Refusal :=
  Ops.parseRound channel opcode size s

/-- `SENTINEL_CHANNEL` (R75, R115): the parse ends without a diagnostic. -/
def execSentinelChannel (opcode : Byte) (size : Word) (s : State) : Host.Outcome State Fault Refusal :=
  Ops.parseRound 0#8 opcode size s

/-- `SENTINEL_SIZE` (R75, R115): the parse ends without a diagnostic. -/
def execSentinelSize (channel opcode : Byte) (s : State) : Host.Outcome State Fault Refusal :=
  Ops.parseRound channel opcode 0#16 s

end Sys2Proof.Machine
end

