-- ==== Sys2Proof/Machine/Dispatch.lean ====
section
/-! DEFINITION. One arm per constructor of `Instr`: each is one direct call of its meaning. -/

namespace Sys2Proof.Machine

def exec (i : Instr) (s : State) : Host.Outcome State Fault Refusal :=
  match i with
  -- commands
  | .sendSync origin channel opcode payload => Sys2Proof.Machine.execSendSync origin channel opcode payload s
  | .sendDeferred channel opcode payload => Sys2Proof.Machine.execSendDeferred channel opcode payload s
  | .sendDeferredH channel opcode payload => Sys2Proof.Machine.execSendDeferredH channel opcode payload s
  | .flushNow origin => Sys2Proof.Machine.execFlushNow origin s
  | .register origin channel handler context => Sys2Proof.Machine.execRegister origin channel handler context s
  | .unregister origin channel => Sys2Proof.Machine.execUnregister origin channel s
  | .setDebugTap origin handler context => Sys2Proof.Machine.execSetDebugTap origin handler context s
  | .clearDebugTap origin => Sys2Proof.Machine.execClearDebugTap origin s
  -- the event
  | .irqRecv => Sys2Proof.Machine.execIrqRecv s
  -- internal primitives
  | .encode channel opcode payload => Sys2Proof.Machine.execEncode channel opcode payload s
  | .decode b pos rem => Sys2Proof.Machine.execDecode b pos rem s
  | .fbReset b => Sys2Proof.Machine.execFbReset b s
  | .fbAppend channel opcode payload => Sys2Proof.Machine.execFbAppend channel opcode payload s
  | .fbParse b => Sys2Proof.Machine.execFbParse b s
  | .xferCycle => Sys2Proof.Machine.execXferCycle s
  | .dispatch pv => Sys2Proof.Machine.execDispatch pv s
  | .tapForward => Sys2Proof.Machine.execTapForward s
  -- wire formats
  | .frameHeader size checksum => Sys2Proof.Machine.execFrameHeader size checksum s
  | .emptyFrameHeader => Sys2Proof.Machine.execEmptyFrameHeader s
  | .subpktHeader channel opcode size => Sys2Proof.Machine.execSubpktHeader channel opcode size s
  | .sentinelChannel opcode size => Sys2Proof.Machine.execSentinelChannel opcode size s
  | .sentinelSize channel opcode => Sys2Proof.Machine.execSentinelSize channel opcode s
  -- reserved command codes and port records
  | .reservedCmd code => Sys2Proof.Machine.execReservedCmd code s
  | .resultOk => Sys2Proof.Machine.execResultOk s
  | .resultNoSpace => Sys2Proof.Machine.execResultNoSpace s
  | .resultInvalidChannel => Sys2Proof.Machine.execResultInvalidChannel s
  | .resultTransportError => Sys2Proof.Machine.execResultTransportError s
  | .diagInvalidChecksum a b => Sys2Proof.Machine.execDiagInvalidChecksum a b s
  | .diagMalformedSubPacket a b => Sys2Proof.Machine.execDiagMalformedSubPacket a b s
  | .diagOversizedPayload a b => Sys2Proof.Machine.execDiagOversizedPayload a b s
  | .diagFrameSizeOverrun a b => Sys2Proof.Machine.execDiagFrameSizeOverrun a b s
  | .diagTransportError a b => Sys2Proof.Machine.execDiagTransportError a b s

end Sys2Proof.Machine
end

