-- ==== Sys2Proof/Machine/Engine.lean ====
section
/-! DEFINITION. What one step is made of: which operation the engine runs next (from the command port, the event, or the
inbound frame), the arbitration of R190, the moves of the environment (R10), and where a table word is placed so that
the next step fetches it. -/

namespace Sys2Proof.Machine

/-! ## What the engine may do -/

/-- The places of the held commands that may be taken in this phase (R143, R139). -/
def Engine.takeablePlaces (s : State) : List Nat :=
  (List.range s.held.length).filter (fun k => (s.held[k]?).any (takeable s.phase))

/-- Whether the engine has something of its own to do: in `Idle` the pending event (R141), in `Disp` the cycle in
progress, unless a handler or the tap is in service (R166), or a handler's deferred send is still at the command port:
that one belongs inside this cycle (R59, R139), so it is taken before the cycle goes on or ends. In `Xfer` the engine
waits for the link (R131). -/
def Engine.ownChoices (s : State) : List Choice :=
  match s.phase with
  | .idle => if s.irqPending then [.event] else []
  | .xfer => []
  | .disp => if s.serv = none ∧ Engine.takeablePlaces s = [] then [.proceed] else []

/-- Everything the engine may do next (R190). -/
def Engine.choices (s : State) : List Choice :=
  (Engine.takeablePlaces s).map .command ++ Engine.ownChoices s

/-- Any one of them, named by a number (R190; log 3). -/
def Engine.pick (k : Nat) (cs : List Choice) : Option Choice := cs[k % cs.length]?

/-! ## The engine's moves -/

/-- Takes the held command at a place: its record leaves the port, is decoded, and runs with its caller's tag. -/
def Engine.take (idx : Nat) (s : State) : Host.Outcome State Fault Refusal :=
  match s.held[idx]? with
  | none => .next s
  | some h =>
    match decodeCommand s.cfg h.record with
    | .ok i => exec i { s with held := s.held.eraseIdx idx, caller := h.caller }
    | .error e => .refused (.notACommand e)

/-- The operation the cycle in progress fetches: the tap, or the frame header, from the start of `IN` (R134, R135,
R113); then the dispatch of the view just yielded (R114, R160), or the next sub-packet header at the cursor (R114).
`none` when there is no such operation: the loop test or the header fit fails, or the parse has ended. -/
def Engine.fetchInbound (s : State) : Option Instr :=
  match s.parse with
  | .notBegun =>
    if s.tap.valid then some .tapForward
    else some (decodeFrameHeader (s.inb.read 0) (s.inb.read 1) (s.inb.read 2) (s.inb.read 3))
  | .running cur =>
    match s.pv with
    | some v => some (.dispatch v)
    | none =>
      if cur.rem < 4 then none
      else
        some (decodeSubHeader (s.inb.read cur.pos) (s.inb.read (cur.pos + 1)) (s.inb.read (cur.pos + 2))
          (s.inb.read (cur.pos + 3)))
  | .ended => none

/-- Whether the next fetch reads `IN` beyond its last byte. -/
def Engine.fetchOutside (s : State) : Bool :=
  match s.parse, s.pv with
  | .running cur, none => decide (4 ≤ cur.rem) && decide (s.cfg.n < cur.pos + 4)
  | _, _ => false

/-- Goes on with the cycle in progress: runs the operation fetched; with none, the parse ends (R114: the loop test, or
a header that does not fit), and after the parse step X4 ends the cycle with `Ok` (R136). -/
def Engine.proceed (s : State) : Host.Outcome State Fault Refusal :=
  if Engine.fetchOutside s then .fault .outsideBuffer
  else
    match Engine.fetchInbound s with
    | some i => exec i s
    | none =>
      match s.parse with
      | .running _ => Ops.parseRound 0#8 0#8 0#16 s
      | _ => .next (Ops.endCycle .ok s)

/-- One move of the engine: an internal primitive asked for on its own comes first (log 10); then one of the choices;
with none the engine waits, and nothing changes (log 4). -/
def Engine.move (k : Nat) (s : State) : Host.Outcome State Fault Refusal :=
  match s.internal with
  | i :: is => exec i { s with internal := is }
  | [] =>
    match Engine.pick k (Engine.choices s) with
    | none => .next s
    | some (.command idx) => Engine.take idx s
    | some .event => exec .irqRecv s
    | some .proceed => Engine.proceed s

/-! ## The environment's moves -/

/-- One move, of the engine or of the environment (R10). -/
def Engine.apply (m : Move) (s : State) : Host.Outcome State Fault Refusal :=
  match m with
  | .engine k => Engine.move k s
  | .issue h => .next { s with held := s.held ++ [h] }
  | .edge => .next { s with irqPending := true }
  | .link answer => .next (Ops.linkAnswer answer s)
  | .done => .next (Ops.handlerDone s)

/-- One step: the next move of the script; with none left the engine moves, with its first choice (log 3). -/
def Engine.run (s : State) : Host.Outcome State Fault Refusal :=
  match s.script with
  | [] => Engine.move 0 s
  | m :: rest => Engine.apply m { s with script := rest }

/-! ## Placing a table word -/

/-- The state in which the very next step fetches the given bytes at the given port and runs the operation they stand
for (log 14, log 23). The engine is made to move next and to find nothing else to do first. -/
def Engine.place (port : Port) (bs : List Byte) (s : State) : State :=
  let s := { s with script := .engine 0 :: s.script }
  match port with
  | .command => { s with internal := [], phase := .idle, held := ⟨s.caller, bs, false⟩ :: s.held }
  | .frame =>
    { s with internal := [], phase := .disp, held := [], tap := ⟨false, 0, 0⟩, serv := none, pv := none,
             parse := .notBegun, inb := Memory.load bs }
  | .subPacket =>
    { s with internal := [], phase := .disp, held := [], tap := ⟨false, 0, 0⟩, serv := none, pv := none,
             parse := .running ⟨s.cfg.cap, 4, s.cfg.cap⟩, inb := Memory.writeBytes [] 4 bs }
  | port =>
    match decodeOn s.cfg port bs with
    | .ok i => { s with internal := i :: s.internal }
    | .error _ => s

end Sys2Proof.Machine
end

