-- ==== Sys2Proof/Machine/Step.lean ====
section
/-! DEFINITION. The step function, and the state in which the next step runs a given table word. -/

namespace Sys2Proof.Machine

/-- One step of the machine (Machine/Engine.lean). -/
def step (s : State) : Host.Outcome State Fault Refusal := Engine.run s

/-- `s` with the word of an opcode-table row placed where the next step fetches it (log 14, log 23). -/
def State.withFetchWord (s : State) (nbits w : Nat) : State :=
  Engine.place (readTableWord s.cfg nbits w).1 (readTableWord s.cfg nbits w).2 s

end Sys2Proof.Machine
end

