-- ==== Sys2Proof/Safety.lean ====
section
/-! DEFINITION. The terms claims are stated in: the invariants of the accumulator (spec 10_state R22) and of the whole
state (R20 to R31), the messages a parser delivers (R117), and the deadlock of R230. -/

namespace Sys2Proof.Machine

/-- The bytes of the empty frame, `00 00 55 55 00 ...`, written out from R110. -/
def emptyFrameByte (off : Nat) : Byte := [0x00#8, 0x00#8, 0x55#8, 0x55#8].getD off 0x00#8

/-- A sub-packet as a client asks for it: channel, opcode, payload. -/
structure Message where
  channel : Byte
  opcode : Byte
  payload : List Byte
  deriving DecidableEq, Repr

/-- Its wire image (R100). -/
def Message.wire (m : Message) : List Byte := subPacketBytes m.channel m.opcode m.payload

/-- The wire images of messages, back to back (R70, R111). -/
def chainOf (ms : List Message) : List Byte := (ms.map Message.wire).flatten

/-- A real message: `channel != 0` and a payload of at least one byte (R117 (a), 90_conflicts C8). -/
abbrev Message.Real (m : Message) : Prop := m.channel ≠ 0#8 ∧ 1 ≤ m.payload.length

/-- The view a parser yields for it (R31). -/
def Message.toView (m : Message) : PacketView := ⟨m.channel, m.opcode, BitVec.ofNat 16 m.payload.length, m.payload⟩

/-- The invariants I1 to I4 of R22, and the canonical form of the buffer. -/
structure FrameInv (c : Config) (m : Memory) : Prop where
  canonical : m.wf c.n = true
  /-- I1 -/
  checksum : m.frameChecksum = checksumOf m.frameSize
  /-- I2 -/
  size_le : m.frameSize.toNat ≤ c.cap
  /-- I3 -/
  tail : ∀ off, 4 + m.frameSize.toNat ≤ off → m.read off = 0#8
  /-- I4 -/
  chain : ∃ ms : List Message, m.content = chainOf ms

/-- The invariants of the whole state. -/
structure Inv (s : State) : Prop where
  /-- R6 -/
  legal : s.cfg.Legal
  /-- R22 -/
  out : FrameInv s.cfg s.outb
  inCanonical : s.inb.wf s.cfg.n = true
  /-- R26: `NCH` entries, each within its widths. -/
  tableSize : s.dt.length = s.cfg.nch
  tableWidth : ∀ e ∈ s.dt, e.handler < 2 ^ s.cfg.handlerW ∧ e.context < 2 ^ s.cfg.ctxW
  /-- R27: `valid` is `handler != 0`. -/
  tapValid : s.tap.valid = decide (s.tap.handler ≠ 0)
  tapWidth : s.tap.handler < 2 ^ s.cfg.handlerW ∧ s.tap.context < 2 ^ s.cfg.ctxW
  /-- R20, R23: outside `Disp` nothing transient is live and `IN` is the empty frame. -/
  quiet : s.phase ≠ .disp → s.inb = [] ∧ s.parse = .notBegun ∧ s.pv = none ∧ s.serv = none
  noStarter : s.phase = .idle → s.starter = .nobody
  /-- R25: `lim <= CAP`, `pos = 4 + (lim - rem)`; and no parse runs while a tap is installed (R134). -/
  cursor : ∀ cur, s.parse = .running cur →
    cur.lim ≤ s.cfg.cap ∧ 4 ≤ cur.pos ∧ (cur.pos : Int) + cur.rem = 4 + cur.lim ∧ s.tap.valid = false
  /-- R31: a live view belongs to a running parse. -/
  view : ∀ v, s.pv = some v → v.Ok s.cfg ∧ ∃ cur, s.parse = .running cur
  /-- R166: a handler in service has its view. -/
  handlerView : ∀ h x, s.serv = some (.handler h x) → ∃ v, s.pv = some v
  /-- R167: the tap in service has the frame before any parse. -/
  tapFrame : ∀ h x, s.serv = some (.tap h x) → s.parse = .notBegun ∧ s.pv = none
  /-- The engine's own flow asks for no primitive on its own (log 10). -/
  noInternal : s.internal = []

/-- The deadlock of R230: a handler (or the tap handler) in service waits for a command of its own that cannot be taken
before the cycle ends. -/
structure Deadlocked (s : State) : Prop where
  inCycle : s.phase = .disp
  inService : s.serv ≠ none
  waits : ∃ h ∈ s.held, h.awaited = true ∧ isHandlerSend h = false
  noInternal : s.internal = []

/-- The diagnostic stream (R183): the diagnostic records among what the block has presented. -/
def diagStream (s : State) : List DiagRec :=
  s.trace.filterMap (fun r => match r with | .diag d => some d | _ => none)

/-- A dispatch record within the bounds of R83: handler and context within their widths, the handler bound. -/
def dispatchInBounds (c : Config) (r : PortRec) : Prop :=
  match r with
  | .dispatch h x v =>
    h ≠ 0 ∧ h < 2 ^ c.handlerW ∧ x < 2 ^ c.ctxW ∧ 1 ≤ v.channel.toNat ∧ v.channel.toNat < c.nch ∧ v.plen.toNat = v.payload.length ∧
      1 ≤ v.payload.length ∧ v.payload.length ≤ c.pmax
  | _ => True

/-- The dispatch records among what the block has presented, oldest first (R83). -/
def dispatchStream (s : State) : List PortRec :=
  s.trace.filter (fun r => match r with | .dispatch _ _ _ => true | _ => false)

/-- The link requests among what the block has presented, oldest first (R131, R196). -/
def linkStream (s : State) : List PortRec :=
  s.trace.filter (fun r => match r with | .linkRequest _ => true | _ => false)

/-- The results among what the block has presented, oldest first (R180). -/
def resultStream (s : State) : List PortRec :=
  s.trace.filter (fun r => match r with | .result _ _ => true | _ => false)

/-- The invocations a table makes of a sequence of views (R160, R161): one for each view whose channel has a bound
handler, in order. -/
def deliveries (s : State) (vs : List PacketView) : List PortRec :=
  vs.filterMap (fun v =>
    if (Ops.entry s v.channel).handler = 0 then none
    else some (.dispatch (Ops.entry s v.channel).handler (Ops.entry s v.channel).context v))

/-- `FB_APPEND` of several messages, one after another. -/
def appendAll (ms : List Message) (s : State) : State :=
  ms.foldl (fun s m => (Ops.append m.channel m.opcode m.payload s).1) s

/-- A command that a phase other than `Idle` does not let in (R143): held and not a handler's deferred send. -/
abbrev LockedOut (h : Held) : Prop := isHandlerSend h = false

end Sys2Proof.Machine
end

