-- ==== Sys2Proof/Certificates/Slice0/Obligations.lean ====
section
/-! DEFINITION. The statements for the provers. Each says which rule of spec/ it formalises. A frame is written as a
record equation: every field that the record does not name is unchanged. -/

open Sys2Proof Sys2Proof.Machine

/-! ## Reset, invariants, safety -/

/-- R35: the values after reset, for every parameters; the machine's reset is that of the default parameters (R5). -/
def Obligations.ResetLeavesTheSpecValues : Prop :=
  State.reset = State.resetWith ⟨256, 16, 8, 32⟩ ∧
  ∀ (c : Config) (s : State), s = State.resetWith c → s.cfg = c ∧
    (∀ off, off < c.n → s.outb.read off = emptyFrameByte off) ∧
    (∀ off, off < c.n → s.inb.read off = emptyFrameByte off) ∧
    s.dt.length = c.nch ∧ (∀ e ∈ s.dt, e = ⟨0, 0⟩) ∧
    s.tap = ⟨false, 0, 0⟩ ∧ s.phase = .idle ∧ s.irqPending = false ∧
    s.parse = .notBegun ∧ s.pv = none ∧ diagStream s = [] ∧ s.held = []

/-- R22 "true after reset", with the invariants of R20 to R31: they hold at reset for every legal parameters. The
clauses about `starter`, `serv` and `internal` concern the model's own fields (log 2, log 10). -/
def Obligations.InvariantHoldsAtReset : Prop :=
  ∀ c : Config, c.Legal → Inv (State.resetWith c)

/-- R22 "and after every operation of the block", R25, R26, R27, R31: every step keeps the invariants. -/
def Obligations.EveryStepKeepsTheInvariant : Prop :=
  ∀ s s' : State, Inv s → step s = .next s' → Inv s'

/-- R11, R184: nothing is fatal. Where the invariants hold and every held record is a command that is not reserved, a
step has a next state. -/
def Obligations.NoOperationIsFatal : Prop :=
  ∀ s : State, Inv s →
    (∀ h ∈ s.held, ∃ i, decodeCommand s.cfg h.record = .ok i ∧ ∀ code, i ≠ .reservedCmd code) →
    ∃ s', step s = .next s'

/-- R183: no rule reads the diagnostic stream (nor the other records presented, log 8): a step only adds to it, and
does the same whatever stands in it. -/
def Obligations.PresentedRecordsAreNeverRead : Prop :=
  ∀ s s' : State, step s = .next s' → ∃ added : List PortRec, s'.trace = s.trace ++ added ∧ s'.cfg = s.cfg ∧
    ∀ tr : List PortRec, step { s with trace := tr } = .next { s' with trace := tr ++ added }

/-! ## Encodings -/

/-- R70, R72, R75, R77 to R82: on its port, the bytes of every well-formed operation decode to it. -/
def Obligations.DecodeOfEncodeIsTheOperation : Prop :=
  ∀ (c : Config) (i : Instr), i.wf c = true → i.port ≠ .none → decodeOn c i.port (encode c i) = .ok i

/-- R77, R78: a record that decodes is a well-formed command, and (but for a reserved code) its bytes are exactly that
command's. -/
def Obligations.DecodedRecordsAreTheirCommand : Prop :=
  ∀ (c : Config) (bs : List Byte) (i : Instr), decodeCommand c bs = .ok i →
    i.wf c = true ∧ i.port = .command ∧ ((∀ code, i ≠ .reservedCmd code) → encode c i = bs)

/-- R77, R78, R70, R72: words written out from the spec's tables (95_test_vectors V57, V1, V2). -/
def Obligations.WrittenOutRecordsDecode : Prop :=
  decodeCommand .default [0x01#8, 0x03#8, 0x07#8, 0x01#8, 0x00#8, 0xAA#8] = .ok (.sendSync false 3#8 7#8 [0xAA#8]) ∧
  decodeCommand .default [0x82#8, 0x03#8, 0x08#8, 0x01#8, 0x00#8, 0x01#8] = .ok (.sendDeferredH 3#8 8#8 [0x01#8]) ∧
  decodeCommand .default [0x04#8, 0x03#8, 0x09#8, 0x11#8, 0x00#8, 0x00#8, 0x00#8] = .ok (.register false 3#8 9 0x11) ∧
  decodeCommand .default [0x06#8, 0x07#8, 0x77#8, 0x00#8, 0x00#8, 0x00#8] = .ok (.setDebugTap false 7 0x77) ∧
  decodeFrameHeader 0x05#8 0x00#8 0x50#8 0x55#8 = .frameHeader 5#16 0x5550#16 ∧
  decodeSubHeader 0x03#8 0x07#8 0x01#8 0x00#8 = .subpktHeader 3#8 7#8 1#16 ∧
  decodeDiag [0x10#8, 0x05#8, 0x00#8, 0x51#8, 0x55#8] = .ok (.diagInvalidChecksum 5#16 0x5551#16)

/-- R80: a record with a reserved op is read as a reserved command, and the machine refuses it in every state. -/
def Obligations.ReservedCodesAreRefused : Prop :=
  ∀ (c : Config) (code : Byte) (rest : List Byte) (s : State), code.toNat % 128 = 0 ∨ 8 ≤ code.toNat % 128 →
    decodeCommand c (code :: rest) = .ok (.reservedCmd code) ∧
      exec (.reservedCmd code) s = .refused (.reservedCommand code)

/-- R78: "a record whose byte count disagrees with `len` is not a command". -/
def Obligations.SendRecordMustMatchItsLength : Prop :=
  ∀ (c : Config) (code ch op l0 l1 : Byte) (payload : List Byte) (i : Instr),
    code.toNat % 128 = 1 ∨ code.toNat % 128 = 2 → payload.length ≠ l0.toNat + 256 * l1.toNat →
    decodeCommand c (code :: ch :: op :: l0 :: l1 :: payload) ≠ .ok i

/-- R75, R72: which of the three header rows four bytes are. -/
def Obligations.SubPacketHeadersAreClassified : Prop :=
  ∀ b0 b1 b2 b3 : Byte, ∃ size : Word, size.toNat = b2.toNat + 256 * b3.toNat ∧
    (b0 = 0#8 → decodeSubHeader b0 b1 b2 b3 = .sentinelChannel b1 size) ∧
    (b0 ≠ 0#8 → b2 = 0#8 ∧ b3 = 0#8 → decodeSubHeader b0 b1 b2 b3 = .sentinelSize b0 b1) ∧
    (b0 ≠ 0#8 → ¬ (b2 = 0#8 ∧ b3 = 0#8) → decodeSubHeader b0 b1 b2 b3 = .subpktHeader b0 b1 size)

/-- R71: validity is `checksum = size XOR 0x5555`; exactly one checksum is valid for a size; a corrupted size with an
uncorrupted checksum is caught; a corruption of both that keeps their XOR is not. -/
def Obligations.ChecksumCatchesACorruptedSize : Prop :=
  (∀ size checksum : Word, checksumValid size checksum = true ↔ checksum = size ^^^ 0x5555#16) ∧
  (∀ size : Word, ∃! checksum : Word, checksumValid size checksum = true) ∧
  (∀ size size' checksum : Word, checksumValid size checksum = true → size' ≠ size →
    checksumValid size' checksum = false) ∧
  (∀ size' checksum' : Word, size' ^^^ checksum' = 0x5555#16 → checksumValid size' checksum' = true)

/-! ## The codec -/

/-- R100: what `ENCODE` returns; it writes no state. Beyond the precondition `L <= PMAX` the bytes are the model's choice
(log 19). -/
def Obligations.EncodeReturnsTheWireImage : Prop :=
  ∀ (ch op : Byte) (p : List Byte) (s : State),
    exec (.encode ch op p) s = .next { s with
      ret := .bytes ([ch, op, BitVec.ofNat 8 p.length, BitVec.ofNat 8 (p.length / 256)] ++ p) }

/-- R101: `ENCODE` is injective and self-delimiting, whatever follows. -/
def Obligations.EncodeIsSelfDelimiting : Prop :=
  ∀ (a b : Message) (r r' : List Byte), a.payload.length ≤ 65535 → b.payload.length ≤ 65535 →
    a.wire ++ r = b.wire ++ r' → a = b ∧ r = r'

/-- R103: the round trip of the codec, without a diagnostic. -/
def Obligations.DecodeOfEncodedSubPacket : Prop :=
  ∀ (s : State) (b : Buf) (pos rem : Nat) (m : Message), s.cfg.Legal → m.Real → m.payload.length ≤ s.cfg.pmax →
    4 + m.payload.length ≤ rem → pos + rem ≤ s.cfg.n →
    (Ops.buffer b s).slice pos (4 + m.payload.length) = m.wire →
    exec (.decode b pos rem) s = .next { s with ret := .view m.toView (4 + m.payload.length) }

/-- R102: the tests of `DECODE` in their order, and what it answers and raises; it writes no state. That the precondition
`4 <= pos` is not tested is the model's choice (log 19), and so is the operand for an offset above 65535 (log 15). -/
def Obligations.DecodeAnswersInTheOrderOfItsTests : Prop :=
  ∀ (s : State) (b : Buf) (pos rem : Nat), s.cfg.Legal → 1 ≤ rem → pos + rem ≤ s.cfg.n →
    let m := Ops.buffer b s
    let ps := (m.read (pos + 2)).toNat + 256 * (m.read (pos + 3)).toNat
    let pl := if s.cfg.n - 8 < ps then s.cfg.n - 8 else ps
    let raised := if s.cfg.n - 8 < ps
      then [PortRec.diag ⟨.oversizedPayload, diagPos pos, BitVec.ofNat 16 ps⟩] else []
    (rem < 4 → exec (.decode b pos rem) s = .next { s with ret := .malformed }) ∧
    (4 ≤ rem → m.read pos = 0#8 ∨ ps = 0 → exec (.decode b pos rem) s = .next { s with ret := .sentinel }) ∧
    (4 ≤ rem → m.read pos ≠ 0#8 → ps ≠ 0 → rem < 4 + pl →
      exec (.decode b pos rem) s = .next { s with ret := .malformed, trace := s.trace ++ raised }) ∧
    (4 ≤ rem → m.read pos ≠ 0#8 → ps ≠ 0 → 4 + pl ≤ rem →
      exec (.decode b pos rem) s = .next { s with
        ret := .view ⟨m.read pos, m.read (pos + 1), BitVec.ofNat 16 pl, m.slice (pos + 4) pl⟩ (4 + ps),
        trace := s.trace ++ raised })

/-- R8, R30 and the precondition of R102 (log 19): a slice whose header, or whose taken payload, lies outside the buffer
faults. -/
def Obligations.DecodeOutsideTheBufferFaults : Prop :=
  ∀ (s : State) (b : Buf) (pos rem : Nat), 4 ≤ rem →
    (s.cfg.n < pos + 4 → exec (.decode b pos rem) s = .fault .outsideBuffer) ∧
    (pos + 4 ≤ s.cfg.n → (Ops.buffer b s).read pos ≠ 0#8 → ∀ ps : Word, ps = (Ops.buffer b s).read16 (pos + 2) →
      ps ≠ 0#16 → 4 + min ps.toNat s.cfg.pmax ≤ rem → s.cfg.n < pos + 4 + min ps.toNat s.cfg.pmax →
      exec (.decode b pos rem) s = .fault .outsideBuffer)

/-- R102 (f): `DECODE` depends on no byte outside its slice: in two states whose buffers agree on the slice it stops
alike (log 19), or answers the same and raises the same records, and changes nothing else. -/
def Obligations.DecodeReadsOnlyItsSlice : Prop :=
  ∀ (s s' : State) (b b' : Buf) (pos rem : Nat), s.cfg = s'.cfg →
    (∀ o, pos ≤ o → o < pos + rem → (Ops.buffer b s).read o = (Ops.buffer b' s').read o) →
    (exec (.decode b pos rem) s = .fault .outsideBuffer ∧ exec (.decode b' pos rem) s' = .fault .outsideBuffer) ∨
    ∃ (r : Ret) (ds : List DiagRec),
      exec (.decode b pos rem) s = .next { s with ret := r, trace := s.trace ++ ds.map .diag } ∧
      exec (.decode b' pos rem) s' = .next { s' with ret := r, trace := s'.trace ++ ds.map .diag }

/-! ## The frame buffer -/

/-- R110: `FB_RESET` leaves the empty frame in its buffer and touches nothing else; of an empty frame it changes
nothing. -/
def Obligations.FrameResetLeavesTheEmptyFrame : Prop :=
  ∀ s : State,
    (∃ t, exec (.fbReset .out) s = .next t ∧ t = { s with outb := t.outb } ∧ t.outb.wf s.cfg.n = true ∧
      (∀ off, off < s.cfg.n → t.outb.read off = emptyFrameByte off) ∧
      (s.outb.wf s.cfg.n = true → (∀ off, off < s.cfg.n → s.outb.read off = emptyFrameByte off) → t = s)) ∧
    (∃ t, exec (.fbReset .inp) s = .next t ∧ t = { s with inb := t.inb } ∧ t.inb.wf s.cfg.n = true ∧
      (∀ off, off < s.cfg.n → t.inb.read off = emptyFrameByte off) ∧
      (s.inb.wf s.cfg.n = true → (∀ off, off < s.cfg.n → s.inb.read off = emptyFrameByte off) → t = s))

/-- R111, R112 (a): an append that fits writes the encoded sub-packet at the fill offset and brings `size` and
`checksum` up to date; every other byte of `OUT`, and everything else, is unchanged. -/
def Obligations.AppendWritesAtTheFillOffset : Prop :=
  ∀ (s : State) (ch op : Byte) (p : List Byte), s.cfg.Legal → s.outb.wf s.cfg.n = true →
    s.outb.frameSize.toNat + (4 + p.length) ≤ s.cfg.n - 4 →
    ∃ t, exec (.fbAppend ch op p) s = .next t ∧ t = { s with outb := t.outb, ret := .status .ok } ∧
      t.outb.wf s.cfg.n = true ∧
      t.outb.frameSize.toNat = s.outb.frameSize.toNat + (4 + p.length) ∧
      t.outb.frameChecksum = t.outb.frameSize ^^^ 0x5555#16 ∧
      (∀ i, i < 4 + p.length →
        t.outb.read (4 + s.outb.frameSize.toNat + i) = (subPacketBytes ch op p).getD i 0#8) ∧
      (∀ off, 4 ≤ off → off < 4 + s.outb.frameSize.toNat ∨ 4 + s.outb.frameSize.toNat + (4 + p.length) ≤ off →
        t.outb.read off = s.outb.read off)

/-- R111, R112 (b), (d), (h), R118: an append that does not fit fails with `NoSpace` and changes nothing, for every
payload length, without wrap-around. -/
def Obligations.AppendThatDoesNotFitChangesNothing : Prop :=
  ∀ (s : State) (ch op : Byte) (p : List Byte), (s.cfg.n : Int) - 4 - s.outb.frameSize.toNat < 4 + p.length →
    exec (.fbAppend ch op p) s = .next { s with ret := .status .noSpace }

/-- R22, R112 (i): a successful append keeps I1 to I4, and the content grows by exactly the encoded sub-packet. -/
def Obligations.AppendKeepsTheFrameInvariants : Prop :=
  ∀ (c : Config) (m : Memory) (ch op : Byte) (p : List Byte), c.Legal → FrameInv c m → appendFits c m p = true →
    FrameInv c (Ops.appended m ch op p) ∧
      (Ops.appended m ch op p).content = m.content ++ subPacketBytes ch op p

/-- R117 (a), (g): what was appended to an empty accumulator is what the parser yields, in order, with no diagnostic. -/
def Obligations.ParseYieldsWhatWasAppended : Prop :=
  ∀ (s : State) (ms : List Message), s.cfg.Legal → s.outb = [] → (∀ m ∈ ms, m.Real) →
    (chainOf ms).length ≤ s.cfg.n - 4 →
    exec (.fbParse .out) (appendAll ms s) =
      .next { appendAll ms s with ret := .views (ms.map Message.toView) }

/-- R115: a sentinel (by channel or by size) cuts the yielded sequence at its place, whatever follows it inside the
frame, and raises no diagnostic: the only one is that of a declared frame size beyond `CAP` (R113), when there is one. -/
def Obligations.SentinelCutsTheParse : Prop :=
  ∀ (s : State) (b : Buf) (ms : List Message) (h0 h1 h2 h3 : Byte) (rest : List Byte) (size : Word), s.cfg.Legal →
    size = (Ops.buffer b s).frameSize → (Ops.buffer b s).frameChecksum = size ^^^ 0x5555#16 →
    (∀ m ∈ ms, m.Real) → h0 = 0#8 ∨ (h2 = 0#8 ∧ h3 = 0#8) →
    (Ops.buffer b s).slice 4 (min size.toNat s.cfg.cap) = chainOf ms ++ ([h0, h1, h2, h3] ++ rest) →
    exec (.fbParse b) s = .next { s with
      ret := .views (ms.map Message.toView),
      trace := s.trace ++
        (if s.cfg.cap < size.toNat then [.diag ⟨.frameSizeOverrun, size, BitVec.ofNat 16 s.cfg.cap⟩] else []) }

/-- R113: a frame whose checksum is wrong is discarded wholesale, with one diagnostic. -/
def Obligations.BadChecksumDiscardsTheFrame : Prop :=
  ∀ (s : State) (b : Buf),
    (Ops.buffer b s).frameChecksum ≠ (Ops.buffer b s).frameSize ^^^ 0x5555#16 →
    exec (.fbParse b) s = .next { s with
      ret := .views [],
      trace := s.trace ++
        [.diag ⟨.invalidChecksum, (Ops.buffer b s).frameSize, (Ops.buffer b s).frameChecksum⟩] }

/-- R117 (d), (e), R31, R114 (d), R60: `FB_PARSE` always ends, writes nothing but its records, and every view it yields
is within bounds; at most `lim / 5` views. -/
def Obligations.ParseIsTotalAndBounded : Prop :=
  ∀ (s : State) (b : Buf), s.cfg.Legal → ∃ (vs : List PacketView) (ds : List DiagRec),
    exec (.fbParse b) s = .next { s with ret := .views vs, trace := s.trace ++ ds.map .diag } ∧
    (∀ v ∈ vs, v.Ok s.cfg) ∧ 5 * vs.length ≤ min (Ops.buffer b s).frameSize.toNat s.cfg.cap

/-- R57, R117 (c): `FB_PARSE` depends on no byte at an offset of `4 + min(size, CAP)` or more. -/
def Obligations.ParseReadsOnlyTheContent : Prop :=
  ∀ (c : Config) (m m' : Memory), (∀ o, o < 4 + min m.frameSize.toNat c.cap → m.read o = m'.read o) →
    Ops.parseFrame c m = Ops.parseFrame c m'

/-- R117 (f): the diagnostics of one parse, at most one of each kind, in that order; `InvalidChecksum` excludes the
others. -/
def Obligations.ParseDiagnosticsComeInOrder : Prop :=
  ∀ (c : Config) (m : Memory), c.Legal →
    (Ops.parseFrame c m).2.map (·.kind) = [.invalidChecksum] ∨
    ((Ops.parseFrame c m).2.map (·.kind)).Sublist [.frameSizeOverrun, .oversizedPayload, .malformedSubPacket]

/-- R116, R102 case (e): the first sub-packet of a full frame that declares more than `N - 8` bytes is cut to `N - 8`,
yielded, and diagnosed; it is the last. -/
def Obligations.OversizedFirstSubPacketIsTruncated : Prop :=
  ∀ (s : State) (b : Buf) (ps : Word), s.cfg.Legal →
    (Ops.buffer b s).frameChecksum = checksumOf (Ops.buffer b s).frameSize →
    (Ops.buffer b s).frameSize.toNat = s.cfg.cap → (Ops.buffer b s).read 4 ≠ 0#8 →
    ps = (Ops.buffer b s).read16 6 → s.cfg.n - 8 < ps.toNat →
    exec (.fbParse b) s = .next { s with
      ret := .views [⟨(Ops.buffer b s).read 4, (Ops.buffer b s).read 5, BitVec.ofNat 16 (s.cfg.n - 8),
        (Ops.buffer b s).slice 8 (s.cfg.n - 8)⟩],
      trace := s.trace ++ [.diag ⟨.oversizedPayload, 4#16, ps⟩] }

/-! ## The transport engine -/

/-- R130, R131, R140, R141: in `Idle`, `FLUSH_NOW`, `XFER_CYCLE` and (with an event pending) `IRQ_RECV` start a cycle:
the `N` bytes of `OUT` are presented as they stand, empty or not, and `phase` is `Xfer`. -/
def Obligations.CyclesStartByPresentingOut : Prop :=
  ∀ s : State, s.phase = .idle → ∃ frame : List Byte,
    frame.length = s.cfg.n ∧ (∀ i, i < s.cfg.n → frame.getD i 0#8 = s.outb.read i) ∧
    (∀ o, exec (.flushNow o) s = .next { s with
      phase := .xfer, starter := .client s.caller, parse := .notBegun, trace := s.trace ++ [.linkRequest frame] }) ∧
    exec .xferCycle s = .next { s with
      phase := .xfer, starter := .nobody, parse := .notBegun, trace := s.trace ++ [.linkRequest frame] } ∧
    (s.irqPending = true → exec .irqRecv s = .next { s with
      irqPending := false, phase := .xfer, starter := .event, parse := .notBegun,
      trace := s.trace ++ [.linkRequest frame] })

/-- R141 "enabled when phase = Idle and irq_pending = 1", R130 "only in phase = Idle" (log 21, log 25): otherwise
`IRQ_RECV` and `XFER_CYCLE` start nothing and change nothing. -/
def Obligations.CyclesStartOnlyInIdle : Prop :=
  ∀ s : State,
    (s.phase ≠ .idle ∨ s.irqPending = false → exec .irqRecv s = .next s) ∧
    (s.phase ≠ .idle → exec .xferCycle s = .next s)

/-- R137, R85: a `SEND_SYNC` that fits appends as `FB_APPEND` does and starts the cycle that carries the frame it
leaves in `OUT`. -/
def Obligations.SendSyncAppendsThenTransfers : Prop :=
  ∀ (s : State) (o : Bool) (ch op : Byte) (p : List Byte), s.phase = .idle →
    s.outb.frameSize.toNat + (4 + p.length) ≤ s.cfg.n - 4 →
    ∃ (m : Memory) (frame : List Byte),
      exec (.fbAppend ch op p) s = .next { s with outb := m, ret := .status .ok } ∧
      frame.length = s.cfg.n ∧ (∀ i, i < s.cfg.n → frame.getD i 0#8 = m.read i) ∧
      exec (.sendSync o ch op p) s = .next { s with
        outb := m, phase := .xfer, starter := .client s.caller, parse := .notBegun,
        trace := s.trace ++ [.linkRequest frame] }

/-- R137, R138, R139, R181: a send that does not fit, taken in a phase that takes it, returns `NoSpace` to its caller
and changes nothing else: no exchange, no phase change. -/
def Obligations.SendWithoutSpaceOnlyReports : Prop :=
  ∀ (s : State) (ch op : Byte) (p : List Byte), (s.cfg.n : Int) - 4 - s.outb.frameSize.toNat < 4 + p.length →
    (s.phase = .idle → ∀ o, exec (.sendSync o ch op p) s =
      .next { s with trace := s.trace ++ [.result s.caller .noSpace] }) ∧
    (s.phase = .idle → exec (.sendDeferred ch op p) s =
      .next { s with trace := s.trace ++ [.result s.caller .noSpace] }) ∧
    (s.phase ≠ .xfer → exec (.sendDeferredH ch op p) s =
      .next { s with trace := s.trace ++ [.result s.caller .noSpace] })

/-- R138, R139: a deferred send that fits, a client's in `Idle`, a handler's in `Disp` or `Idle`, appends as
`FB_APPEND` does, answers `Ok`, and changes nothing else: no exchange, no phase change. -/
def Obligations.DeferredSendOnlyAppends : Prop :=
  ∀ (s : State) (ch op : Byte) (p : List Byte), s.outb.frameSize.toNat + (4 + p.length) ≤ s.cfg.n - 4 →
    ∃ m : Memory, exec (.fbAppend ch op p) s = .next { s with outb := m, ret := .status .ok } ∧
      (s.phase = .idle → exec (.sendDeferred ch op p) s =
        .next { s with outb := m, trace := s.trace ++ [.result s.caller .ok] }) ∧
      (s.phase ≠ .xfer → exec (.sendDeferredH ch op p) s =
        .next { s with outb := m, trace := s.trace ++ [.result s.caller .ok] })

/-- R143, R139: a command issued while the lock is held waits at the command port, and nothing else happens. That it
stands there behind the others, under its caller's tag, is the model's choice (log 7, log 13). -/
def Obligations.CommandsOutsideIdleAreHeld : Prop :=
  ∀ (s : State) (o : Bool) (ch op : Byte) (p : List Byte) (h x : Nat),
    (s.phase ≠ .idle → ∀ i ∈ [Instr.sendSync o ch op p, .sendDeferred ch op p, .flushNow o, .register o ch h x,
        .unregister o ch, .setDebugTap o h x, .clearDebugTap o],
      exec i s = .next { s with held := s.held ++ [⟨s.caller, encode s.cfg i, false⟩] }) ∧
    (s.phase = .xfer → exec (.sendDeferredH ch op p) s =
      .next { s with held := s.held ++ [⟨s.caller, encode s.cfg (.sendDeferredH ch op p), false⟩] })

/-- R132, R141, R181: the link answers `Err`: both buffers are emptied, `phase` is `Idle`, no tap and no handler sees
anything, and `TransportError` goes to the caller, or to the diagnostic stream for the event. Where the value goes when
`XFER_CYCLE` was run on its own is the model's choice (log 6, log 9). -/
def Obligations.FailedExchangeDropsTheFrame : Prop :=
  ∀ (s : State) (rest : List Move), s.phase = .xfer → s.script = .link none :: rest →
    ∃ t, step s = .next t ∧
      t = { s with script := rest, outb := [], inb := [], phase := .idle, parse := .notBegun, pv := none, serv := none,
                   starter := .nobody, trace := t.trace, ret := t.ret } ∧
      (∀ off, off < s.cfg.n → t.outb.read off = emptyFrameByte off ∧ t.inb.read off = emptyFrameByte off) ∧
      (∀ c, s.starter = .client c → t.ret = s.ret ∧ t.trace = s.trace ++ [.result c .transportError]) ∧
      (s.starter = .event → t.ret = s.ret ∧ t.trace = s.trace ++ [.diag ⟨.transportError, 0#16, 0#16⟩]) ∧
      (s.starter = .nobody → t.ret = .status .transportError ∧ t.trace = s.trace)

/-- R130, R133: the link answers `Ok(G)`: `OUT` is emptied at once, `IN` holds the `N` bytes of `G`, `phase` is `Disp`,
and nothing else changes. -/
def Obligations.SuccessfulExchangeTakesTheFrame : Prop :=
  ∀ (s : State) (g : List Byte) (rest : List Move), s.phase = .xfer → s.script = .link (some g) :: rest →
    g.length = s.cfg.n →
    ∃ t, step s = .next t ∧
      t = { s with script := rest, outb := t.outb, inb := t.inb, phase := .disp, parse := .notBegun, pv := none,
                   serv := none } ∧
      t.outb.wf s.cfg.n = true ∧ t.inb.wf s.cfg.n = true ∧
      (∀ off, off < s.cfg.n → t.outb.read off = emptyFrameByte off) ∧
      (∀ off, off < s.cfg.n → t.inb.read off = g.getD off 0#8)

/-- R136, R133, R139: step X4 empties `IN`, releases the lock and reports `Ok`, and leaves `OUT` as handlers left it.
Where the value goes when `XFER_CYCLE` was run on its own is the model's choice (log 6, log 9). -/
def Obligations.CycleEndKeepsHandlerAppends : Prop :=
  ∀ s : State, s.phase = .disp → s.parse = .ended → s.serv = none → s.internal = [] → s.script = [] →
    (∀ h ∈ s.held, isHandlerSend h = false) →
    ∃ t, step s = .next t ∧
      t = { s with inb := [], phase := .idle, parse := .notBegun, pv := none, starter := .nobody, trace := t.trace,
                   ret := t.ret } ∧
      (∀ c, s.starter = .client c → t.ret = s.ret ∧ t.trace = s.trace ++ [.result c .ok]) ∧
      (s.starter = .event → t.ret = s.ret ∧ t.trace = s.trace) ∧
      (s.starter = .nobody → t.ret = .status .ok ∧ t.trace = s.trace)

/-- R142, R131, R145, R59, R139: the only changes of `phase`, and what each needs; a link request is presented exactly
when `Xfer` is entered, and a cycle does not end while a handler's deferred send is at the command port. -/
def Obligations.PhaseChangesOnlyAsTheTableSays : Prop :=
  ∀ s s' : State, s.internal = [] → step s = .next s' →
    (s'.phase = s.phase ∧ linkStream s' = linkStream s) ∨
    (s.phase = .idle ∧ s'.phase = .xfer ∧ s'.trace = s.trace ++ [.linkRequest (s'.outb.slice 0 s.cfg.n)] ∧
      ((s.irqPending = true ∧ s'.irqPending = false ∧ s'.starter = .event ∧ s'.outb = s.outb) ∨
       ∃ k q i, s.held[k]? = some q ∧ decodeCommand s.cfg q.record = .ok i ∧ s'.held = s.held.eraseIdx k ∧
         s'.starter = .client q.caller ∧
         ((∃ o, i = .flushNow o ∧ s'.outb = s.outb) ∨
          ∃ o ch op p, i = .sendSync o ch op p ∧ s.outb.frameSize.toNat + (4 + p.length) ≤ s.cfg.n - 4 ∧
            s'.outb = Ops.appended s.outb ch op p))) ∨
    (s.phase = .xfer ∧ s'.phase = .disp ∧ s'.trace = s.trace ∧
      ∃ g rest, s.script = .link (some g) :: rest ∧ g.length = s.cfg.n) ∨
    (s.phase = .xfer ∧ s'.phase = .idle ∧ linkStream s' = linkStream s ∧ ∃ rest, s.script = .link none :: rest) ∨
    (s.phase = .disp ∧ s'.phase = .idle ∧ linkStream s' = linkStream s ∧ s.parse = .ended ∧ s.serv = none ∧
      s'.outb = s.outb ∧ ∀ h ∈ s.held, isHandlerSend h = false)

/-- R143, R139, R169, R63, R64: while the lock is held the command port changes only by a command issued, or, in `Disp`,
by a handler's deferred send taken off it; every other held command stays, none is lost and none doubled; `DT` and `TAP`
do not change, nor does `IN` in a step that stays in its phase. -/
def Obligations.LockedStepTakesNoClientCommand : Prop :=
  ∀ s s' : State, s.phase ≠ .idle → s.internal = [] → step s = .next s' →
    s'.dt = s.dt ∧ s'.tap = s.tap ∧ (s'.phase = s.phase → s'.inb = s.inb) ∧
    (s'.held = s.held ∨
     (∃ q rest, s.script = .issue q :: rest ∧ s'.held = s.held ++ [q]) ∨
     (s.phase = .disp ∧ s'.phase = .disp ∧
       ∃ k h, s.held[k]? = some h ∧ isHandlerSend h = true ∧ s'.held = s.held.eraseIdx k))

/-- R131, R231, R53 (c): as long as the link does not answer, the engine stays in `Xfer`, `OUT` does not change and
every held command stays held, however many steps are taken (that waiting is a step which changes nothing: log 4). -/
def Obligations.UnansweredLinkStallsTheEngine : Prop :=
  ∀ (k : Nat) (s s' : State), s.phase = .xfer → s.internal = [] → (∀ a, Move.link a ∉ s.script) →
    core.run k s = .next s' → s'.phase = .xfer ∧ s'.outb = s.outb ∧ s'.starter = s.starter ∧ s.held <+: s'.held

/-- R230: a handler that waits for a command which is not a deferred send deadlocks: however many steps are taken, the
engine stays in `Disp` with that handler in service. The mark on the command that is waited for is the model's (log 24). -/
def Obligations.ReentrantCommandDeadlocks : Prop :=
  ∀ (k : Nat) (s s' : State), Deadlocked s → core.run k s = .next s' → Deadlocked s' ∧ s'.serv = s.serv

/-- R186, R187: an edge sets `irq_pending` and nothing else, and nothing else sets it; the bit stays set until a cycle
of the event starts, which clears it; no other cycle clears it. -/
def Obligations.EdgesAreLatched : Prop :=
  (∀ (s : State) (rest : List Move), s.script = .edge :: rest →
    step s = .next { s with script := rest, irqPending := true }) ∧
  (∀ s s' : State, s.internal = [] → s.irqPending = true → step s = .next s' →
    s'.irqPending = true ∨ (s.phase = .idle ∧ s'.phase = .xfer ∧ s'.starter = .event ∧ s'.irqPending = false)) ∧
  (∀ s s' : State, s.internal = [] → s.irqPending = false → step s = .next s' → s'.irqPending = true →
    ∃ rest, s.script = .edge :: rest)

/-! ## The step -/

/-- R143, R190: in `Idle` the engine may take any held command, or the pending event: the move that names it runs
exactly the operation its record decodes to. With no move left the first held command is taken, the model's choice (log
3). R139, R59: in `Disp`, while a handler's deferred send is at the command port, wherever it stands there and whoever is
in service, every move of the engine takes such a send, ahead of the held commands of other clients and of the cycle's own
next step (log 27, log 28); the number of the move names which. -/
def Obligations.StepRunsTheCommandTaken : Prop :=
  (∀ (s : State) (k n : Nat) (h : Held) (i : Instr) (rest : List Move), s.phase = .disp → s.internal = [] →
    s.held[k]? = some h → isHandlerSend h = true → decodeCommand s.cfg h.record = .ok i →
    (s.script = .engine n :: rest → n % s.held.countP isHandlerSend = (s.held.take k).countP isHandlerSend →
      step s = exec i { s with script := rest, held := s.held.eraseIdx k, caller := h.caller }) ∧
    (s.script = [] → (∀ q ∈ s.held.take k, isHandlerSend q = false) →
      step s = exec i { s with held := s.held.eraseIdx k, caller := h.caller })) ∧
  ∀ (s : State) (k : Nat) (rest : List Move), s.phase = .idle → s.internal = [] →
    (∀ h i, s.held[k]? = some h → decodeCommand s.cfg h.record = .ok i →
      (s.script = .engine k :: rest → step s =
        exec i { s with script := rest, held := s.held.eraseIdx k, caller := h.caller }) ∧
      (k = 0 → s.script = [] → step s = exec i { s with held := s.held.eraseIdx 0, caller := h.caller })) ∧
    (k = s.held.length → s.irqPending = true → s.script = .engine k :: rest →
      step s = exec .irqRecv { s with script := rest })

/-- R134, R135, R113, R114, R160: in `Disp`, with nobody in service and no handler's send waiting, the engine runs what
the inbound frame decodes to: the tap, the frame header, the view just yielded, or the header at the cursor; where no
header is left to read, the parse ends. That each is a step of its own is the model's choice (log 6). -/
def Obligations.StepRunsTheInboundFrame : Prop :=
  ∀ s : State, s.phase = .disp → s.internal = [] → s.serv = none → s.script = [] →
    (∀ h ∈ s.held, isHandlerSend h = false) →
    (s.parse = .notBegun → s.tap.valid = true → step s = exec .tapForward s) ∧
    (s.parse = .notBegun → s.tap.valid = false → step s =
      exec (decodeFrameHeader (s.inb.read 0) (s.inb.read 1) (s.inb.read 2) (s.inb.read 3)) s) ∧
    (∀ cur v, s.parse = .running cur → s.pv = some v → step s = exec (.dispatch v) s) ∧
    (∀ cur, s.parse = .running cur → s.pv = none → 4 ≤ cur.rem → cur.pos + 4 ≤ s.cfg.n → step s =
      exec (decodeSubHeader (s.inb.read cur.pos) (s.inb.read (cur.pos + 1)) (s.inb.read (cur.pos + 2))
        (s.inb.read (cur.pos + 3))) s) ∧
    (∀ cur, s.parse = .running cur → s.pv = none → s.tap.valid = false → 1 ≤ cur.rem → cur.rem ≤ 3 → step s =
      .next { s with parse := .ended,
                     trace := s.trace ++ [.diag ⟨.malformedSubPacket, diagPos cur.pos, BitVec.ofInt 16 cur.rem⟩] }) ∧
    (∀ cur, s.parse = .running cur → s.pv = none → s.tap.valid = false → cur.rem ≤ 0 → step s = .next { s with parse := .ended })

/-- R220, R131, R166 (log 4): with nothing on its ports to act on, the engine waits and nothing changes. -/
def Obligations.EngineWaitsWithoutWork : Prop :=
  ∀ s : State, s.internal = [] → s.script = [] →
    (s.phase = .idle → s.held = [] → s.irqPending = false → step s = .next s) ∧
    (s.phase = .xfer → step s = .next s) ∧
    (s.phase = .disp → s.serv ≠ none → (∀ h ∈ s.held, isHandlerSend h = false) → step s = .next s)

/-- R166, R167, R168, R134: done ends the service and the life of the view; after the tap the parse is skipped. A done
nobody waits for changes nothing (log 5); the marks on held commands are the model's (log 24). -/
def Obligations.DoneEndsTheService : Prop :=
  ∀ (s : State) (rest : List Move) (h x : Nat), s.script = .done :: rest → (∀ q ∈ s.held, q.awaited = false) →
    (s.serv = some (.handler h x) → step s = .next { s with script := rest, serv := none, pv := none }) ∧
    (s.serv = some (.tap h x) → s.phase = .disp →
      step s = .next { s with script := rest, serv := none, parse := .ended }) ∧
    (s.serv = none → step s = .next { s with script := rest })

/-! ## The dispatch multiplexer and the tap -/

/-- R162: `REGISTER`. -/
def Obligations.RegisterInstallsTheEntry : Prop :=
  ∀ (s : State) (o : Bool) (ch : Byte) (h x : Nat), s.phase = .idle →
    (ch.toNat < s.cfg.nch → s.dt.length = s.cfg.nch → h < 2 ^ s.cfg.handlerW → x < 2 ^ s.cfg.ctxW →
      ∃ t, exec (.register o ch h x) s = .next t ∧
        t = { s with dt := t.dt, trace := s.trace ++ [.result s.caller .ok] } ∧ t.dt.length = s.dt.length ∧
        t.dt[ch.toNat]? = some ⟨h, x⟩ ∧ ∀ k, k ≠ ch.toNat → t.dt[k]? = s.dt[k]?) ∧
    (s.cfg.nch ≤ ch.toNat → exec (.register o ch h x) s =
      .next { s with trace := s.trace ++ [.result s.caller .invalidChannel] })

/-- R163: `UNREGISTER`. -/
def Obligations.UnregisterClearsTheEntry : Prop :=
  ∀ (s : State) (o : Bool) (ch : Byte), s.phase = .idle →
    (ch.toNat < s.cfg.nch → s.dt.length = s.cfg.nch →
      ∃ t, exec (.unregister o ch) s = .next t ∧
        t = { s with dt := t.dt, trace := s.trace ++ [.result s.caller .ok] } ∧ t.dt.length = s.dt.length ∧
        t.dt[ch.toNat]? = some ⟨0, 0⟩ ∧ ∀ k, k ≠ ch.toNat → t.dt[k]? = s.dt[k]?) ∧
    (s.cfg.nch ≤ ch.toNat → exec (.unregister o ch) s =
      .next { s with trace := s.trace ++ [.result s.caller .ok] })

/-- R164, R165: `SET_DEBUG_TAP` (handler 0 clears the tap) and `CLEAR_DEBUG_TAP`. -/
def Obligations.TapCommandsWriteTheTap : Prop :=
  ∀ (s : State) (o : Bool) (h x : Nat), s.phase = .idle →
    (h < 2 ^ s.cfg.handlerW → x < 2 ^ s.cfg.ctxW → exec (.setDebugTap o h x) s =
      .next { s with tap := ⟨decide (h ≠ 0), h, x⟩, trace := s.trace ++ [.result s.caller .ok] }) ∧
    exec (.clearDebugTap o) s =
      .next { s with tap := ⟨false, 0, 0⟩, trace := s.trace ++ [.result s.caller .ok] }

/-- R160, R161, R166: `DISPATCH` presents one record to the bound handler and waits; a view whose channel has no entry
or no bound handler vanishes without a trace. The field for who is in service is the model's (log 2), and that a dropped view is
no longer live is its reading (log 26). -/
def Obligations.DispatchInvokesTheBoundHandler : Prop :=
  ∀ (s : State) (v : PacketView),
    (∀ e, v.channel.toNat < s.cfg.nch → s.dt[v.channel.toNat]? = some e → e.handler ≠ 0 →
      exec (.dispatch v) s = .next { s with
        pv := some v, serv := some (.handler e.handler e.context),
        trace := s.trace ++ [.dispatch e.handler e.context v] }) ∧
    (∀ e, v.channel.toNat < s.cfg.nch → s.dt[v.channel.toNat]? = some e → e.handler = 0 →
      exec (.dispatch v) s = .next { s with pv := none }) ∧
    (s.cfg.nch ≤ v.channel.toNat → exec (.dispatch v) s = .next { s with pv := none })

/-- R167: `TAP_FORWARD` presents all `N` bytes of `IN` verbatim, whatever they are, and waits. -/
def Obligations.TapGetsTheRawFrame : Prop :=
  ∀ s : State, ∃ frame : List Byte, frame.length = s.cfg.n ∧
    (∀ i, i < s.cfg.n → frame.getD i 0#8 = s.inb.read i) ∧
    exec .tapForward s = .next { s with
      serv := some (.tap s.tap.handler s.tap.context),
      trace := s.trace ++ [.tap s.tap.handler s.tap.context frame] }

/-- R171, R134: while a tap is installed no step of a cycle past its exchange invokes a handler or raises a diagnostic. -/
def Obligations.InstalledTapSilencesDispatch : Prop :=
  ∀ s s' : State, Inv s → s.phase = .disp → s.tap.valid = true → step s = .next s' →
    ∃ added : List PortRec, s'.trace = s.trace ++ added ∧
      ∀ r ∈ added, (∀ h x v, r ≠ .dispatch h x v) ∧ ∀ d, r ≠ .diag d

/-- R83, R160, R161: every record presented on the dispatch port is within bounds: a bound handler of `HANDLER_W` bits, a
context of `CTX_W` bits, a channel from 1 to `NCH - 1`, a payload of 1 to `PMAX` bytes; channel 0 is never selected. -/
def Obligations.DispatchRecordsAreInBounds : Prop :=
  ∀ s s' : State, Inv s → step s = .next s' →
    ∃ added : List PortRec, s'.trace = s.trace ++ added ∧ ∀ r ∈ added, dispatchInBounds s.cfg r

/-- R130 X3, R135, R144, R160, R114: with handlers that answer done and send nothing, a cycle whose exchange succeeded
runs to its end, whoever started it and whatever commands of clients are held: the handlers are invoked for exactly the
views `FB_PARSE` yields whose channel is bound, in order, the diagnostics are exactly those `FB_PARSE` raises, the one
result is `Ok` to the client that started it (none for the event), and the block is `Idle` with `IN` empty and all else
unchanged. A frame whose size field is 0 delivers and raises nothing. The moves are the model's account of the engine's
steps and of the handlers' answers (log 3, log 6, log 24); where the value goes for `XFER_CYCLE` run on its own is its
choice (log 9). -/
def Obligations.CycleDeliversWhatTheParserYields : Prop :=
  ∀ s : State, Inv s → s.phase = .disp → s.parse = .notBegun → s.tap.valid = false → s.serv = none → s.pv = none →
    (∀ h ∈ s.held, isHandlerSend h = false ∧ h.awaited = false) → s.script = [] →
    let parsed := if s.inb.frameSize = 0#16 then ([], []) else Ops.parseFrame s.cfg s.inb
    ∃ (moves : List Move) (t : State), (∀ m ∈ moves, m = .engine 0 ∨ m = .done) ∧
      core.run moves.length { s with script := moves } = .next t ∧
      t = { s with inb := [], phase := .idle, parse := .notBegun, starter := .nobody, trace := t.trace,
                   ret := t.ret } ∧
      dispatchStream t = dispatchStream s ++ deliveries s parsed.1 ∧
      diagStream t = diagStream s ++ parsed.2 ∧ linkStream t = linkStream s ∧
      (∀ c, s.starter = .client c → t.ret = s.ret ∧ resultStream t = resultStream s ++ [.result c .ok] ∧
        ∃ tr, t.trace = tr ++ [.result c .ok]) ∧
      (s.starter = .event → t.ret = s.ret ∧ resultStream t = resultStream s) ∧
      (s.starter = .nobody → t.ret = .status .ok ∧ resultStream t = resultStream s)

/-! ## Headers and port records -/

/-- R135, R113, R70, R71: what the parser does with the frame header of an inbound frame. That the header given to the
operation is taken as the one found at the start of `IN` is the model's reading (log 11). -/
def Obligations.FrameHeaderIsChecked : Prop :=
  ∀ (s : State) (size checksum : Word), s.phase = .disp → s.tap.valid = false → s.parse = .notBegun →
    exec .emptyFrameHeader s = .next { s with parse := .ended } ∧
    (size = 0#16 → exec (.frameHeader size checksum) s = .next { s with parse := .ended }) ∧
    (size ≠ 0#16 → checksum ≠ size ^^^ 0x5555#16 → exec (.frameHeader size checksum) s =
      .next { s with parse := .ended, trace := s.trace ++ [.diag ⟨.invalidChecksum, size, checksum⟩] }) ∧
    (size ≠ 0#16 → checksum = size ^^^ 0x5555#16 → size.toNat ≤ s.cfg.cap → exec (.frameHeader size checksum) s =
      .next { s with parse := .running ⟨size.toNat, 4, size.toNat⟩ }) ∧
    (size ≠ 0#16 → checksum = size ^^^ 0x5555#16 → s.cfg.cap < size.toNat → exec (.frameHeader size checksum) s =
      .next { s with
        parse := .running ⟨s.cfg.cap, 4, s.cfg.cap⟩,
        trace := s.trace ++ [.diag ⟨.frameSizeOverrun, size, BitVec.ofNat 16 s.cfg.cap⟩] })

/-- R114, R115, R116, R102: what the parser does with a sub-packet header at its cursor. That the header given to the
operation is taken as the one found there is the model's reading (log 11); the operand for an offset above 65535 is a free
value (log 15). -/
def Obligations.SubPacketHeaderIsParsed : Prop :=
  ∀ (s : State) (cur : Cursor) (ch op : Byte) (ps : Word), s.phase = .disp → s.tap.valid = false →
    s.parse = .running cur → s.pv = none → 4 ≤ cur.rem → (cur.pos : Int) + cur.rem ≤ s.cfg.n →
    let pl := min ps.toNat s.cfg.pmax
    let raised := if s.cfg.pmax < ps.toNat then [PortRec.diag ⟨.oversizedPayload, diagPos cur.pos, ps⟩] else []
    exec (.sentinelChannel op ps) s = .next { s with parse := .ended } ∧
    exec (.sentinelSize ch op) s = .next { s with parse := .ended } ∧
    (ch ≠ 0#8 → ps ≠ 0#16 → (4 : Int) + pl ≤ cur.rem → exec (.subpktHeader ch op ps) s = .next { s with
      pv := some ⟨ch, op, BitVec.ofNat 16 pl, s.inb.slice (cur.pos + 4) pl⟩,
      parse := .running ⟨cur.lim, cur.pos + (4 + ps.toNat), cur.rem - (4 + ps.toNat)⟩,
      trace := s.trace ++ raised }) ∧
    (ch ≠ 0#8 → ps ≠ 0#16 → cur.rem < 4 + pl → exec (.subpktHeader ch op ps) s = .next { s with
      parse := .ended,
      trace := s.trace ++ raised ++
        [.diag ⟨.malformedSubPacket, diagPos cur.pos, BitVec.ofNat 16 cur.rem.toNat⟩] })

/-- R4 (e), R134, R135, R114 (log 11): where no parser reads it a header is data: nothing happens. For a frame header that
is outside `Disp`, with a tap, or past the start of the parse; for a sub-packet header, outside `Disp`, with a tap,
with no parse running, or with a view still to be answered. -/
def Obligations.HeadersNobodyReadAreData : Prop :=
  ∀ (s : State) (ch op : Byte) (a b : Word),
    (s.phase ≠ .disp ∨ s.tap.valid = true ∨ s.parse ≠ .notBegun →
      ∀ i ∈ [Instr.frameHeader a b, .emptyFrameHeader], exec i s = .next s) ∧
    (s.phase ≠ .disp ∨ s.tap.valid = true ∨ (∀ cur, s.parse ≠ .running cur) ∨ s.pv ≠ none →
      ∀ i ∈ [Instr.subpktHeader ch op a, .sentinelChannel op a, .sentinelSize ch op], exec i s = .next s)

/-- R81, R180: a result record goes to the caller of the command being taken, and to nobody else. That a record, run as
an operation, is the giving of it is the model's choice (log 12). -/
def Obligations.ResultRecordsGoToTheCaller : Prop :=
  ∀ s : State,
    exec .resultOk s = .next { s with trace := s.trace ++ [.result s.caller .ok] } ∧
    exec .resultNoSpace s = .next { s with trace := s.trace ++ [.result s.caller .noSpace] } ∧
    exec .resultInvalidChannel s = .next { s with trace := s.trace ++ [.result s.caller .invalidChannel] } ∧
    exec .resultTransportError s = .next { s with trace := s.trace ++ [.result s.caller .transportError] }

/-- R82, R183: a diagnostic record is appended to the diagnostic stream, with its code, and nothing else changes. The
operand that names an offset is the offset, wherever it fits 16 bits (log 15). That a record, run as an operation, is
the raising of it is the model's choice (log 12). -/
def Obligations.DiagnosticsAreAppendedToTheStream : Prop :=
  (∀ pos : Nat, pos ≤ 65535 → (diagPos pos).toNat = pos) ∧
  ∀ (s : State) (a b : Word), ∀ p ∈ [(Instr.diagInvalidChecksum a b, 0x10#8), (.diagMalformedSubPacket a b, 0x11#8),
      (.diagOversizedPayload a b, 0x12#8), (.diagFrameSizeOverrun a b, 0x13#8), (.diagTransportError a b, 0x14#8)],
    ∃ d : DiagRec, d.kind.code = p.2 ∧ d.a = a ∧ d.b = b ∧
      exec p.1 s = .next { s with trace := s.trace ++ [.diag d] } ∧
      ∀ t, exec p.1 s = .next t → diagStream t = diagStream s ++ [d]
end

