-- ==== Sys2Proof/Laws/Codec.lean ====
section
/-! SUPPORT. The laws of fields: 16-bit values and their two bytes, little-endian numbers, the code byte, and the wire
image of a sub-packet. -/

namespace Sys2Proof

@[simp] theorem le16_toNat (b0 b1 : Byte) : (le16 b0 b1).toNat = b0.toNat + 256 * b1.toNat := by
  have h0 := b0.isLt
  have h1 := b1.isLt
  simp only [le16, BitVec.toNat_ofNat]
  omega

@[simp] theorem loByte_toNat (v : Word) : (loByte v).toNat = v.toNat % 256 := by
  simp [loByte]

@[simp] theorem hiByte_toNat (v : Word) : (hiByte v).toNat = v.toNat / 256 := by
  have := v.isLt
  simp only [hiByte, BitVec.toNat_ofNat]
  omega

/-- A 16-bit value is read back from its two bytes (R8). -/
@[simp] theorem le16_lo_hi (v : Word) : le16 (loByte v) (hiByte v) = v := by
  apply BitVec.eq_of_toNat_eq
  simp only [le16_toNat, loByte_toNat, hiByte_toNat]
  omega

@[simp] theorem loByte_le16 (b0 b1 : Byte) : loByte (le16 b0 b1) = b0 := by
  apply BitVec.eq_of_toNat_eq
  have h0 := b0.isLt
  simp only [loByte_toNat, le16_toNat]
  omega

@[simp] theorem hiByte_le16 (b0 b1 : Byte) : hiByte (le16 b0 b1) = b1 := by
  apply BitVec.eq_of_toNat_eq
  have h0 := b0.isLt
  simp only [hiByte_toNat, le16_toNat]
  omega

@[simp] theorem leBytes_length (k v : Nat) : (leBytes k v).length = k := by
  induction k generalizing v with
  | zero => rfl
  | succ k ih => simp [leBytes, ih]

/-- A number that fits its bytes is read back from them (R77). -/
theorem leNat_leBytes (k v : Nat) (h : v < 256 ^ k) : leNat (leBytes k v) = v := by
  induction k generalizing v with
  | zero => simp only [pow_zero] at h; simp only [leBytes, leNat]; omega
  | succ k ih =>
    rw [pow_succ] at h
    simp only [leBytes, leNat, BitVec.toNat_ofNat]
    rw [ih (v / 256) (by omega)]
    omega

/-- A number within a width of `w` bits fits `ceil(w / 8)` bytes (R77). -/
theorem lt_pow_ceil_bytes {w v : Nat} (h : v < 2 ^ w) : v < 256 ^ ((w + 7) / 8) := by
  have e : (256 : Nat) ^ ((w + 7) / 8) = 2 ^ (8 * ((w + 7) / 8)) := by
    rw [pow_mul]; norm_num
  rw [e]
  exact lt_of_lt_of_le h (Nat.pow_le_pow_right (by norm_num) (by omega))

theorem codeByte_toNat (o : Bool) (op : Nat) (h : op < 128) :
    (codeByte o op).toNat = (if o then 128 else 0) + op := by
  simp only [codeByte, BitVec.toNat_ofNat]
  split <;> omega

/-- The op of a code byte (R77). -/
@[simp] theorem opField_codeByte (o : Bool) (op : Nat) (h : op < 128) : opField (codeByte o op) = op := by
  simp only [opField, codeByte_toNat o op h]
  split <;> omega

/-- The origin bit of a code byte (R77). -/
@[simp] theorem originBit_codeByte (o : Bool) (op : Nat) (h : op < 128) : originBit (codeByte o op) = o := by
  simp only [originBit, codeByte_toNat o op h]
  cases o <;> simp
  omega

/-- `ENCODE` returns `4 + L` bytes (R100). -/
@[simp] theorem subPacketBytes_length (ch op : Byte) (p : List Byte) : (subPacketBytes ch op p).length = 4 + p.length := by
  simp [subPacketBytes, le16Bytes]; omega

/-- XOR with `0x5555` twice gives the value back (R118). -/
@[simp] theorem checksumOf_checksumOf (v : Word) : checksumOf (checksumOf v) = v := by
  simp [checksumOf]

/-- A code byte is its origin bit and its op field (R77). -/
theorem codeByte_self (code : Byte) : codeByte (originBit code) (opField code) = code := by
  apply BitVec.eq_of_toNat_eq
  have := code.isLt
  rw [codeByte_toNat _ _ (by unfold opField; omega)]
  unfold originBit opField
  by_cases h : 128 ≤ code.toNat <;> simp only [h, decide_true, decide_false, if_true, Bool.false_eq_true, if_false] <;> omega

/-- Bytes are read back from the number they hold (R77). -/
theorem leBytes_leNat (bs : List Byte) : leBytes bs.length (leNat bs) = bs := by
  induction bs with
  | nil => rfl
  | cons b bs ih =>
    have := b.isLt
    simp only [List.length_cons, leBytes, leNat]
    congr 1
    · apply BitVec.eq_of_toNat_eq; simp only [BitVec.toNat_ofNat]; omega
    · rw [show (b.toNat + 256 * leNat bs) / 256 = leNat bs by omega]; exact ih

/-! ## Operands of command records (R78) -/

/-- The operands of a send are read from their own bytes. -/
theorem decodeSend_subPacketBytes (mk : Byte → Byte → List Byte → Instr) (ch op : Byte) (p : List Byte)
    (h : p.length ≤ 65535) : decodeSend mk (subPacketBytes ch op p) = .ok (mk ch op p, []) := by
  have e : (le16 (loByte (BitVec.ofNat 16 p.length)) (hiByte (BitVec.ofNat 16 p.length))).toNat = p.length := by
    rw [le16_lo_hi, BitVec.toNat_ofNat]; omega
  simp only [subPacketBytes, le16Bytes, List.cons_append, List.nil_append, decodeSend, e]
  simp

/-- A handler and a context are read from their own bytes. -/
theorem decodePair_leBytes (c : Config) (mk : Nat → Nat → Instr) (h x : Nat) (hh : h < 2 ^ c.handlerW)
    (hx : x < 2 ^ c.ctxW) :
    decodePair c mk (leBytes c.handlerBytes h ++ leBytes c.ctxBytes x) = .ok (mk h x, []) := by
  have e1 : (leBytes c.handlerBytes h ++ leBytes c.ctxBytes x).take c.handlerBytes = leBytes c.handlerBytes h :=
    List.take_left' (by simp)
  have e2 : (leBytes c.handlerBytes h ++ leBytes c.ctxBytes x).drop c.handlerBytes = leBytes c.ctxBytes x :=
    List.drop_left' (by simp)
  have e3 : (leBytes c.ctxBytes x).take c.ctxBytes = leBytes c.ctxBytes x := List.take_of_length_le (by simp)
  have v1 : leNat (leBytes c.handlerBytes h) = h := leNat_leBytes _ _ (lt_pow_ceil_bytes hh)
  have v2 : leNat (leBytes c.ctxBytes x) = x := leNat_leBytes _ _ (lt_pow_ceil_bytes hx)
  unfold decodePair
  rw [if_neg (by simp)]
  dsimp only
  rw [e1, e2, e3, v1, v2, if_pos ⟨hh, hx⟩, List.drop_of_length_le (by simp)]

/-- Only a send's own bytes are read as it, with nothing left. -/
theorem decodeSend_ok {mk : Byte → Byte → List Byte → Instr} {l : List Byte} {i : Instr}
    (h : decodeSend mk l = .ok (i, [])) :
    ∃ ch op p, i = mk ch op p ∧ p.length ≤ 65535 ∧ subPacketBytes ch op p = l := by
  unfold decodeSend at h
  split at h
  · rename_i ch op l0 l1 rest
    split at h
    · cases h
    · rename_i hl
      simp only [Except.ok.injEq, Prod.mk.injEq, List.drop_eq_nil_iff] at h
      have e : (le16 l0 l1).toNat = rest.length := by omega
      rw [e, List.take_length] at h
      have hb := (le16 l0 l1).isLt
      refine ⟨ch, op, rest, h.1.symm, by omega, ?_⟩
      simp only [subPacketBytes, le16Bytes, ← e, BitVec.ofNat_toNat, BitVec.setWidth_eq, loByte_le16, hiByte_le16,
        List.cons_append, List.nil_append]
  · cases h

/-- Only a pair's own bytes are read as it, with nothing left. -/
theorem decodePair_ok {c : Config} {mk : Nat → Nat → Instr} {l : List Byte} {i : Instr}
    (h : decodePair c mk l = .ok (i, [])) :
    ∃ a x, i = mk a x ∧ a < 2 ^ c.handlerW ∧ x < 2 ^ c.ctxW ∧
      leBytes c.handlerBytes a ++ leBytes c.ctxBytes x = l := by
  unfold decodePair at h
  split at h
  · cases h
  · rename_i hl
    dsimp only at h
    split at h
    · rename_i hb
      simp only [Except.ok.injEq, Prod.mk.injEq, List.drop_eq_nil_iff] at h
      have hlen : l.length = c.handlerBytes + c.ctxBytes := by omega
      refine ⟨_, _, h.1.symm, hb.1, hb.2, ?_⟩
      have a1 := leBytes_leNat (l.take c.handlerBytes)
      have a2 := leBytes_leNat ((l.drop c.handlerBytes).take c.ctxBytes)
      rw [List.length_take, Nat.min_eq_left (by omega)] at a1
      rw [List.length_take, List.length_drop, Nat.min_eq_left (by omega)] at a2
      rw [a1, a2, List.take_of_length_le (l := l.drop c.handlerBytes) (by rw [List.length_drop]; omega),
        List.take_append_drop]
    · cases h

end Sys2Proof
end

