-- ==== Sys2Proof/Laws/Memory.lean ====
section
/-! SUPPORT. The laws of a buffer: read after write, the canonical form, and that equal reads of canonical buffers are
equal buffers. -/

namespace Sys2Proof.Machine

@[simp] theorem Memory.read_nil (off : Nat) : Memory.read [] off = Memory.fill off := rfl

/-- Offsets of 4 and above are filled with zero (R110). -/
theorem Memory.fill_of_four_le {off : Nat} (h : 4 ≤ off) : Memory.fill off = 0x00#8 := by
  simp [Memory.fill]; omega

theorem Memory.wfFrom_cons {n lo a : Nat} {x : Byte} {m : Memory} :
    Memory.wfFrom n lo ((a, x) :: m) = true ↔
      (lo ≤ a ∧ a < n ∧ x ≠ Memory.fill a) ∧ Memory.wfFrom n (a + 1) m = true := by
  simp [Memory.wfFrom]

/-- The canonical form from a lower bound holds from every smaller one. -/
theorem Memory.wfFrom_mono {n lo lo' : Nat} {m : Memory} (h : Memory.wfFrom n lo m = true) (hl : lo' ≤ lo) :
    Memory.wfFrom n lo' m = true := by
  cases m with
  | nil => rfl
  | cons c m =>
    rw [Memory.wfFrom_cons] at h ⊢
    exact ⟨⟨by omega, h.1.2⟩, h.2⟩

/-- Below the first listed offset everything reads as the fill. -/
theorem Memory.read_below {n lo off : Nat} {m : Memory} (h : Memory.wfFrom n lo m = true) (ho : off < lo) :
    m.read off = Memory.fill off := by
  induction m generalizing lo with
  | nil => rfl
  | cons c m ih =>
    obtain ⟨a, x⟩ := c
    rw [Memory.wfFrom_cons] at h
    have : a ≠ off := by omega
    simp only [Memory.read, this, if_false]
    exact ih h.2 (by omega)

/-- At or beyond the buffer's size everything reads as the fill. -/
theorem Memory.read_beyond {n lo off : Nat} {m : Memory} (h : Memory.wfFrom n lo m = true) (ho : n ≤ off) :
    m.read off = Memory.fill off := by
  induction m generalizing lo with
  | nil => rfl
  | cons c m ih =>
    obtain ⟨a, x⟩ := c
    rw [Memory.wfFrom_cons] at h
    have : a ≠ off := by omega
    simp only [Memory.read, this, if_false]
    exact ih h.2

/-- Writing one byte inside the buffer keeps the canonical form. -/
theorem Memory.write_wfFrom {n lo off : Nat} {v : Byte} {m : Memory} (h : Memory.wfFrom n lo m = true)
    (hl : lo ≤ off) (hn : off < n) : Memory.wfFrom n lo (m.write off v) = true := by
  induction m generalizing lo with
  | nil =>
    simp only [Memory.write]
    split
    · rfl
    · rw [Memory.wfFrom_cons]; exact ⟨⟨hl, hn, ‹_›⟩, rfl⟩
  | cons c m ih =>
    obtain ⟨a, x⟩ := c
    have hc := h
    rw [Memory.wfFrom_cons] at h
    simp only [Memory.write]
    split
    · split
      · exact hc
      · rw [Memory.wfFrom_cons, Memory.wfFrom_cons]
        exact ⟨⟨hl, hn, ‹_›⟩, ⟨⟨by omega, h.1.2⟩, h.2⟩⟩
    · split
      · split
        · exact Memory.wfFrom_mono h.2 (by omega)
        · rw [Memory.wfFrom_cons]
          subst_vars
          exact ⟨⟨hl, hn, ‹_›⟩, h.2⟩
      · rw [Memory.wfFrom_cons]
        exact ⟨h.1, ih h.2 (by omega)⟩

/-- Read after write of one byte. -/
theorem Memory.read_write {n lo off o : Nat} {v : Byte} {m : Memory} (h : Memory.wfFrom n lo m = true) :
    (m.write off v).read o = if o = off then v else m.read o := by
  induction m generalizing lo with
  | nil =>
    simp only [Memory.write]
    by_cases h1 : o = off
    · subst h1; split <;> simp_all [Memory.read]
    · have : off ≠ o := fun e => h1 e.symm
      split <;> simp_all [Memory.read]
  | cons c m ih =>
    obtain ⟨a, x⟩ := c
    have hc := h
    rw [Memory.wfFrom_cons] at h
    have hb : ∀ q, q < a + 1 → Memory.read m q = Memory.fill q := fun q hq => Memory.read_below h.2 hq
    simp only [Memory.write]
    by_cases h1 : off < a
    · simp only [h1, if_true]
      by_cases h2 : v = Memory.fill off
      · simp only [h2, if_true]
        by_cases h3 : o = off
        · subst h3
          have : a ≠ o := by omega
          simp [Memory.read, this, hb o (by omega)]
        · simp [h3]
      · simp only [h2, if_false]
        by_cases h3 : o = off
        · subst h3; simp [Memory.read]
        · have : off ≠ o := fun e => h3 e.symm
          simp [Memory.read, this, h3]
    · simp only [h1, if_false]
      by_cases h4 : off = a
      · simp only [h4, if_true]
        by_cases h2 : v = Memory.fill a
        · simp only [h2, if_true]
          by_cases h3 : o = a
          · subst h3; simp [hb o (by omega)]
          · have : a ≠ o := fun e => h3 e.symm
            simp [Memory.read, this, h3]
        · simp only [h2, if_false]
          by_cases h3 : o = a
          · subst h3; simp [Memory.read]
          · have : a ≠ o := fun e => h3 e.symm
            simp [Memory.read, this, h3]
      · simp only [h4, if_false, Memory.read]
        by_cases h5 : a = o
        · have : o ≠ off := by omega
          simp [h5, this]
        · simp only [h5, if_false]
          exact ih h.2

/-- Writing bytes inside the buffer keeps the canonical form. -/
theorem Memory.writeBytes_wfFrom {n lo off : Nat} {bs : List Byte} {m : Memory} (h : Memory.wfFrom n lo m = true)
    (hl : lo ≤ off) (hn : off + bs.length ≤ n) : Memory.wfFrom n lo (m.writeBytes off bs) = true := by
  induction bs generalizing m off with
  | nil => exact h
  | cons b bs ih =>
    simp only [List.length_cons] at hn
    exact ih (Memory.write_wfFrom h hl (by omega)) (by omega) (by omega)

/-- Read after a write of consecutive bytes. -/
theorem Memory.read_writeBytes {n lo off o : Nat} {bs : List Byte} {m : Memory} (h : Memory.wfFrom n lo m = true)
    (hl : lo ≤ off) (hn : off + bs.length ≤ n) :
    (m.writeBytes off bs).read o = if off ≤ o ∧ o < off + bs.length then bs.getD (o - off) 0#8 else m.read o := by
  induction bs generalizing m off with
  | nil =>
    have : ¬ (off ≤ o ∧ o < off + ([] : List Byte).length) := by simp
    rw [if_neg this]; rfl
  | cons b bs ih =>
    simp only [List.length_cons] at hn
    simp only [Memory.writeBytes, List.length_cons]
    rw [ih (Memory.write_wfFrom h hl (by omega)) (by omega) (by omega), Memory.read_write h]
    by_cases h1 : o = off
    · subst h1
      have h2 : ¬ (o + 1 ≤ o ∧ o < o + 1 + bs.length) := by omega
      have h3 : o ≤ o ∧ o < o + (bs.length + 1) := by omega
      simp [h3]
    · by_cases h2 : off + 1 ≤ o ∧ o < off + 1 + bs.length
      · have h3 : off ≤ o ∧ o < off + (bs.length + 1) := by omega
        have h4 : o - off = (o - (off + 1)) + 1 := by omega
        simp [h2, h3, h4]
      · have h3 : ¬ (off ≤ o ∧ o < off + (bs.length + 1)) := by omega
        rw [if_neg h2, if_neg h3, if_neg h1]

/-- A 16-bit write inside the buffer keeps the canonical form. -/
theorem Memory.write16_wfFrom {n lo off : Nat} {v : Word} {m : Memory} (h : Memory.wfFrom n lo m = true)
    (hl : lo ≤ off) (hn : off + 1 < n) : Memory.wfFrom n lo (m.write16 off v) = true :=
  Memory.write_wfFrom (Memory.write_wfFrom h hl (by omega)) (by omega) hn

/-- Read after a 16-bit write. -/
theorem Memory.read_write16 {n lo off o : Nat} {v : Word} {m : Memory} (h : Memory.wfFrom n lo m = true)
    (hl : lo ≤ off) (hn : off + 1 < n) :
    (m.write16 off v).read o = if o = off then loByte v else if o = off + 1 then hiByte v else m.read o := by
  unfold Memory.write16
  rw [Memory.read_write (Memory.write_wfFrom h hl (by omega)), Memory.read_write h]
  by_cases h1 : o = off
  · subst h1; simp
  · simp [h1]

/-- A buffer written whole is canonical. -/
theorem Memory.loadFrom_wfFrom {n off : Nat} {bs : List Byte} (hn : off + bs.length ≤ n) :
    Memory.wfFrom n off (Memory.loadFrom off bs) = true := by
  induction bs generalizing off with
  | nil => rfl
  | cons b bs ih =>
    simp only [List.length_cons] at hn
    simp only [Memory.loadFrom]
    split
    · exact Memory.wfFrom_mono (ih (by omega)) (by omega)
    · rw [Memory.wfFrom_cons]
      exact ⟨⟨le_refl _, by omega, ‹_›⟩, ih (by omega)⟩

/-- A buffer written whole reads as the bytes written. -/
theorem Memory.read_loadFrom {off o : Nat} {bs : List Byte} :
    (Memory.loadFrom off bs).read o =
      if off ≤ o ∧ o < off + bs.length then bs.getD (o - off) 0#8 else Memory.fill o := by
  induction bs generalizing off with
  | nil =>
    have : ¬ (off ≤ o ∧ o < off + ([] : List Byte).length) := by simp
    rw [if_neg this]; rfl
  | cons b bs ih =>
    simp only [Memory.loadFrom, List.length_cons]
    by_cases h1 : o = off
    · subst h1
      have h2 : ¬ (o + 1 ≤ o ∧ o < o + 1 + bs.length) := by omega
      have h3 : o ≤ o ∧ o < o + (bs.length + 1) := by omega
      split
      · rw [ih]; simp_all
      · simp [Memory.read]
    · have hne : off ≠ o := fun e => h1 e.symm
      have key : (Memory.loadFrom (off + 1) bs).read o =
          if off ≤ o ∧ o < off + (bs.length + 1) then (b :: bs).getD (o - off) 0#8 else Memory.fill o := by
        rw [ih]
        by_cases h2 : off + 1 ≤ o ∧ o < off + 1 + bs.length
        · have h3 : off ≤ o ∧ o < off + (bs.length + 1) := by omega
          have h4 : o - off = (o - (off + 1)) + 1 := by omega
          simp [h2, h3, h4]
        · have h3 : ¬ (off ≤ o ∧ o < off + (bs.length + 1)) := by omega
          rw [if_neg h2, if_neg h3]
      split
      · exact key
      · simp only [Memory.read, hne, if_false]; exact key

@[simp] theorem Memory.slice_length (m : Memory) (off k : Nat) : (m.slice off k).length = k := by
  induction k generalizing off with
  | zero => rfl
  | succ k ih => simp [Memory.slice, ih]

/-- A byte of a slice. -/
theorem Memory.slice_getD (m : Memory) (off k i : Nat) (d : Byte) (h : i < k) :
    (m.slice off k).getD i d = m.read (off + i) := by
  induction k generalizing off i with
  | zero => omega
  | succ k ih =>
    cases i with
    | zero => rfl
    | succ i =>
      simp only [Memory.slice, List.getD_cons_succ]
      rw [ih (off + 1) i (by omega)]
      congr 1; omega

/-- Buffers that agree on a range have the same slice of it. -/
theorem Memory.slice_congr {m m' : Memory} {off k : Nat} (h : ∀ o, off ≤ o → o < off + k → m.read o = m'.read o) :
    m.slice off k = m'.slice off k := by
  induction k generalizing off with
  | zero => rfl
  | succ k ih =>
    simp only [Memory.slice]
    rw [h off (by omega) (by omega), ih (fun o h1 h2 => h o (by omega) (by omega))]

/-- Consecutive slices join. -/
theorem Memory.slice_append (m : Memory) (off k l : Nat) :
    m.slice off (k + l) = m.slice off k ++ m.slice (off + k) l := by
  induction k generalizing off with
  | zero => simp [Memory.slice]
  | succ k ih =>
    have e : k + 1 + l = (k + l) + 1 := by omega
    rw [e]
    simp only [Memory.slice, List.cons_append]
    rw [ih (off + 1)]
    congr 3; omega

/-- Canonical buffers with equal reads are equal. -/
theorem Memory.ext_of_wfFrom {n lo : Nat} {m m' : Memory} (h : Memory.wfFrom n lo m = true)
    (h' : Memory.wfFrom n lo m' = true) (heq : ∀ o, m.read o = m'.read o) : m = m' := by
  induction m generalizing lo m' with
  | nil =>
    cases m' with
    | nil => rfl
    | cons c m' =>
      obtain ⟨a, x⟩ := c
      rw [Memory.wfFrom_cons] at h'
      have := heq a
      simp [Memory.read] at this
      exact absurd this.symm h'.1.2.2
  | cons c m ih =>
    obtain ⟨a, x⟩ := c
    have hc := h
    rw [Memory.wfFrom_cons] at h
    cases m' with
    | nil =>
      have := heq a
      simp [Memory.read] at this
      exact absurd this h.1.2.2
    | cons c' m' =>
      obtain ⟨a', x'⟩ := c'
      have hc' := h'
      rw [Memory.wfFrom_cons] at h'
      have ha : a = a' := by
        rcases Nat.lt_trichotomy a a' with hlt | heq' | hlt
        · have e := heq a
          have hne : a' ≠ a := by omega
          rw [show Memory.read ((a', x') :: m') a = Memory.read m' a by simp [Memory.read, hne],
            Memory.read_below h'.2 (by omega)] at e
          simp [Memory.read] at e
          exact absurd e h.1.2.2
        · exact heq'
        · have e := heq a'
          have hne : a ≠ a' := by omega
          rw [show Memory.read ((a, x) :: m) a' = Memory.read m a' by simp [Memory.read, hne],
            Memory.read_below h.2 (by omega)] at e
          simp [Memory.read] at e
          exact absurd e.symm h'.1.2.2
      subst ha
      have hx : x = x' := by
        have := heq a
        simpa [Memory.read] using this
      subst hx
      have : m = m' := by
        apply ih h.2 h'.2
        intro o
        by_cases ho : a = o
        · subst ho
          rw [Memory.read_below h.2 (by omega), Memory.read_below h'.2 (by omega)]
        · have := heq o
          simpa [Memory.read, ho] using this
      rw [this]

/-- The empty buffer is canonical: the reset contents of `OUT` and `IN` (R35). -/
theorem Memory.nil_wf (n : Nat) : Memory.wf n [] = true := rfl

theorem Memory.write_wf {n off : Nat} {v : Byte} {m : Memory} (h : m.wf n = true) (hn : off < n) :
    (m.write off v).wf n = true := Memory.write_wfFrom h (Nat.zero_le _) hn

theorem Memory.write16_wf {n off : Nat} {v : Word} {m : Memory} (h : m.wf n = true) (hn : off + 1 < n) :
    (m.write16 off v).wf n = true := Memory.write16_wfFrom h (Nat.zero_le _) hn

theorem Memory.writeBytes_wf {n off : Nat} {bs : List Byte} {m : Memory} (h : m.wf n = true)
    (hn : off + bs.length ≤ n) : (m.writeBytes off bs).wf n = true := Memory.writeBytes_wfFrom h (Nat.zero_le _) hn

theorem Memory.load_wf {n : Nat} {bs : List Byte} (hn : bs.length ≤ n) : (Memory.load bs).wf n = true :=
  Memory.loadFrom_wfFrom (by omega)

theorem Memory.read_load {o : Nat} {bs : List Byte} :
    (Memory.load bs).read o = if o < bs.length then bs.getD o 0#8 else Memory.fill o := by
  unfold Memory.load
  rw [Memory.read_loadFrom]
  simp

end Sys2Proof.Machine
end

