-- ==== Sys2Proof/Laws/State.lean ====
section
/-! SUPPORT. One lemma per field of State per shared update: what the update makes of the field. -/

namespace Sys2Proof.Machine

/-! ### One port record -/

@[simp] theorem Ops.emit_cfg (r : PortRec) (s : State) : (Ops.emit r s).cfg = s.cfg := rfl
@[simp] theorem Ops.emit_outb (r : PortRec) (s : State) : (Ops.emit r s).outb = s.outb := rfl
@[simp] theorem Ops.emit_inb (r : PortRec) (s : State) : (Ops.emit r s).inb = s.inb := rfl
@[simp] theorem Ops.emit_dt (r : PortRec) (s : State) : (Ops.emit r s).dt = s.dt := rfl
@[simp] theorem Ops.emit_tap (r : PortRec) (s : State) : (Ops.emit r s).tap = s.tap := rfl
@[simp] theorem Ops.emit_phase (r : PortRec) (s : State) : (Ops.emit r s).phase = s.phase := rfl
@[simp] theorem Ops.emit_irqPending (r : PortRec) (s : State) : (Ops.emit r s).irqPending = s.irqPending := rfl
@[simp] theorem Ops.emit_parse (r : PortRec) (s : State) : (Ops.emit r s).parse = s.parse := rfl
@[simp] theorem Ops.emit_pv (r : PortRec) (s : State) : (Ops.emit r s).pv = s.pv := rfl
@[simp] theorem Ops.emit_held (r : PortRec) (s : State) : (Ops.emit r s).held = s.held := rfl
@[simp] theorem Ops.emit_trace (r : PortRec) (s : State) : (Ops.emit r s).trace = s.trace ++ [r] := rfl
@[simp] theorem Ops.emit_serv (r : PortRec) (s : State) : (Ops.emit r s).serv = s.serv := rfl
@[simp] theorem Ops.emit_starter (r : PortRec) (s : State) : (Ops.emit r s).starter = s.starter := rfl
@[simp] theorem Ops.emit_caller (r : PortRec) (s : State) : (Ops.emit r s).caller = s.caller := rfl
@[simp] theorem Ops.emit_ret (r : PortRec) (s : State) : (Ops.emit r s).ret = s.ret := rfl
@[simp] theorem Ops.emit_script (r : PortRec) (s : State) : (Ops.emit r s).script = s.script := rfl
@[simp] theorem Ops.emit_internal (r : PortRec) (s : State) : (Ops.emit r s).internal = s.internal := rfl

/-! ### One diagnostic -/

@[simp] theorem Ops.raiseDiag_cfg (k : DiagKind) (a b : Word) (s : State) : (Ops.raiseDiag k a b s).cfg = s.cfg := rfl
@[simp] theorem Ops.raiseDiag_outb (k : DiagKind) (a b : Word) (s : State) :
    (Ops.raiseDiag k a b s).outb = s.outb := rfl
@[simp] theorem Ops.raiseDiag_inb (k : DiagKind) (a b : Word) (s : State) : (Ops.raiseDiag k a b s).inb = s.inb := rfl
@[simp] theorem Ops.raiseDiag_dt (k : DiagKind) (a b : Word) (s : State) : (Ops.raiseDiag k a b s).dt = s.dt := rfl
@[simp] theorem Ops.raiseDiag_tap (k : DiagKind) (a b : Word) (s : State) : (Ops.raiseDiag k a b s).tap = s.tap := rfl
@[simp] theorem Ops.raiseDiag_phase (k : DiagKind) (a b : Word) (s : State) :
    (Ops.raiseDiag k a b s).phase = s.phase := rfl
@[simp] theorem Ops.raiseDiag_irqPending (k : DiagKind) (a b : Word) (s : State) :
    (Ops.raiseDiag k a b s).irqPending = s.irqPending := rfl
@[simp] theorem Ops.raiseDiag_parse (k : DiagKind) (a b : Word) (s : State) :
    (Ops.raiseDiag k a b s).parse = s.parse := rfl
@[simp] theorem Ops.raiseDiag_pv (k : DiagKind) (a b : Word) (s : State) : (Ops.raiseDiag k a b s).pv = s.pv := rfl
@[simp] theorem Ops.raiseDiag_held (k : DiagKind) (a b : Word) (s : State) :
    (Ops.raiseDiag k a b s).held = s.held := rfl
@[simp] theorem Ops.raiseDiag_trace (k : DiagKind) (a b : Word) (s : State) :
    (Ops.raiseDiag k a b s).trace = s.trace ++ [.diag ⟨k, a, b⟩] := rfl
@[simp] theorem Ops.raiseDiag_serv (k : DiagKind) (a b : Word) (s : State) :
    (Ops.raiseDiag k a b s).serv = s.serv := rfl
@[simp] theorem Ops.raiseDiag_starter (k : DiagKind) (a b : Word) (s : State) :
    (Ops.raiseDiag k a b s).starter = s.starter := rfl
@[simp] theorem Ops.raiseDiag_caller (k : DiagKind) (a b : Word) (s : State) :
    (Ops.raiseDiag k a b s).caller = s.caller := rfl
@[simp] theorem Ops.raiseDiag_ret (k : DiagKind) (a b : Word) (s : State) : (Ops.raiseDiag k a b s).ret = s.ret := rfl
@[simp] theorem Ops.raiseDiag_script (k : DiagKind) (a b : Word) (s : State) :
    (Ops.raiseDiag k a b s).script = s.script := rfl
@[simp] theorem Ops.raiseDiag_internal (k : DiagKind) (a b : Word) (s : State) :
    (Ops.raiseDiag k a b s).internal = s.internal := rfl

/-! ### Several diagnostics -/

@[simp] theorem Ops.raiseAll_cfg (ds : List DiagRec) (s : State) : (Ops.raiseAll ds s).cfg = s.cfg := rfl
@[simp] theorem Ops.raiseAll_outb (ds : List DiagRec) (s : State) : (Ops.raiseAll ds s).outb = s.outb := rfl
@[simp] theorem Ops.raiseAll_inb (ds : List DiagRec) (s : State) : (Ops.raiseAll ds s).inb = s.inb := rfl
@[simp] theorem Ops.raiseAll_dt (ds : List DiagRec) (s : State) : (Ops.raiseAll ds s).dt = s.dt := rfl
@[simp] theorem Ops.raiseAll_tap (ds : List DiagRec) (s : State) : (Ops.raiseAll ds s).tap = s.tap := rfl
@[simp] theorem Ops.raiseAll_phase (ds : List DiagRec) (s : State) : (Ops.raiseAll ds s).phase = s.phase := rfl
@[simp] theorem Ops.raiseAll_irqPending (ds : List DiagRec) (s : State) :
    (Ops.raiseAll ds s).irqPending = s.irqPending := rfl
@[simp] theorem Ops.raiseAll_parse (ds : List DiagRec) (s : State) : (Ops.raiseAll ds s).parse = s.parse := rfl
@[simp] theorem Ops.raiseAll_pv (ds : List DiagRec) (s : State) : (Ops.raiseAll ds s).pv = s.pv := rfl
@[simp] theorem Ops.raiseAll_held (ds : List DiagRec) (s : State) : (Ops.raiseAll ds s).held = s.held := rfl
@[simp] theorem Ops.raiseAll_trace (ds : List DiagRec) (s : State) :
    (Ops.raiseAll ds s).trace = s.trace ++ ds.map .diag := rfl
@[simp] theorem Ops.raiseAll_serv (ds : List DiagRec) (s : State) : (Ops.raiseAll ds s).serv = s.serv := rfl
@[simp] theorem Ops.raiseAll_starter (ds : List DiagRec) (s : State) : (Ops.raiseAll ds s).starter = s.starter := rfl
@[simp] theorem Ops.raiseAll_caller (ds : List DiagRec) (s : State) : (Ops.raiseAll ds s).caller = s.caller := rfl
@[simp] theorem Ops.raiseAll_ret (ds : List DiagRec) (s : State) : (Ops.raiseAll ds s).ret = s.ret := rfl
@[simp] theorem Ops.raiseAll_script (ds : List DiagRec) (s : State) : (Ops.raiseAll ds s).script = s.script := rfl
@[simp] theorem Ops.raiseAll_internal (ds : List DiagRec) (s : State) :
    (Ops.raiseAll ds s).internal = s.internal := rfl

/-! ### A result -/

@[simp] theorem Ops.answer_cfg (c : Nat) (r : Result) (s : State) : (Ops.answer c r s).cfg = s.cfg := rfl
@[simp] theorem Ops.answer_outb (c : Nat) (r : Result) (s : State) : (Ops.answer c r s).outb = s.outb := rfl
@[simp] theorem Ops.answer_inb (c : Nat) (r : Result) (s : State) : (Ops.answer c r s).inb = s.inb := rfl
@[simp] theorem Ops.answer_dt (c : Nat) (r : Result) (s : State) : (Ops.answer c r s).dt = s.dt := rfl
@[simp] theorem Ops.answer_tap (c : Nat) (r : Result) (s : State) : (Ops.answer c r s).tap = s.tap := rfl
@[simp] theorem Ops.answer_phase (c : Nat) (r : Result) (s : State) : (Ops.answer c r s).phase = s.phase := rfl
@[simp] theorem Ops.answer_irqPending (c : Nat) (r : Result) (s : State) :
    (Ops.answer c r s).irqPending = s.irqPending := rfl
@[simp] theorem Ops.answer_parse (c : Nat) (r : Result) (s : State) : (Ops.answer c r s).parse = s.parse := rfl
@[simp] theorem Ops.answer_pv (c : Nat) (r : Result) (s : State) : (Ops.answer c r s).pv = s.pv := rfl
@[simp] theorem Ops.answer_held (c : Nat) (r : Result) (s : State) : (Ops.answer c r s).held = s.held := rfl
@[simp] theorem Ops.answer_trace (c : Nat) (r : Result) (s : State) :
    (Ops.answer c r s).trace = s.trace ++ [.result c r] := rfl
@[simp] theorem Ops.answer_serv (c : Nat) (r : Result) (s : State) : (Ops.answer c r s).serv = s.serv := rfl
@[simp] theorem Ops.answer_starter (c : Nat) (r : Result) (s : State) : (Ops.answer c r s).starter = s.starter := rfl
@[simp] theorem Ops.answer_caller (c : Nat) (r : Result) (s : State) : (Ops.answer c r s).caller = s.caller := rfl
@[simp] theorem Ops.answer_ret (c : Nat) (r : Result) (s : State) : (Ops.answer c r s).ret = s.ret := rfl
@[simp] theorem Ops.answer_script (c : Nat) (r : Result) (s : State) : (Ops.answer c r s).script = s.script := rfl
@[simp] theorem Ops.answer_internal (c : Nat) (r : Result) (s : State) :
    (Ops.answer c r s).internal = s.internal := rfl

/-! ### A held command -/

@[simp] theorem Ops.hold_cfg (i : Instr) (s : State) : (Ops.hold i s).cfg = s.cfg := rfl
@[simp] theorem Ops.hold_outb (i : Instr) (s : State) : (Ops.hold i s).outb = s.outb := rfl
@[simp] theorem Ops.hold_inb (i : Instr) (s : State) : (Ops.hold i s).inb = s.inb := rfl
@[simp] theorem Ops.hold_dt (i : Instr) (s : State) : (Ops.hold i s).dt = s.dt := rfl
@[simp] theorem Ops.hold_tap (i : Instr) (s : State) : (Ops.hold i s).tap = s.tap := rfl
@[simp] theorem Ops.hold_phase (i : Instr) (s : State) : (Ops.hold i s).phase = s.phase := rfl
@[simp] theorem Ops.hold_irqPending (i : Instr) (s : State) : (Ops.hold i s).irqPending = s.irqPending := rfl
@[simp] theorem Ops.hold_parse (i : Instr) (s : State) : (Ops.hold i s).parse = s.parse := rfl
@[simp] theorem Ops.hold_pv (i : Instr) (s : State) : (Ops.hold i s).pv = s.pv := rfl
@[simp] theorem Ops.hold_held (i : Instr) (s : State) :
    (Ops.hold i s).held = s.held ++ [⟨s.caller, encode s.cfg i, false⟩] := rfl
@[simp] theorem Ops.hold_trace (i : Instr) (s : State) : (Ops.hold i s).trace = s.trace := rfl
@[simp] theorem Ops.hold_serv (i : Instr) (s : State) : (Ops.hold i s).serv = s.serv := rfl
@[simp] theorem Ops.hold_starter (i : Instr) (s : State) : (Ops.hold i s).starter = s.starter := rfl
@[simp] theorem Ops.hold_caller (i : Instr) (s : State) : (Ops.hold i s).caller = s.caller := rfl
@[simp] theorem Ops.hold_ret (i : Instr) (s : State) : (Ops.hold i s).ret = s.ret := rfl
@[simp] theorem Ops.hold_script (i : Instr) (s : State) : (Ops.hold i s).script = s.script := rfl
@[simp] theorem Ops.hold_internal (i : Instr) (s : State) : (Ops.hold i s).internal = s.internal := rfl

/-! ### `FB_RESET(OUT)` -/

@[simp] theorem Ops.resetBuffer_out_cfg (s : State) : (Ops.resetBuffer .out s).cfg = s.cfg := rfl
@[simp] theorem Ops.resetBuffer_out_outb (s : State) : (Ops.resetBuffer .out s).outb = [] := rfl
@[simp] theorem Ops.resetBuffer_out_inb (s : State) : (Ops.resetBuffer .out s).inb = s.inb := rfl
@[simp] theorem Ops.resetBuffer_out_dt (s : State) : (Ops.resetBuffer .out s).dt = s.dt := rfl
@[simp] theorem Ops.resetBuffer_out_tap (s : State) : (Ops.resetBuffer .out s).tap = s.tap := rfl
@[simp] theorem Ops.resetBuffer_out_phase (s : State) : (Ops.resetBuffer .out s).phase = s.phase := rfl
@[simp] theorem Ops.resetBuffer_out_irqPending (s : State) : (Ops.resetBuffer .out s).irqPending = s.irqPending := rfl
@[simp] theorem Ops.resetBuffer_out_parse (s : State) : (Ops.resetBuffer .out s).parse = s.parse := rfl
@[simp] theorem Ops.resetBuffer_out_pv (s : State) : (Ops.resetBuffer .out s).pv = s.pv := rfl
@[simp] theorem Ops.resetBuffer_out_held (s : State) : (Ops.resetBuffer .out s).held = s.held := rfl
@[simp] theorem Ops.resetBuffer_out_trace (s : State) : (Ops.resetBuffer .out s).trace = s.trace := rfl
@[simp] theorem Ops.resetBuffer_out_serv (s : State) : (Ops.resetBuffer .out s).serv = s.serv := rfl
@[simp] theorem Ops.resetBuffer_out_starter (s : State) : (Ops.resetBuffer .out s).starter = s.starter := rfl
@[simp] theorem Ops.resetBuffer_out_caller (s : State) : (Ops.resetBuffer .out s).caller = s.caller := rfl
@[simp] theorem Ops.resetBuffer_out_ret (s : State) : (Ops.resetBuffer .out s).ret = s.ret := rfl
@[simp] theorem Ops.resetBuffer_out_script (s : State) : (Ops.resetBuffer .out s).script = s.script := rfl
@[simp] theorem Ops.resetBuffer_out_internal (s : State) : (Ops.resetBuffer .out s).internal = s.internal := rfl

/-! ### `FB_RESET(IN)` -/

@[simp] theorem Ops.resetBuffer_inp_cfg (s : State) : (Ops.resetBuffer .inp s).cfg = s.cfg := rfl
@[simp] theorem Ops.resetBuffer_inp_outb (s : State) : (Ops.resetBuffer .inp s).outb = s.outb := rfl
@[simp] theorem Ops.resetBuffer_inp_inb (s : State) : (Ops.resetBuffer .inp s).inb = [] := rfl
@[simp] theorem Ops.resetBuffer_inp_dt (s : State) : (Ops.resetBuffer .inp s).dt = s.dt := rfl
@[simp] theorem Ops.resetBuffer_inp_tap (s : State) : (Ops.resetBuffer .inp s).tap = s.tap := rfl
@[simp] theorem Ops.resetBuffer_inp_phase (s : State) : (Ops.resetBuffer .inp s).phase = s.phase := rfl
@[simp] theorem Ops.resetBuffer_inp_irqPending (s : State) : (Ops.resetBuffer .inp s).irqPending = s.irqPending := rfl
@[simp] theorem Ops.resetBuffer_inp_parse (s : State) : (Ops.resetBuffer .inp s).parse = s.parse := rfl
@[simp] theorem Ops.resetBuffer_inp_pv (s : State) : (Ops.resetBuffer .inp s).pv = s.pv := rfl
@[simp] theorem Ops.resetBuffer_inp_held (s : State) : (Ops.resetBuffer .inp s).held = s.held := rfl
@[simp] theorem Ops.resetBuffer_inp_trace (s : State) : (Ops.resetBuffer .inp s).trace = s.trace := rfl
@[simp] theorem Ops.resetBuffer_inp_serv (s : State) : (Ops.resetBuffer .inp s).serv = s.serv := rfl
@[simp] theorem Ops.resetBuffer_inp_starter (s : State) : (Ops.resetBuffer .inp s).starter = s.starter := rfl
@[simp] theorem Ops.resetBuffer_inp_caller (s : State) : (Ops.resetBuffer .inp s).caller = s.caller := rfl
@[simp] theorem Ops.resetBuffer_inp_ret (s : State) : (Ops.resetBuffer .inp s).ret = s.ret := rfl
@[simp] theorem Ops.resetBuffer_inp_script (s : State) : (Ops.resetBuffer .inp s).script = s.script := rfl
@[simp] theorem Ops.resetBuffer_inp_internal (s : State) : (Ops.resetBuffer .inp s).internal = s.internal := rfl

/-! ### A table entry -/

@[simp] theorem Ops.setEntry_cfg (ch : Byte) (h x : Nat) (s : State) : (Ops.setEntry ch h x s).cfg = s.cfg := rfl
@[simp] theorem Ops.setEntry_outb (ch : Byte) (h x : Nat) (s : State) : (Ops.setEntry ch h x s).outb = s.outb := rfl
@[simp] theorem Ops.setEntry_inb (ch : Byte) (h x : Nat) (s : State) : (Ops.setEntry ch h x s).inb = s.inb := rfl
@[simp] theorem Ops.setEntry_dt (ch : Byte) (h x : Nat) (s : State) :
    (Ops.setEntry ch h x s).dt = s.dt.set ch.toNat ⟨toWidth s.cfg.handlerW h, toWidth s.cfg.ctxW x⟩ := rfl
@[simp] theorem Ops.setEntry_tap (ch : Byte) (h x : Nat) (s : State) : (Ops.setEntry ch h x s).tap = s.tap := rfl
@[simp] theorem Ops.setEntry_phase (ch : Byte) (h x : Nat) (s : State) :
    (Ops.setEntry ch h x s).phase = s.phase := rfl
@[simp] theorem Ops.setEntry_irqPending (ch : Byte) (h x : Nat) (s : State) :
    (Ops.setEntry ch h x s).irqPending = s.irqPending := rfl
@[simp] theorem Ops.setEntry_parse (ch : Byte) (h x : Nat) (s : State) :
    (Ops.setEntry ch h x s).parse = s.parse := rfl
@[simp] theorem Ops.setEntry_pv (ch : Byte) (h x : Nat) (s : State) : (Ops.setEntry ch h x s).pv = s.pv := rfl
@[simp] theorem Ops.setEntry_held (ch : Byte) (h x : Nat) (s : State) : (Ops.setEntry ch h x s).held = s.held := rfl
@[simp] theorem Ops.setEntry_trace (ch : Byte) (h x : Nat) (s : State) :
    (Ops.setEntry ch h x s).trace = s.trace := rfl
@[simp] theorem Ops.setEntry_serv (ch : Byte) (h x : Nat) (s : State) : (Ops.setEntry ch h x s).serv = s.serv := rfl
@[simp] theorem Ops.setEntry_starter (ch : Byte) (h x : Nat) (s : State) :
    (Ops.setEntry ch h x s).starter = s.starter := rfl
@[simp] theorem Ops.setEntry_caller (ch : Byte) (h x : Nat) (s : State) :
    (Ops.setEntry ch h x s).caller = s.caller := rfl
@[simp] theorem Ops.setEntry_ret (ch : Byte) (h x : Nat) (s : State) : (Ops.setEntry ch h x s).ret = s.ret := rfl
@[simp] theorem Ops.setEntry_script (ch : Byte) (h x : Nat) (s : State) :
    (Ops.setEntry ch h x s).script = s.script := rfl
@[simp] theorem Ops.setEntry_internal (ch : Byte) (h x : Nat) (s : State) :
    (Ops.setEntry ch h x s).internal = s.internal := rfl

/-! ### The tap -/

@[simp] theorem Ops.setTap_cfg (h x : Nat) (s : State) : (Ops.setTap h x s).cfg = s.cfg := rfl
@[simp] theorem Ops.setTap_outb (h x : Nat) (s : State) : (Ops.setTap h x s).outb = s.outb := rfl
@[simp] theorem Ops.setTap_inb (h x : Nat) (s : State) : (Ops.setTap h x s).inb = s.inb := rfl
@[simp] theorem Ops.setTap_dt (h x : Nat) (s : State) : (Ops.setTap h x s).dt = s.dt := rfl
@[simp] theorem Ops.setTap_tap (h x : Nat) (s : State) :
    (Ops.setTap h x s).tap = ⟨toWidth s.cfg.handlerW h != 0, toWidth s.cfg.handlerW h, toWidth s.cfg.ctxW x⟩ := rfl
@[simp] theorem Ops.setTap_phase (h x : Nat) (s : State) : (Ops.setTap h x s).phase = s.phase := rfl
@[simp] theorem Ops.setTap_irqPending (h x : Nat) (s : State) : (Ops.setTap h x s).irqPending = s.irqPending := rfl
@[simp] theorem Ops.setTap_parse (h x : Nat) (s : State) : (Ops.setTap h x s).parse = s.parse := rfl
@[simp] theorem Ops.setTap_pv (h x : Nat) (s : State) : (Ops.setTap h x s).pv = s.pv := rfl
@[simp] theorem Ops.setTap_held (h x : Nat) (s : State) : (Ops.setTap h x s).held = s.held := rfl
@[simp] theorem Ops.setTap_trace (h x : Nat) (s : State) : (Ops.setTap h x s).trace = s.trace := rfl
@[simp] theorem Ops.setTap_serv (h x : Nat) (s : State) : (Ops.setTap h x s).serv = s.serv := rfl
@[simp] theorem Ops.setTap_starter (h x : Nat) (s : State) : (Ops.setTap h x s).starter = s.starter := rfl
@[simp] theorem Ops.setTap_caller (h x : Nat) (s : State) : (Ops.setTap h x s).caller = s.caller := rfl
@[simp] theorem Ops.setTap_ret (h x : Nat) (s : State) : (Ops.setTap h x s).ret = s.ret := rfl
@[simp] theorem Ops.setTap_script (h x : Nat) (s : State) : (Ops.setTap h x s).script = s.script := rfl
@[simp] theorem Ops.setTap_internal (h x : Nat) (s : State) : (Ops.setTap h x s).internal = s.internal := rfl

/-! ### An invocation -/

@[simp] theorem Ops.invoke_cfg (h x : Nat) (v : PacketView) (s : State) : (Ops.invoke h x v s).cfg = s.cfg := rfl
@[simp] theorem Ops.invoke_outb (h x : Nat) (v : PacketView) (s : State) : (Ops.invoke h x v s).outb = s.outb := rfl
@[simp] theorem Ops.invoke_inb (h x : Nat) (v : PacketView) (s : State) : (Ops.invoke h x v s).inb = s.inb := rfl
@[simp] theorem Ops.invoke_dt (h x : Nat) (v : PacketView) (s : State) : (Ops.invoke h x v s).dt = s.dt := rfl
@[simp] theorem Ops.invoke_tap (h x : Nat) (v : PacketView) (s : State) : (Ops.invoke h x v s).tap = s.tap := rfl
@[simp] theorem Ops.invoke_phase (h x : Nat) (v : PacketView) (s : State) :
    (Ops.invoke h x v s).phase = s.phase := rfl
@[simp] theorem Ops.invoke_irqPending (h x : Nat) (v : PacketView) (s : State) :
    (Ops.invoke h x v s).irqPending = s.irqPending := rfl
@[simp] theorem Ops.invoke_parse (h x : Nat) (v : PacketView) (s : State) :
    (Ops.invoke h x v s).parse = s.parse := rfl
@[simp] theorem Ops.invoke_pv (h x : Nat) (v : PacketView) (s : State) : (Ops.invoke h x v s).pv = some v := rfl
@[simp] theorem Ops.invoke_held (h x : Nat) (v : PacketView) (s : State) : (Ops.invoke h x v s).held = s.held := rfl
@[simp] theorem Ops.invoke_trace (h x : Nat) (v : PacketView) (s : State) :
    (Ops.invoke h x v s).trace = s.trace ++ [.dispatch h x v] := rfl
@[simp] theorem Ops.invoke_serv (h x : Nat) (v : PacketView) (s : State) :
    (Ops.invoke h x v s).serv = some (.handler h x) := rfl
@[simp] theorem Ops.invoke_starter (h x : Nat) (v : PacketView) (s : State) :
    (Ops.invoke h x v s).starter = s.starter := rfl
@[simp] theorem Ops.invoke_caller (h x : Nat) (v : PacketView) (s : State) :
    (Ops.invoke h x v s).caller = s.caller := rfl
@[simp] theorem Ops.invoke_ret (h x : Nat) (v : PacketView) (s : State) : (Ops.invoke h x v s).ret = s.ret := rfl
@[simp] theorem Ops.invoke_script (h x : Nat) (v : PacketView) (s : State) :
    (Ops.invoke h x v s).script = s.script := rfl
@[simp] theorem Ops.invoke_internal (h x : Nat) (v : PacketView) (s : State) :
    (Ops.invoke h x v s).internal = s.internal := rfl

/-! ### A tapped frame -/

@[simp] theorem Ops.forwardTap_cfg (s : State) : (Ops.forwardTap s).cfg = s.cfg := rfl
@[simp] theorem Ops.forwardTap_outb (s : State) : (Ops.forwardTap s).outb = s.outb := rfl
@[simp] theorem Ops.forwardTap_inb (s : State) : (Ops.forwardTap s).inb = s.inb := rfl
@[simp] theorem Ops.forwardTap_dt (s : State) : (Ops.forwardTap s).dt = s.dt := rfl
@[simp] theorem Ops.forwardTap_tap (s : State) : (Ops.forwardTap s).tap = s.tap := rfl
@[simp] theorem Ops.forwardTap_phase (s : State) : (Ops.forwardTap s).phase = s.phase := rfl
@[simp] theorem Ops.forwardTap_irqPending (s : State) : (Ops.forwardTap s).irqPending = s.irqPending := rfl
@[simp] theorem Ops.forwardTap_parse (s : State) : (Ops.forwardTap s).parse = s.parse := rfl
@[simp] theorem Ops.forwardTap_pv (s : State) : (Ops.forwardTap s).pv = s.pv := rfl
@[simp] theorem Ops.forwardTap_held (s : State) : (Ops.forwardTap s).held = s.held := rfl
@[simp] theorem Ops.forwardTap_trace (s : State) :
    (Ops.forwardTap s).trace = s.trace ++ [.tap s.tap.handler s.tap.context (s.inb.slice 0 s.cfg.n)] := rfl
@[simp] theorem Ops.forwardTap_serv (s : State) :
    (Ops.forwardTap s).serv = some (.tap s.tap.handler s.tap.context) := rfl
@[simp] theorem Ops.forwardTap_starter (s : State) : (Ops.forwardTap s).starter = s.starter := rfl
@[simp] theorem Ops.forwardTap_caller (s : State) : (Ops.forwardTap s).caller = s.caller := rfl
@[simp] theorem Ops.forwardTap_ret (s : State) : (Ops.forwardTap s).ret = s.ret := rfl
@[simp] theorem Ops.forwardTap_script (s : State) : (Ops.forwardTap s).script = s.script := rfl
@[simp] theorem Ops.forwardTap_internal (s : State) : (Ops.forwardTap s).internal = s.internal := rfl

/-! ### The start of a cycle -/

@[simp] theorem Ops.startCycle_cfg (st : Starter) (s : State) : (Ops.startCycle st s).cfg = s.cfg := rfl
@[simp] theorem Ops.startCycle_outb (st : Starter) (s : State) : (Ops.startCycle st s).outb = s.outb := rfl
@[simp] theorem Ops.startCycle_inb (st : Starter) (s : State) : (Ops.startCycle st s).inb = s.inb := rfl
@[simp] theorem Ops.startCycle_dt (st : Starter) (s : State) : (Ops.startCycle st s).dt = s.dt := rfl
@[simp] theorem Ops.startCycle_tap (st : Starter) (s : State) : (Ops.startCycle st s).tap = s.tap := rfl
@[simp] theorem Ops.startCycle_phase (st : Starter) (s : State) : (Ops.startCycle st s).phase = .xfer := rfl
@[simp] theorem Ops.startCycle_irqPending (st : Starter) (s : State) :
    (Ops.startCycle st s).irqPending = s.irqPending := rfl
@[simp] theorem Ops.startCycle_parse (st : Starter) (s : State) : (Ops.startCycle st s).parse = .notBegun := rfl
@[simp] theorem Ops.startCycle_pv (st : Starter) (s : State) : (Ops.startCycle st s).pv = s.pv := rfl
@[simp] theorem Ops.startCycle_held (st : Starter) (s : State) : (Ops.startCycle st s).held = s.held := rfl
@[simp] theorem Ops.startCycle_trace (st : Starter) (s : State) :
    (Ops.startCycle st s).trace = s.trace ++ [.linkRequest (s.outb.slice 0 s.cfg.n)] := rfl
@[simp] theorem Ops.startCycle_serv (st : Starter) (s : State) : (Ops.startCycle st s).serv = s.serv := rfl
@[simp] theorem Ops.startCycle_starter (st : Starter) (s : State) : (Ops.startCycle st s).starter = st := rfl
@[simp] theorem Ops.startCycle_caller (st : Starter) (s : State) : (Ops.startCycle st s).caller = s.caller := rfl
@[simp] theorem Ops.startCycle_ret (st : Starter) (s : State) : (Ops.startCycle st s).ret = s.ret := rfl
@[simp] theorem Ops.startCycle_script (st : Starter) (s : State) : (Ops.startCycle st s).script = s.script := rfl
@[simp] theorem Ops.startCycle_internal (st : Starter) (s : State) :
    (Ops.startCycle st s).internal = s.internal := rfl

/-! ### The report and the end of a cycle -/

@[simp] theorem Ops.reportCycle_cfg (r : Result) (s : State) : (Ops.reportCycle r s).cfg = s.cfg := by
  unfold Ops.reportCycle; split <;> (try split) <;> rfl
@[simp] theorem Ops.reportCycle_outb (r : Result) (s : State) : (Ops.reportCycle r s).outb = s.outb := by
  unfold Ops.reportCycle; split <;> (try split) <;> rfl
@[simp] theorem Ops.reportCycle_inb (r : Result) (s : State) : (Ops.reportCycle r s).inb = s.inb := by
  unfold Ops.reportCycle; split <;> (try split) <;> rfl
@[simp] theorem Ops.reportCycle_dt (r : Result) (s : State) : (Ops.reportCycle r s).dt = s.dt := by
  unfold Ops.reportCycle; split <;> (try split) <;> rfl
@[simp] theorem Ops.reportCycle_tap (r : Result) (s : State) : (Ops.reportCycle r s).tap = s.tap := by
  unfold Ops.reportCycle; split <;> (try split) <;> rfl
@[simp] theorem Ops.reportCycle_phase (r : Result) (s : State) : (Ops.reportCycle r s).phase = s.phase := by
  unfold Ops.reportCycle; split <;> (try split) <;> rfl
@[simp] theorem Ops.reportCycle_irqPending (r : Result) (s : State) : (Ops.reportCycle r s).irqPending = s.irqPending := by
  unfold Ops.reportCycle; split <;> (try split) <;> rfl
@[simp] theorem Ops.reportCycle_parse (r : Result) (s : State) : (Ops.reportCycle r s).parse = s.parse := by
  unfold Ops.reportCycle; split <;> (try split) <;> rfl
@[simp] theorem Ops.reportCycle_pv (r : Result) (s : State) : (Ops.reportCycle r s).pv = s.pv := by
  unfold Ops.reportCycle; split <;> (try split) <;> rfl
@[simp] theorem Ops.reportCycle_held (r : Result) (s : State) : (Ops.reportCycle r s).held = s.held := by
  unfold Ops.reportCycle; split <;> (try split) <;> rfl
@[simp] theorem Ops.reportCycle_serv (r : Result) (s : State) : (Ops.reportCycle r s).serv = s.serv := by
  unfold Ops.reportCycle; split <;> (try split) <;> rfl
@[simp] theorem Ops.reportCycle_starter (r : Result) (s : State) : (Ops.reportCycle r s).starter = s.starter := by
  unfold Ops.reportCycle; split <;> (try split) <;> rfl
@[simp] theorem Ops.reportCycle_caller (r : Result) (s : State) : (Ops.reportCycle r s).caller = s.caller := by
  unfold Ops.reportCycle; split <;> (try split) <;> rfl
@[simp] theorem Ops.reportCycle_script (r : Result) (s : State) : (Ops.reportCycle r s).script = s.script := by
  unfold Ops.reportCycle; split <;> (try split) <;> rfl
@[simp] theorem Ops.reportCycle_internal (r : Result) (s : State) : (Ops.reportCycle r s).internal = s.internal := by
  unfold Ops.reportCycle; split <;> (try split) <;> rfl
@[simp] theorem Ops.endCycle_cfg (r : Result) (s : State) : (Ops.endCycle r s).cfg = s.cfg :=
  Ops.reportCycle_cfg r s
@[simp] theorem Ops.endCycle_outb (r : Result) (s : State) : (Ops.endCycle r s).outb = s.outb :=
  Ops.reportCycle_outb r s
@[simp] theorem Ops.endCycle_inb (r : Result) (s : State) : (Ops.endCycle r s).inb = [] := rfl
@[simp] theorem Ops.endCycle_dt (r : Result) (s : State) : (Ops.endCycle r s).dt = s.dt :=
  Ops.reportCycle_dt r s
@[simp] theorem Ops.endCycle_tap (r : Result) (s : State) : (Ops.endCycle r s).tap = s.tap :=
  Ops.reportCycle_tap r s
@[simp] theorem Ops.endCycle_phase (r : Result) (s : State) : (Ops.endCycle r s).phase = .idle := rfl
@[simp] theorem Ops.endCycle_irqPending (r : Result) (s : State) : (Ops.endCycle r s).irqPending = s.irqPending :=
  Ops.reportCycle_irqPending r s
@[simp] theorem Ops.endCycle_parse (r : Result) (s : State) : (Ops.endCycle r s).parse = .notBegun := rfl
@[simp] theorem Ops.endCycle_pv (r : Result) (s : State) : (Ops.endCycle r s).pv = none := rfl
@[simp] theorem Ops.endCycle_held (r : Result) (s : State) : (Ops.endCycle r s).held = s.held :=
  Ops.reportCycle_held r s
@[simp] theorem Ops.endCycle_trace (r : Result) (s : State) :
    (Ops.endCycle r s).trace = (Ops.reportCycle r s).trace := rfl
@[simp] theorem Ops.endCycle_serv (r : Result) (s : State) : (Ops.endCycle r s).serv = none := rfl
@[simp] theorem Ops.endCycle_starter (r : Result) (s : State) : (Ops.endCycle r s).starter = .nobody := rfl
@[simp] theorem Ops.endCycle_caller (r : Result) (s : State) : (Ops.endCycle r s).caller = s.caller :=
  Ops.reportCycle_caller r s
@[simp] theorem Ops.endCycle_ret (r : Result) (s : State) :
    (Ops.endCycle r s).ret = (Ops.reportCycle r s).ret := rfl
@[simp] theorem Ops.endCycle_script (r : Result) (s : State) : (Ops.endCycle r s).script = s.script :=
  Ops.reportCycle_script r s
@[simp] theorem Ops.endCycle_internal (r : Result) (s : State) : (Ops.endCycle r s).internal = s.internal :=
  Ops.reportCycle_internal r s

/-! ### `FB_APPEND` -/

@[simp] theorem Ops.append_cfg (c o : Byte) (p : List Byte) (s : State) : (Ops.append c o p s).1.cfg = s.cfg := by
  unfold Ops.append; split <;> rfl
@[simp] theorem Ops.append_outb (c o : Byte) (p : List Byte) (s : State) :
    (Ops.append c o p s).1.outb = if appendFits s.cfg s.outb p then Ops.appended s.outb c o p else s.outb := by
  unfold Ops.append; split <;> rfl
@[simp] theorem Ops.append_inb (c o : Byte) (p : List Byte) (s : State) : (Ops.append c o p s).1.inb = s.inb := by
  unfold Ops.append; split <;> rfl
@[simp] theorem Ops.append_dt (c o : Byte) (p : List Byte) (s : State) : (Ops.append c o p s).1.dt = s.dt := by
  unfold Ops.append; split <;> rfl
@[simp] theorem Ops.append_tap (c o : Byte) (p : List Byte) (s : State) : (Ops.append c o p s).1.tap = s.tap := by
  unfold Ops.append; split <;> rfl
@[simp] theorem Ops.append_phase (c o : Byte) (p : List Byte) (s : State) : (Ops.append c o p s).1.phase = s.phase := by
  unfold Ops.append; split <;> rfl
@[simp] theorem Ops.append_irqPending (c o : Byte) (p : List Byte) (s : State) : (Ops.append c o p s).1.irqPending = s.irqPending := by
  unfold Ops.append; split <;> rfl
@[simp] theorem Ops.append_parse (c o : Byte) (p : List Byte) (s : State) : (Ops.append c o p s).1.parse = s.parse := by
  unfold Ops.append; split <;> rfl
@[simp] theorem Ops.append_pv (c o : Byte) (p : List Byte) (s : State) : (Ops.append c o p s).1.pv = s.pv := by
  unfold Ops.append; split <;> rfl
@[simp] theorem Ops.append_held (c o : Byte) (p : List Byte) (s : State) : (Ops.append c o p s).1.held = s.held := by
  unfold Ops.append; split <;> rfl
@[simp] theorem Ops.append_trace (c o : Byte) (p : List Byte) (s : State) : (Ops.append c o p s).1.trace = s.trace := by
  unfold Ops.append; split <;> rfl
@[simp] theorem Ops.append_serv (c o : Byte) (p : List Byte) (s : State) : (Ops.append c o p s).1.serv = s.serv := by
  unfold Ops.append; split <;> rfl
@[simp] theorem Ops.append_starter (c o : Byte) (p : List Byte) (s : State) : (Ops.append c o p s).1.starter = s.starter := by
  unfold Ops.append; split <;> rfl
@[simp] theorem Ops.append_caller (c o : Byte) (p : List Byte) (s : State) : (Ops.append c o p s).1.caller = s.caller := by
  unfold Ops.append; split <;> rfl
@[simp] theorem Ops.append_ret (c o : Byte) (p : List Byte) (s : State) : (Ops.append c o p s).1.ret = s.ret := by
  unfold Ops.append; split <;> rfl
@[simp] theorem Ops.append_script (c o : Byte) (p : List Byte) (s : State) : (Ops.append c o p s).1.script = s.script := by
  unfold Ops.append; split <;> rfl
@[simp] theorem Ops.append_internal (c o : Byte) (p : List Byte) (s : State) : (Ops.append c o p s).1.internal = s.internal := by
  unfold Ops.append; split <;> rfl

end Sys2Proof.Machine
end

