-- ==== Sys2Proof/Laws/Ops.lean ====
section
/-! SUPPORT. What the shared operations do, each said once: the tests as propositions, what an append leaves in the
accumulator, and the cases of the decoder, the parser, the link's answer and a handler's done. -/

namespace Sys2Proof.Machine

/-! ## The tests -/

theorem checksumValid_iff {size checksum : Word} :
    checksumValid size checksum = true ↔ checksum = checksumOf size := by
  unfold checksumValid; exact decide_eq_true_iff

theorem checksumValid_false_iff {size checksum : Word} :
    checksumValid size checksum = false ↔ checksum ≠ checksumOf size := by
  unfold checksumValid; exact decide_eq_false_iff_not

/-- R111: `need <= remaining`, with the size field inside the buffer. -/
theorem appendFits_iff {c : Config} {m : Memory} {p : List Byte} :
    appendFits c m p = true ↔ m.frameSize.toNat + (4 + p.length) ≤ c.cap := by
  unfold appendFits appendNeed appendRemaining
  rw [decide_eq_true_iff]; omega

theorem appendFits_false_iff {c : Config} {m : Memory} {p : List Byte} :
    appendFits c m p = false ↔ c.cap < m.frameSize.toNat + (4 + p.length) := by
  rw [← Bool.not_eq_true, appendFits_iff]; omega

theorem sizeOverrun_iff {c : Config} {v : Word} : sizeOverrun c v = true ↔ c.cap < v.toNat := by
  unfold sizeOverrun; exact decide_eq_true_iff

theorem payloadOversized_iff {c : Config} {v : Word} : payloadOversized c v = true ↔ c.pmax < v.toNat := by
  unfold payloadOversized; exact decide_eq_true_iff

theorem isSentinel_iff {ch : Byte} {ps : Word} : isSentinel ch ps = true ↔ ch = 0#8 ∨ ps = 0#16 := by
  unfold isSentinel; exact decide_eq_true_iff

theorem parserReads_iff {s : State} :
    Ops.parserReads s = true ↔ s.phase = .disp ∧ s.tap.valid = false := by
  unfold Ops.parserReads; simp

/-! ## The empty frame and the accumulator -/

@[simp] theorem frameSize_nil : Memory.frameSize [] = 0#16 := rfl
@[simp] theorem frameChecksum_nil : Memory.frameChecksum [] = 0x5555#16 := rfl
@[simp] theorem content_nil : Memory.content [] = [] := rfl

/-- A 16-bit field reads as what its two bytes hold. -/
theorem Memory.read16_congr {m m' : Memory} {off : Nat} (h0 : m.read off = m'.read off)
    (h1 : m.read (off + 1) = m'.read (off + 1)) : m.read16 off = m'.read16 off := by
  simp [Memory.read16, h0, h1]

/-- `FB_APPEND` keeps the canonical form (R111). -/
theorem appended_wf {c : Config} {m : Memory} {ch op : Byte} {p : List Byte} (hn : 9 ≤ c.n) (hw : m.wf c.n = true)
    (hf : appendFits c m p = true) : (Ops.appended m ch op p).wf c.n = true := by
  rw [appendFits_iff, Config.cap] at hf
  unfold Ops.appended
  refine Memory.write16_wf (Memory.write16_wf (Memory.writeBytes_wf hw ?_) (by omega)) (by omega)
  rw [subPacketBytes_length]; omega

/-- What every byte of the accumulator reads as after an append (R111). -/
theorem appended_read {c : Config} {m : Memory} {ch op : Byte} {p : List Byte} (hn : 9 ≤ c.n) (hw : m.wf c.n = true)
    (hf : appendFits c m p = true) (o : Nat) :
    (Ops.appended m ch op p).read o =
      if o = 0 then loByte (BitVec.ofNat 16 (m.frameSize.toNat + (4 + p.length)))
      else if o = 1 then hiByte (BitVec.ofNat 16 (m.frameSize.toNat + (4 + p.length)))
      else if o = 2 then loByte (checksumOf (BitVec.ofNat 16 (m.frameSize.toNat + (4 + p.length))))
      else if o = 3 then hiByte (checksumOf (BitVec.ofNat 16 (m.frameSize.toNat + (4 + p.length))))
      else if 4 + m.frameSize.toNat ≤ o ∧ o < 4 + m.frameSize.toNat + (4 + p.length) then
        (subPacketBytes ch op p).getD (o - (4 + m.frameSize.toNat)) 0#8
      else m.read o := by
  rw [appendFits_iff, Config.cap] at hf
  have hb : 4 + m.frameSize.toNat + (subPacketBytes ch op p).length ≤ c.n := by
    rw [subPacketBytes_length]; omega
  have h1 := Memory.writeBytes_wf (bs := subPacketBytes ch op p) hw hb
  have h2 := Memory.write16_wf (v := BitVec.ofNat 16 (m.frameSize.toNat + (4 + p.length))) (off := 0) h1 (by omega)
  unfold Ops.appended appendNeed
  rw [Memory.read_write16 (n := c.n) h2 (Nat.zero_le _) (by omega),
    Memory.read_write16 (n := c.n) h1 (Nat.zero_le _) (by omega),
    Memory.read_writeBytes (n := c.n) hw (Nat.zero_le _) hb, subPacketBytes_length]
  by_cases e2 : o = 2
  · simp [e2]
  · by_cases e3 : o = 3
    · simp [e3]
    · simp [e2, e3]

/-- The size field after an append (R111). -/
theorem appended_frameSize {c : Config} {m : Memory} {ch op : Byte} {p : List Byte} (hn : 9 ≤ c.n)
    (hw : m.wf c.n = true) (hf : appendFits c m p = true) :
    (Ops.appended m ch op p).frameSize = BitVec.ofNat 16 (m.frameSize.toNat + (4 + p.length)) := by
  unfold Memory.frameSize Memory.read16
  rw [appended_read hn hw hf, appended_read hn hw hf]
  simp [Memory.frameSize, Memory.read16]

/-- The checksum field after an append (R111). -/
theorem appended_frameChecksum {c : Config} {m : Memory} {ch op : Byte} {p : List Byte} (hn : 9 ≤ c.n)
    (hw : m.wf c.n = true) (hf : appendFits c m p = true) :
    (Ops.appended m ch op p).frameChecksum = checksumOf (Ops.appended m ch op p).frameSize := by
  rw [appended_frameSize hn hw hf]
  unfold Memory.frameChecksum Memory.read16
  rw [appended_read hn hw hf, appended_read hn hw hf]
  simp

/-- The result of `FB_APPEND` (R111). -/
theorem append_result (ch op : Byte) (p : List Byte) (s : State) :
    (Ops.append ch op p s).2 = if appendFits s.cfg s.outb p then .ok else .noSpace := by
  unfold Ops.append; split <;> rfl

/-- An append that fits. -/
theorem append_of_fits {ch op : Byte} {p : List Byte} {s : State} (h : appendFits s.cfg s.outb p = true) :
    Ops.append ch op p s = ({ s with outb := Ops.appended s.outb ch op p }, .ok) := by
  simp [Ops.append, h]

/-- An append that does not fit. -/
theorem append_of_not_fits {ch op : Byte} {p : List Byte} {s : State} (h : appendFits s.cfg s.outb p = false) :
    Ops.append ch op p s = (s, .noSpace) := by
  simp [Ops.append, h]

@[simp] theorem raiseAll_nil (s : State) : Ops.raiseAll [] s = s := by
  simp [Ops.raiseAll]

/-! ## The decoder -/

/-- The cases of `DECODE` once its header is read (R102). -/
theorem decodeFields_cases (c : Config) (m : Memory) (pos rem : Nat) (ch op : Byte) (ps : Word) :
    ((ch = 0#8 ∨ ps = 0#16) ∧ Ops.decodeFields c m pos rem ch op ps = (.sentinel, false)) ∨
    (ch ≠ 0#8 ∧ ps ≠ 0#16 ∧ rem < 4 + min ps.toNat c.pmax ∧
      Ops.decodeFields c m pos rem ch op ps = (.malformed, payloadOversized c ps)) ∨
    (ch ≠ 0#8 ∧ ps ≠ 0#16 ∧ 4 + min ps.toNat c.pmax ≤ rem ∧ c.n < pos + 4 + min ps.toNat c.pmax ∧
      Ops.decodeFields c m pos rem ch op ps = (.outside, payloadOversized c ps)) ∨
    (ch ≠ 0#8 ∧ ps ≠ 0#16 ∧ 4 + min ps.toNat c.pmax ≤ rem ∧ pos + 4 + min ps.toNat c.pmax ≤ c.n ∧
      Ops.decodeFields c m pos rem ch op ps =
        (.view ⟨ch, op, BitVec.ofNat 16 (min ps.toNat c.pmax), m.slice (pos + 4) (min ps.toNat c.pmax)⟩
          (4 + ps.toNat), payloadOversized c ps)) := by
  unfold Ops.decodeFields payloadTaken
  by_cases h : isSentinel ch ps = true
  · left; exact ⟨isSentinel_iff.mp h, by rw [if_pos h]⟩
  · right
    rw [if_neg h]
    rw [isSentinel_iff, not_or] at h
    by_cases h1 : rem < 4 + min ps.toNat c.pmax
    · left; exact ⟨h.1, h.2, h1, by rw [if_pos h1]⟩
    · right
      rw [if_neg h1]
      by_cases h2 : c.n < pos + 4 + min ps.toNat c.pmax
      · left; exact ⟨h.1, h.2, by omega, h2, by rw [if_pos h2]⟩
      · right; exact ⟨h.1, h.2, by omega, by omega, by rw [if_neg h2]⟩

/-- With the header inside the slice and the slice inside the buffer, `DECODE` is the reading of its four header
bytes (R102). -/
theorem decodeAt_of_header {c : Config} {m : Memory} {pos rem : Nat} (h4 : 4 ≤ rem) (hn : pos + 4 ≤ c.n) :
    Ops.decodeAt c m pos rem =
      Ops.decodeFields c m pos rem (m.read pos) (m.read (pos + 1)) (m.read16 (pos + 2)) := by
  unfold Ops.decodeAt
  rw [if_neg (by omega), if_neg (by omega)]

/-- A slice shorter than the header (R102 case (a)). -/
theorem decodeAt_of_short {c : Config} {m : Memory} {pos rem : Nat} (h : rem < 4) :
    Ops.decodeAt c m pos rem = (.malformed, false) := by
  unfold Ops.decodeAt
  rw [if_pos h]

/-! ## The parser -/

/-- One round of a running parse that waits for a header is the loop test, then the reading of that header (R114). -/
theorem parseRound_of_running {ch op : Byte} {ps : Word} {s : State} {cur : Cursor} (hr : Ops.parserReads s = true)
    (hp : s.parse = .running cur) (hv : s.pv = none) :
    Ops.parseRound ch op ps s =
      if cur.rem ≤ 0 then .next { s with parse := .ended }
      else if cur.rem < 4 then .next { Ops.raiseAll [Ops.malformedDiag cur.pos cur.rem] s with parse := .ended }
      else
        match Ops.decodeFields s.cfg s.inb cur.pos cur.rem.toNat ch op ps with
        | (.sentinel, _) => .next { s with parse := .ended }
        | (.malformed, big) =>
          .next { Ops.raiseAll (Ops.oversizeDiag big cur.pos ps ++ [Ops.malformedDiag cur.pos cur.rem]) s with
            parse := .ended }
        | (.view v consumed, big) =>
          .next { Ops.raiseAll (Ops.oversizeDiag big cur.pos ps) s with
            pv := some v, parse := .running ⟨cur.lim, cur.pos + consumed, cur.rem - consumed⟩ }
        | (.outside, _) => .fault .outsideBuffer := by
  unfold Ops.parseRound
  split
  · rename_i cur' _ hp' _
    rw [hp] at hp'
    cases hp'
    rfl
  · rename_i hn
    exact absurd hv (hn cur hr hp)

/-- What one round of the parser can do (R114). -/
theorem parseRound_cases {ch op : Byte} {ps : Word} {s s' : State} (h : Ops.parseRound ch op ps s = .next s') :
    s' = s ∨
    ∃ cur, Ops.parserReads s = true ∧ s.parse = .running cur ∧ s.pv = none ∧
      (s' = { s with parse := .ended } ∨
       (∃ ds, s' = { Ops.raiseAll ds s with parse := .ended }) ∨
       (∃ ds, ch ≠ 0#8 ∧ ps ≠ 0#16 ∧ 4 ≤ cur.rem ∧ 4 + min ps.toNat s.cfg.pmax ≤ cur.rem.toNat ∧
        s' = { Ops.raiseAll ds s with
          pv := some ⟨ch, op, BitVec.ofNat 16 (min ps.toNat s.cfg.pmax),
            s.inb.slice (cur.pos + 4) (min ps.toNat s.cfg.pmax)⟩,
          parse := .running ⟨cur.lim, cur.pos + (4 + ps.toNat), cur.rem - ((4 + ps.toNat : Nat) : Int)⟩ })) := by
  unfold Ops.parseRound at h
  split at h
  · rename_i cur hr hp hv
    right
    refine ⟨cur, hr, hp, hv, ?_⟩
    by_cases h1 : cur.rem ≤ 0
    · rw [if_pos h1] at h; left; simpa using h.symm
    · rw [if_neg h1] at h
      by_cases h2 : cur.rem < 4
      · rw [if_pos h2] at h; right; left; exact ⟨_, (Host.Outcome.next.inj h).symm⟩
      · rw [if_neg h2] at h
        rcases decodeFields_cases s.cfg s.inb cur.pos cur.rem.toNat ch op ps with
          ⟨-, e⟩ | ⟨-, -, -, e⟩ | ⟨-, -, -, -, e⟩ | ⟨hc, hp0, hl, -, e⟩
        · rw [e] at h; left; simpa using h.symm
        · rw [e] at h; right; left; exact ⟨_, (Host.Outcome.next.inj h).symm⟩
        · rw [e] at h; simp at h
        · rw [e] at h; right; right; exact ⟨_, hc, hp0, by omega, hl, (Host.Outcome.next.inj h).symm⟩
  · left; simpa using h.symm

/-- What the parser can do with a frame header (R135, R113). -/
theorem parseHeader_cases (size checksum : Word) (s : State) :
    Ops.parseHeader size checksum s = s ∨
    (Ops.parserReads s = true ∧ s.parse = .notBegun ∧
      ((∃ ds, Ops.parseHeader size checksum s = { Ops.raiseAll ds s with parse := .ended }) ∨
       (∃ ds, Ops.parseHeader size checksum s = { Ops.raiseAll ds s with
          parse := .running ⟨contentLimit s.cfg size, 4, contentLimit s.cfg size⟩ }))) := by
  unfold Ops.parseHeader
  split
  · rename_i h
    rw [Bool.and_eq_true, decide_eq_true_iff] at h
    right
    refine ⟨h.1, h.2, ?_⟩
    split
    · left; exact ⟨[], by simp⟩
    · unfold Ops.checkHeader
      split
      · rename_i ds heq
        left; exact ⟨ds, rfl⟩
      · rename_i ds lim heq
        right
        split at heq
        · have e : lim = contentLimit s.cfg size := by
            have := congrArg Prod.snd heq; simpa using this.symm
          subst e
          exact ⟨ds, rfl⟩
        · simp at heq
  · left; rfl

/-! ## The cycle -/

/-- What the link's answer can do (R130 to R133). -/
theorem linkAnswer_cases (answer : Option (List Byte)) (s : State) :
    Ops.linkAnswer answer s = s ∨
    (s.phase = .xfer ∧ answer = none ∧ Ops.linkAnswer answer s = Ops.endCycle .transportError { s with outb := [] }) ∨
    (s.phase = .xfer ∧ ∃ g, answer = some g ∧ g.length = s.cfg.n ∧
      Ops.linkAnswer answer s = { s with
        outb := [], inb := Memory.load g, phase := .disp, parse := .notBegun, pv := none, serv := none }) := by
  unfold Ops.linkAnswer
  split
  · rename_i h; right; left; exact ⟨h, rfl, rfl⟩
  · rename_i g h
    split
    · right; right; exact ⟨h, g, rfl, ‹_›, rfl⟩
    · left; rfl
  · left; rfl

/-- What a done can do (R166, R167, R230). -/
theorem handlerDone_cases (s : State) :
    Ops.handlerDone s = s ∨
    (s.held.any (·.awaited) = false ∧
      ((∃ h x, s.serv = some (.handler h x) ∧ Ops.handlerDone s = { s with serv := none, pv := none }) ∨
       (∃ h x, s.serv = some (.tap h x) ∧ Ops.handlerDone s =
          { s with serv := none, parse := if s.phase = .disp then .ended else s.parse }))) := by
  unfold Ops.handlerDone
  split
  · left; rfl
  · rename_i h
    have h' : s.held.any (·.awaited) = false := by simpa using h
    split
    · left; rfl
    · right; exact ⟨h', .inl ⟨_, _, ‹_›, rfl⟩⟩
    · right; exact ⟨h', .inr ⟨_, _, ‹_›, rfl⟩⟩

/-- What is reported at the end of a cycle: a result to the client, a diagnostic for the event's failed exchange, or
the value returned (R137, R140, R141). -/
theorem reportCycle_trace (r : Result) (s : State) :
    ((Ops.reportCycle r s).trace = s.trace ∧ ∀ c, s.starter ≠ .client c) ∨
    (∃ c, s.starter = .client c ∧ (Ops.reportCycle r s).trace = s.trace ++ [.result c r]) ∨
    (s.starter = .event ∧ r = .transportError ∧
      (Ops.reportCycle r s).trace = s.trace ++ [.diag ⟨.transportError, 0#16, 0#16⟩]) := by
  unfold Ops.reportCycle
  split
  · rename_i c h; right; left; exact ⟨c, h, rfl⟩
  · rename_i h
    split
    · right; right; exact ⟨h, ‹_›, rfl⟩
    · left; exact ⟨rfl, by simp [h]⟩
  · rename_i h; left; exact ⟨rfl, by simp [h]⟩

end Sys2Proof.Machine
end

