-- ==== Sys2Proof/Laws/PerInstr.lean ====
section
/-! SUPPORT. One family of statements made instruction by instruction: how many bytes each operation has on its port
(spec 30_encoding R70, R72, R78, R80 to R82). -/

namespace Sys2Proof.Laws.EncodedLength

/-- The byte counts of the tables: a send has one code byte and the sub-packet (R78), a registration its code, channel,
handler and context (R77, R78), a header four bytes (R70, R72), a result one (R81), a diagnostic `1 + 2 + 2` (R82); the
event and the internal primitives have no bytes (R78). -/
def bytes (c : Config) : Instr → Nat
  | .sendSync _ _ _ p => 5 + p.length
  | .sendDeferred _ _ p => 5 + p.length
  | .sendDeferredH _ _ p => 5 + p.length
  | .flushNow _ => 1
  | .register _ _ _ _ => 2 + c.handlerBytes + c.ctxBytes
  | .unregister _ _ => 2
  | .setDebugTap _ _ _ => 1 + c.handlerBytes + c.ctxBytes
  | .clearDebugTap _ => 1
  | .irqRecv => 0
  | .encode _ _ _ => 0
  | .decode _ _ _ => 0
  | .fbReset _ => 0
  | .fbAppend _ _ _ => 0
  | .fbParse _ => 0
  | .xferCycle => 0
  | .dispatch _ => 0
  | .tapForward => 0
  | .frameHeader _ _ => 4
  | .emptyFrameHeader => 4
  | .subpktHeader _ _ _ => 4
  | .sentinelChannel _ _ => 4
  | .sentinelSize _ _ => 4
  | .reservedCmd _ => 1
  | .resultOk => 1
  | .resultNoSpace => 1
  | .resultInvalidChannel => 1
  | .resultTransportError => 1
  | .diagInvalidChecksum _ _ => 5
  | .diagMalformedSubPacket _ _ => 5
  | .diagOversizedPayload _ _ => 5
  | .diagFrameSizeOverrun _ _ => 5
  | .diagTransportError _ _ => 5

/-- Under every choice of parameters the encoder writes that many bytes. -/
def Statement (i : Instr) : Prop := ∀ c : Config, (Sys2Proof.encode c i).length = bytes c i

theorem sendSync (o : Bool) (ch op : Byte) (p : List Byte) : Statement (.sendSync o ch op p) := fun c => by
  simp only [Sys2Proof.encode, bytes, List.length_cons, subPacketBytes_length]; omega

theorem sendDeferred (ch op : Byte) (p : List Byte) : Statement (.sendDeferred ch op p) := fun c => by
  simp only [Sys2Proof.encode, bytes, List.length_cons, subPacketBytes_length]; omega

theorem sendDeferredH (ch op : Byte) (p : List Byte) : Statement (.sendDeferredH ch op p) := fun c => by
  simp only [Sys2Proof.encode, bytes, List.length_cons, subPacketBytes_length]; omega

theorem flushNow (o : Bool) : Statement (.flushNow o) := fun _ => rfl

theorem register (o : Bool) (ch : Byte) (h x : Nat) : Statement (.register o ch h x) := fun c => by
  simp only [Sys2Proof.encode, bytes, List.length_cons, List.length_append, leBytes_length]; omega

theorem unregister (o : Bool) (ch : Byte) : Statement (.unregister o ch) := fun _ => rfl

theorem setDebugTap (o : Bool) (h x : Nat) : Statement (.setDebugTap o h x) := fun c => by
  simp only [Sys2Proof.encode, bytes, List.length_cons, List.length_append, leBytes_length]; omega

theorem clearDebugTap (o : Bool) : Statement (.clearDebugTap o) := fun _ => rfl

theorem irqRecv : Statement .irqRecv := fun _ => rfl

theorem encode (ch op : Byte) (p : List Byte) : Statement (.encode ch op p) := fun _ => rfl

theorem decode (b : Buf) (pos rem : Nat) : Statement (.decode b pos rem) := fun _ => rfl

theorem fbReset (b : Buf) : Statement (.fbReset b) := fun _ => rfl

theorem fbAppend (ch op : Byte) (p : List Byte) : Statement (.fbAppend ch op p) := fun _ => rfl

theorem fbParse (b : Buf) : Statement (.fbParse b) := fun _ => rfl

theorem xferCycle : Statement .xferCycle := fun _ => rfl

theorem dispatch (v : PacketView) : Statement (.dispatch v) := fun _ => rfl

theorem tapForward : Statement .tapForward := fun _ => rfl

theorem frameHeader (size checksum : Word) : Statement (.frameHeader size checksum) := fun _ => rfl

theorem emptyFrameHeader : Statement .emptyFrameHeader := fun _ => rfl

theorem subpktHeader (ch op : Byte) (size : Word) : Statement (.subpktHeader ch op size) := fun _ => rfl

theorem sentinelChannel (op : Byte) (size : Word) : Statement (.sentinelChannel op size) := fun _ => rfl

theorem sentinelSize (ch op : Byte) : Statement (.sentinelSize ch op) := fun _ => rfl

theorem reservedCmd (code : Byte) : Statement (.reservedCmd code) := fun _ => rfl

theorem resultOk : Statement .resultOk := fun _ => rfl

theorem resultNoSpace : Statement .resultNoSpace := fun _ => rfl

theorem resultInvalidChannel : Statement .resultInvalidChannel := fun _ => rfl

theorem resultTransportError : Statement .resultTransportError := fun _ => rfl

theorem diagInvalidChecksum (a b : Word) : Statement (.diagInvalidChecksum a b) := fun _ => rfl

theorem diagMalformedSubPacket (a b : Word) : Statement (.diagMalformedSubPacket a b) := fun _ => rfl

theorem diagOversizedPayload (a b : Word) : Statement (.diagOversizedPayload a b) := fun _ => rfl

theorem diagFrameSizeOverrun (a b : Word) : Statement (.diagFrameSizeOverrun a b) := fun _ => rfl

theorem diagTransportError (a b : Word) : Statement (.diagTransportError a b) := fun _ => rfl

end Sys2Proof.Laws.EncodedLength
end

