-- ==== Sys2Proof/Laws/Step.lean ====
section
/-! SUPPORT. What a step can do, said once: the cases of a command's meaning, of the cycle in progress, and of the step
itself when no primitive has been asked for on its own. Later proofs take these cases and never unfold the step. -/

namespace Sys2Proof.Machine

/-! ## Commands -/

/-- What decodes from the command port is a command (R78). -/
theorem decodeCommandFrom_port {c : Config} {bs : List Byte} {i : Instr} {rest : List Byte}
    (h : decodeCommandFrom c bs = .ok (i, rest)) : i.port = .command := by
  have hsend : ∀ (mk : Byte → Byte → List Byte → Instr) (l : List Byte) (i : Instr) (r : List Byte),
      (∀ a b p, (mk a b p).port = .command) → decodeSend mk l = .ok (i, r) → i.port = .command := by
    intro mk l i r hmk h
    unfold decodeSend at h
    split at h
    · split at h
      · simp at h
      · simp only [Except.ok.injEq, Prod.mk.injEq] at h; rw [← h.1]; exact hmk _ _ _
    · simp at h
  have hpair : ∀ (mk : Nat → Nat → Instr) (l : List Byte) (i : Instr) (r : List Byte),
      (∀ a b, (mk a b).port = .command) → decodePair c mk l = .ok (i, r) → i.port = .command := by
    intro mk l i r hmk h
    unfold decodePair at h
    split at h
    · simp at h
    · dsimp only at h
      split at h
      · simp only [Except.ok.injEq, Prod.mk.injEq] at h; rw [← h.1]; exact hmk _ _
      · simp at h
  unfold decodeCommandFrom at h
  split at h
  · simp at h
  · split at h
    · exact hsend _ _ _ _ (fun _ _ _ => rfl) h
    · refine hsend _ _ _ _ (fun _ _ _ => ?_) h
      split <;> rfl
    · simp only [Except.ok.injEq, Prod.mk.injEq] at h; rw [← h.1]; rfl
    · split at h
      · simp at h
      · exact hpair _ _ _ _ (fun _ _ => rfl) h
    · split at h
      · simp at h
      · simp only [Except.ok.injEq, Prod.mk.injEq] at h; rw [← h.1]; rfl
    · exact hpair _ _ _ _ (fun _ _ => rfl) h
    · simp only [Except.ok.injEq, Prod.mk.injEq] at h; rw [← h.1]; rfl
    · simp only [Except.ok.injEq, Prod.mk.injEq] at h; rw [← h.1]; rfl

/-- What decodes from the command port is a command (R78). -/
theorem decodeCommand_port {c : Config} {bs : List Byte} {i : Instr} (h : decodeCommand c bs = .ok i) :
    i.port = .command := by
  unfold decodeCommand at h
  split at h
  · rename_i hf
    simp only [Except.ok.injEq] at h
    rw [← h]; exact decodeCommandFrom_port hf
  · simp at h
  · simp at h

/-- A record whose first byte is a handler's deferred send decodes to one, if to anything (R79). -/
theorem decodeCommand_handlerSend {c : Config} {h : Held} {i : Instr} (hs : isHandlerSend h = true)
    (hd : decodeCommand c h.record = .ok i) : ∃ ch op p, i = .sendDeferredH ch op p := by
  unfold isHandlerSend at hs
  split at hs
  · simp at hs
  · rename_i code rest hrec
    rw [hrec] at hd
    simp only [Bool.and_eq_true, beq_iff_eq] at hs
    unfold decodeCommand decodeCommandFrom at hd
    simp only [hs.2, hs.1, if_true] at hd
    unfold decodeSend at hd
    split at hd
    · rename_i heq
      split at heq
      · split at heq
        · simp at heq
        · simp only [Except.ok.injEq, Prod.mk.injEq] at heq hd
          exact ⟨_, _, _, by rw [← hd, ← heq.1]⟩
      · simp at heq
    · simp at hd
    · simp at hd

/-- What a command can do (R137 to R140, R162 to R165, R143). -/
inductive CommandEffect (i : Instr) (s s' : State) : Prop where
  /-- It waits at the command port, as a handler's deferred send never does in `Disp`. -/
  | held (hp : s.phase ≠ .idle) (hd : s.phase = .disp → ∀ ch op p, i ≠ .sendDeferredH ch op p)
      (h : s' = Ops.hold i s)
  /-- A deferred send, or a send without space: its append, and its result. -/
  | appended (hp : s.phase ≠ .xfer) (ch op : Byte) (p : List Byte) (r : Result) (hr : r = (Ops.append ch op p s).2)
      (h : s' = Ops.answer s.caller r (Ops.append ch op p s).1)
  /-- A synchronous send that fits: its append, and the cycle begins. -/
  | sent (hp : s.phase = .idle) (o : Bool) (ch op : Byte) (p : List Byte) (hi : i = .sendSync o ch op p) (hf : appendFits s.cfg s.outb p = true)
      (h : s' = Ops.startCycle (.client s.caller) (Ops.append ch op p s).1)
  /-- A flush: the cycle begins. -/
  | flushed (hp : s.phase = .idle) (o : Bool) (hi : i = .flushNow o) (h : s' = Ops.startCycle (.client s.caller) s)
  /-- A table entry is written. -/
  | entry (hp : s.phase = .idle) (ch : Byte) (x y : Nat) (hc : ch.toNat < s.cfg.nch)
      (h : s' = Ops.answer s.caller .ok (Ops.setEntry ch x y s))
  /-- Only a result. -/
  | refused (hp : s.phase = .idle) (r : Result) (h : s' = Ops.answer s.caller r s)
  /-- The tap is written. -/
  | tapSet (hp : s.phase = .idle) (x y : Nat) (h : s' = Ops.answer s.caller .ok (Ops.setTap x y s))
  /-- The tap is cleared. -/
  | tapCleared (hp : s.phase = .idle) (h : s' = Ops.answer s.caller .ok { s with tap := ⟨false, 0, 0⟩ })

/-- Every command's meaning is one of these effects. -/
theorem exec_command_effect {i : Instr} {s s' : State} (hi : i.port = .command) (h : exec i s = .next s') :
    CommandEffect i s s' := by
  have happ : ∀ ch op p, Ops.append ch op p s = ((Ops.append ch op p s).1, (Ops.append ch op p s).2) :=
    fun _ _ _ => rfl
  cases i with
  | sendSync o ch op p =>
    simp only [exec, execSendSync] at h
    split at h
    · rename_i hp
      cases hf : appendFits s.cfg s.outb p with
      | true =>
        rw [append_of_fits hf] at h
        exact .sent hp o ch op p rfl hf (by rw [append_of_fits hf]; exact (Host.Outcome.next.inj h).symm)
      | false =>
        rw [append_of_not_fits hf] at h
        exact .refused hp .noSpace (Host.Outcome.next.inj h).symm
    · exact .held ‹_› (fun _ _ _ _ => by simp) (Host.Outcome.next.inj h).symm
  | sendDeferred ch op p =>
    simp only [exec, execSendDeferred] at h
    split at h
    · rename_i hp
      exact .appended (by simp [hp]) ch op p _ rfl (Host.Outcome.next.inj h).symm
    · exact .held ‹_› (fun _ _ _ _ => by simp) (Host.Outcome.next.inj h).symm
  | sendDeferredH ch op p =>
    simp only [exec, execSendDeferredH] at h
    split at h
    · rename_i hp
      exact .held (by simp [hp]) (by simp [hp]) (Host.Outcome.next.inj h).symm
    · exact .appended ‹_› ch op p _ rfl (Host.Outcome.next.inj h).symm
  | flushNow o =>
    simp only [exec, execFlushNow] at h
    split at h
    · exact .flushed ‹_› o rfl (Host.Outcome.next.inj h).symm
    · exact .held ‹_› (fun _ _ _ _ => by simp) (Host.Outcome.next.inj h).symm
  | register o ch x y =>
    simp only [exec, execRegister] at h
    split at h
    · split at h
      · exact .entry ‹_› ch x y ‹_› (Host.Outcome.next.inj h).symm
      · exact .refused ‹_› _ (Host.Outcome.next.inj h).symm
    · exact .held ‹_› (fun _ _ _ _ => by simp) (Host.Outcome.next.inj h).symm
  | unregister o ch =>
    simp only [exec, execUnregister] at h
    split at h
    · split at h
      · exact .entry ‹_› ch 0 0 ‹_› (Host.Outcome.next.inj h).symm
      · exact .refused ‹_› _ (Host.Outcome.next.inj h).symm
    · exact .held ‹_› (fun _ _ _ _ => by simp) (Host.Outcome.next.inj h).symm
  | setDebugTap o x y =>
    simp only [exec, execSetDebugTap] at h
    split at h
    · exact .tapSet ‹_› x y (Host.Outcome.next.inj h).symm
    · exact .held ‹_› (fun _ _ _ _ => by simp) (Host.Outcome.next.inj h).symm
  | clearDebugTap o =>
    simp only [exec, execClearDebugTap] at h
    split at h
    · exact .tapCleared ‹_› (Host.Outcome.next.inj h).symm
    · exact .held ‹_› (fun _ _ _ _ => by simp) (Host.Outcome.next.inj h).symm
  | reservedCmd code => simp [exec, execReservedCmd] at h
  | _ => simp [Instr.port] at hi

/-- Every command that is not a reserved code has a next state, in every state. -/
theorem exec_command_next {i : Instr} (s : State) (hi : i.port = .command) (hr : ∀ code, i ≠ .reservedCmd code) :
    ∃ s', exec i s = .next s' := by
  cases i with
  | sendSync o ch op p =>
    simp only [exec, execSendSync]
    split
    · split <;> exact ⟨_, rfl⟩
    · exact ⟨_, rfl⟩
  | sendDeferred ch op p => simp only [exec, execSendDeferred]; split <;> exact ⟨_, rfl⟩
  | sendDeferredH ch op p => simp only [exec, execSendDeferredH]; split <;> exact ⟨_, rfl⟩
  | flushNow o => simp only [exec, execFlushNow]; split <;> exact ⟨_, rfl⟩
  | register o ch x y =>
    simp only [exec, execRegister]
    split
    · split <;> exact ⟨_, rfl⟩
    · exact ⟨_, rfl⟩
  | unregister o ch =>
    simp only [exec, execUnregister]
    split
    · split <;> exact ⟨_, rfl⟩
    · exact ⟨_, rfl⟩
  | setDebugTap o x y => simp only [exec, execSetDebugTap]; split <;> exact ⟨_, rfl⟩
  | clearDebugTap o => simp only [exec, execClearDebugTap]; split <;> exact ⟨_, rfl⟩
  | reservedCmd code => exact absurd rfl (hr code)
  | _ => simp [Instr.port] at hi

/-! ## Headers -/

/-- The fields a sub-packet header decodes to, whichever of its rows it is, run the parser's round on its four
bytes (R72, R75). -/
theorem exec_decodeSubHeader (b0 b1 b2 b3 : Byte) (s : State) :
    exec (decodeSubHeader b0 b1 b2 b3) s = Ops.parseRound b0 b1 (le16 b2 b3) s := by
  unfold decodeSubHeader
  split
  · rename_i h; subst h; rfl
  · split
    · rename_i h; rw [h]; rfl
    · rfl

/-- Both frame-header rows run the parser's header checks on the four bytes (R70, R110). -/
theorem exec_decodeFrameHeader (b0 b1 b2 b3 : Byte) (s : State) :
    exec (decodeFrameHeader b0 b1 b2 b3) s = .next (Ops.parseHeader (le16 b0 b1) (le16 b2 b3) s) := by
  unfold decodeFrameHeader
  split
  · rename_i h; rw [h.1, h.2]; rfl
  · rfl

/-! ## The cycle in progress -/

/-- What the engine can do with the cycle in progress (R130, R134, R135, R114, R136). -/
inductive ProceedEffect (s s' : State) : Prop where
  | tapped (hp : s.parse = .notBegun) (ht : s.tap.valid = true) (h : s' = Ops.forwardTap s)
  | header (hp : s.parse = .notBegun) (ht : s.tap.valid = false)
      (h : s' = Ops.parseHeader s.inb.frameSize s.inb.frameChecksum s)
  | dispatched (cur : Cursor) (v : PacketView) (hp : s.parse = .running cur) (hv : s.pv = some v)
      (h : s' = Ops.dispatchView v s)
  | round (cur : Cursor) (hp : s.parse = .running cur) (hv : s.pv = none) (ch op : Byte) (ps : Word)
      (hf : 4 ≤ cur.rem → ch = s.inb.read cur.pos ∧ op = s.inb.read (cur.pos + 1) ∧
        ps = s.inb.read16 (cur.pos + 2) ∧ cur.pos + 4 ≤ s.cfg.n)
      (h : Ops.parseRound ch op ps s = .next s')
  | ended (hp : s.parse = .ended) (h : s' = Ops.endCycle .ok s)

theorem proceed_effect {s s' : State} (h : Engine.proceed s = .next s') : ProceedEffect s s' := by
  unfold Engine.proceed at h
  split at h
  · simp at h
  · rename_i ho
    unfold Engine.fetchInbound at h
    cases hp : s.parse with
    | notBegun =>
      simp only [hp] at h
      by_cases ht : s.tap.valid = true
      · simp only [ht, if_true] at h
        exact .tapped hp ht (Host.Outcome.next.inj h).symm
      · simp only [ht] at h
        simp only [Bool.false_eq_true, if_false, exec_decodeFrameHeader] at h
        exact .header hp (by simpa using ht) (Host.Outcome.next.inj h).symm
    | running cur =>
      simp only [hp] at h
      cases hv : s.pv with
      | some v =>
        simp only [hv] at h
        exact .dispatched cur v hp hv (Host.Outcome.next.inj h).symm
      | none =>
        simp only [hv] at h
        by_cases h4 : cur.rem < 4
        · rw [if_pos h4] at h
          exact .round cur hp hv _ _ _ (fun h' => absurd h' (by omega)) h
        · rw [if_neg h4] at h
          simp only [exec_decodeSubHeader] at h
          refine .round cur hp hv _ _ _ (fun _ => ⟨rfl, rfl, rfl, ?_⟩) h
          unfold Engine.fetchOutside at ho
          simp only [hp, hv, Bool.and_eq_true, decide_eq_true_iff, not_and] at ho
          have := ho (by omega)
          omega
    | ended =>
      simp only [hp] at h
      exact .ended hp (Host.Outcome.next.inj h).symm

/-! ## The step -/

/-- What a step can do when no primitive has been asked for on its own; `s1` is the state with the script's move
taken off. -/
inductive StepEffect (s s1 s' : State) : Prop where
  | waits (h : s' = s1)
  | issued (q : Held) (rest : List Move) (hs : s.script = .issue q :: rest) (h : s' = { s1 with held := s1.held ++ [q] })
  | edge (rest : List Move) (hs : s.script = .edge :: rest) (h : s' = { s1 with irqPending := true })
  | answered (a : Option (List Byte)) (rest : List Move) (hs : s.script = .link a :: rest)
      (h : s' = Ops.linkAnswer a s1)
  | done (h : s' = Ops.handlerDone s1)
  | took (idx : Nat) (q : Held) (i : Instr) (hq : s1.held[idx]? = some q) (ht : takeable s1.phase q = true)
      (hd : decodeCommand s1.cfg q.record = .ok i)
      (h : CommandEffect i { s1 with held := s1.held.eraseIdx idx, caller := q.caller } s')
  | event (hp : s1.phase = .idle) (hi : s1.irqPending = true)
      (h : s' = Ops.startCycle .event { s1 with irqPending := false })
  | proceeded (hp : s1.phase = .disp) (hv : s1.serv = none) (hn : ∀ q ∈ s1.held, isHandlerSend q = false) (h : ProceedEffect s1 s')

/-- The places of the elements with a property: how many there are, and where each stands among them. -/
theorem places_of {α : Type} (p : α → Bool) (l : List α) :
    ((List.range l.length).filter (fun k => (l[k]?).any p)).length = l.countP p ∧
    ∀ k a, l[k]? = some a → p a = true →
      ((List.range l.length).filter (fun k => (l[k]?).any p))[(l.take k).countP p]? = some k := by
  induction l using List.reverseRecOn with
  | nil => exact ⟨rfl, fun k a h => by simp at h⟩
  | append_singleton l b ih =>
    have hf : (List.range (l ++ [b]).length).filter (fun k => ((l ++ [b])[k]?).any p) =
        (List.range l.length).filter (fun k => (l[k]?).any p) ++ (if p b then [l.length] else []) := by
      rw [List.length_append, List.length_singleton, List.range_succ, List.filter_append]
      congr 1
      · refine List.filter_congr fun k hk => ?_
        rw [List.getElem?_append_left (List.mem_range.mp hk)]
      · simp [List.filter_cons]
    rw [hf]
    refine ⟨?_, fun k a hk ha => ?_⟩
    · rw [List.length_append, ih.1, List.countP_append, List.countP_singleton]
      split <;> simp_all
    · by_cases hl : k < l.length
      · rw [List.getElem?_append_left hl] at hk
        have h := ih.2 k a hk ha
        rw [List.take_append_of_le_length (Nat.le_of_lt hl),
          List.getElem?_append_left (List.getElem?_eq_some_iff.mp h).1]
        exact h
      · rw [List.getElem?_append_right (by omega)] at hk
        have e : k = l.length := by
          by_contra hne
          rw [List.getElem?_eq_none (by simp; omega)] at hk
          exact absurd hk (by simp)
        subst e
        have hb : p b = true := by simp at hk; rw [hk]; exact ha
        rw [List.take_left, if_pos hb, ← ih.1, List.getElem?_append_right (Nat.le_refl _)]
        simp

/-- No held command may be taken exactly when each is one the phase does not let in (R143, R139). -/
theorem takeablePlaces_eq_nil_iff {s : State} :
    Engine.takeablePlaces s = [] ↔ ∀ q ∈ s.held, takeable s.phase q = false := by
  rw [← List.length_eq_zero_iff, Engine.takeablePlaces, (places_of (takeable s.phase) s.held).1, List.countP_eq_zero]
  simp

/-- A held command that may be taken stands, among those that may, behind as many as stand before it at the port. -/
theorem takeablePlaces_getElem {s : State} {k : Nat} {q : Held} (hq : s.held[k]? = some q)
    (ht : takeable s.phase q = true) :
    (Engine.takeablePlaces s)[(s.held.take k).countP (takeable s.phase)]? = some k :=
  (places_of (takeable s.phase) s.held).2 k q hq ht

/-- A choice the engine picks is one of its choices. -/
theorem pick_mem {k : Nat} {cs : List Choice} {c : Choice} (h : Engine.pick k cs = some c) : c ∈ cs := by
  unfold Engine.pick at h
  exact List.mem_of_getElem? h

/-- What each choice needs (R143, R139, R141, R166, R59). -/
theorem choices_mem {s : State} {c : Choice} (h : c ∈ Engine.choices s) :
    (∃ idx q, c = .command idx ∧ s.held[idx]? = some q ∧ takeable s.phase q = true) ∨
    (c = .event ∧ s.phase = .idle ∧ s.irqPending = true) ∨
    (c = .proceed ∧ s.phase = .disp ∧ s.serv = none ∧ ∀ q ∈ s.held, isHandlerSend q = false) := by
  unfold Engine.choices Engine.ownChoices at h
  rw [List.mem_append] at h
  rcases h with h | h
  · left
    simp only [Engine.takeablePlaces, List.mem_map, List.mem_filter, List.mem_range] at h
    obtain ⟨idx, ⟨hlt, ht⟩, rfl⟩ := h
    rw [List.getElem?_eq_getElem hlt] at ht
    exact ⟨idx, s.held[idx], rfl, List.getElem?_eq_getElem hlt, by simpa using ht⟩
  · right
    split at h
    · split at h
      · left; exact ⟨by simpa using h, ‹_›, ‹_›⟩
      · simp at h
    · simp at h
    · split at h
      · rename_i hp hc
        right
        refine ⟨by simpa using h, hp, hc.1, fun q hq => ?_⟩
        have := takeablePlaces_eq_nil_iff.mp hc.2 q hq
        rwa [hp] at this
      · simp at h

/-- In `Disp`, while a handler's deferred send is at the command port, the engine can only take one (R139, R59). -/
theorem choices_of_handlerSend {s : State} (hp : s.phase = .disp) (h : ∃ q ∈ s.held, isHandlerSend q = true) :
    Engine.choices s = (Engine.takeablePlaces s).map .command := by
  have hne : Engine.takeablePlaces s ≠ [] := by
    obtain ⟨q, hq, ht⟩ := h
    intro he
    have := takeablePlaces_eq_nil_iff.mp he q hq
    rw [hp] at this
    exact absurd (ht.symm.trans this) (by simp)
  simp [Engine.choices, Engine.ownChoices, hp, hne]

/-- In `Disp`, with nobody in service and no handler's deferred send at the command port, the engine can only go on with
the cycle (R166, R139). -/
theorem choices_of_proceed {s : State} (hp : s.phase = .disp) (hv : s.serv = none)
    (hn : ∀ q ∈ s.held, isHandlerSend q = false) : Engine.choices s = [.proceed] := by
  have hnil : Engine.takeablePlaces s = [] := takeablePlaces_eq_nil_iff.mpr fun q hq => by rw [hp]; exact hn q hq
  simp [Engine.choices, Engine.ownChoices, hp, hv, hnil]

/-- A move of the engine whose choice is a held command runs the operation its record decodes to (R143, R139). -/
theorem move_of_command {s : State} {k idx : Nat} {q : Held} {i : Instr} (hi : s.internal = [])
    (hc : Engine.pick k (Engine.choices s) = some (.command idx)) (hq : s.held[idx]? = some q)
    (hd : decodeCommand s.cfg q.record = .ok i) :
    Engine.move k s = exec i { s with held := s.held.eraseIdx idx, caller := q.caller } := by
  unfold Engine.move
  split
  · rename_i h; rw [hi] at h; cases h
  · rw [hc]; simp only [Engine.take, hq, hd]

theorem move_effect {s0 s s' : State} {k : Nat} (hi : s.internal = []) (h : Engine.move k s = .next s') :
    StepEffect s0 s s' := by
  unfold Engine.move at h
  simp only [hi] at h
  cases hc : Engine.pick k (Engine.choices s) with
  | none => rw [hc] at h; exact .waits (Host.Outcome.next.inj h).symm
  | some c =>
    rw [hc] at h
    rcases choices_mem (pick_mem hc) with ⟨idx, q, rfl, hq, ht⟩ | ⟨rfl, hp, hirq⟩ | ⟨rfl, hp, hv, hn⟩
    · simp only [Engine.take, hq] at h
      split at h
      · rename_i i hd
        exact .took idx q i hq ht hd (exec_command_effect (decodeCommand_port hd) h)
      · simp at h
    · simp only [exec, execIrqRecv, hp, hirq] at h
      exact .event hp hirq (Host.Outcome.next.inj h).symm
    · exact .proceeded hp hv hn (proceed_effect h)

/-- The cases of a step. -/
theorem step_effect {s s' : State} (hi : s.internal = []) (h : step s = .next s') :
    StepEffect s { s with script := s.script.tail } s' := by
  unfold step Engine.run at h
  cases hs : s.script with
  | nil =>
    simp only [hs] at h
    have e : { s with script := ([] : List Move).tail } = s := by rw [List.tail_nil, ← hs]
    rw [e]
    exact move_effect hi h
  | cons m rest =>
    simp only [hs] at h
    rw [List.tail_cons]
    cases m with
    | engine k => exact move_effect hi h
    | issue q => exact .issued q rest hs (Host.Outcome.next.inj h).symm
    | edge => exact .edge rest hs (Host.Outcome.next.inj h).symm
    | link a => exact .answered a rest hs (Host.Outcome.next.inj h).symm
    | done => exact .done (Host.Outcome.next.inj h).symm

end Sys2Proof.Machine
end

