-- ==== Sys2Proof/Tests/Slice0.lean ====
section
/-! SUPPORT. The model's own tests. Expected values are those of spec/95_test_vectors.md (V1 to V57, P1 to P4) or are
worked out by hand from the rule named; none is the model's own answer. The last part shows, for every statement with
hypotheses, a state and operands that meet them. -/

namespace Sys2Proof.Tests

open Sys2Proof.Machine

/-! ## Helpers -/

/-- The parameters of most vectors: `N = 16`, the rest as R5. -/
def c16 : Config := ⟨16, 16, 8, 32⟩

/-- The reset state under them. -/
def s16 : State := State.resetWith c16

/-- Whether an outcome is a next state with a property. -/
def nextIs (o : Host.Outcome State Fault Refusal) (p : State → Bool) : Bool :=
  match o with
  | .next t => p t
  | .fault _ => false
  | .refused _ => false

/-- Whether an outcome is a given refusal. -/
def refusedAs (o : Host.Outcome State Fault Refusal) (r : Refusal) : Bool :=
  match o with
  | .next _ => false
  | .fault _ => false
  | .refused r' => decide (r' = r)

/-- Whether an outcome is a given fault. -/
def faultsAs (o : Host.Outcome State Fault Refusal) (f : Fault) : Bool :=
  match o with
  | .next _ => false
  | .fault f' => decide (f' = f)
  | .refused _ => false

/-- Sixteen bytes. -/
def frame16 (bs : List Byte) : List Byte := bs ++ List.replicate (16 - bs.length) 0x00#8

/-- `E16`. -/
def e16 : List Byte := frame16 [0x00#8, 0x00#8, 0x55#8, 0x55#8]

/-- `03 07 01 00 AA` in a frame (V8, P1). -/
def frameA : List Byte := frame16 [0x05#8, 0x00#8, 0x50#8, 0x55#8, 0x03#8, 0x07#8, 0x01#8, 0x00#8, 0xAA#8]

/-- V24. -/
def frameV24 : List Byte :=
  frame16 [0x0B#8, 0x00#8, 0x5E#8, 0x55#8, 0x01#8, 0x10#8, 0x02#8, 0x00#8, 0x01#8, 0x02#8, 0x03#8, 0x07#8, 0x01#8,
    0x00#8, 0xAA#8]

/-- V28, the frame built in V23. -/
def frameV28 : List Byte :=
  frame16 [0x0A#8, 0x00#8, 0x5F#8, 0x55#8, 0x01#8, 0x01#8, 0x01#8, 0x00#8, 0xAA#8, 0x00#8, 0x09#8, 0x01#8, 0x00#8,
    0xBB#8]

/-- V31. -/
def frameV31 : List Byte :=
  [0x0C#8, 0x00#8, 0x59#8, 0x55#8, 0x02#8, 0x09#8, 0x09#8, 0x00#8, 0x01#8, 0x02#8, 0x03#8, 0x04#8, 0x05#8, 0x06#8,
    0x07#8, 0x08#8]

/-- V32. -/
def frameV32 : List Byte :=
  [0x0C#8, 0x00#8, 0x59#8, 0x55#8, 0x01#8, 0x01#8, 0x01#8, 0x00#8, 0xAA#8, 0x02#8, 0x09#8, 0x09#8, 0x00#8, 0x01#8,
    0x02#8, 0x03#8]

/-- `OUT` holding a frame, in `Idle`. -/
def sOut (f : List Byte) : State := { s16 with outb := Memory.load f, caller := 1 }

/-- The exchange of a cycle a client started is under way. -/
def sXfer : State := { s16 with phase := .xfer, starter := .client 1, outb := Memory.load frameA }

/-- A cycle whose exchange brought a frame, handler 9 on channel 3. -/
def sDisp (f : List Byte) : State :=
  { s16 with phase := .disp, starter := .client 1, caller := 2, inb := Memory.load f, dt := s16.dt.set 3 ⟨9, 0x11⟩ }

/-- Such a cycle with the parser at a cursor. -/
def sParse (f : List Byte) (lim pos : Nat) (rem : Int) : State := { sDisp f with parse := .running ⟨lim, pos, rem⟩ }

/-- A cycle in `Disp` with a client's flush at the command port and, behind it, the handler's send of R139's example. -/
def sSend (p : Parse) (moves : List Move) : State :=
  { sDisp frameA with parse := p, script := moves,
                      held := [⟨1, [0x03#8], false⟩, ⟨9, [0x82#8, 3#8, 8#8, 1#8, 0#8, 1#8], false⟩] }

/-- The view `(3, 7, [AA])`. -/
def viewA : PacketView := ⟨0x03#8, 0x07#8, 0x0001#16, [0xAA#8]⟩

/-! ## Well-formedness: an ill-formed term of each check is refused -/

/-- A payload of 65536 bytes has no 16-bit length. -/
theorem test_wf_payloads (p : List Byte) (h : p.length = 65536) : Instr.wf c16 (.sendSync false 1#8 1#8 p) = false ∧
    Instr.wf c16 (.sendDeferred 1#8 1#8 p) = false ∧ Instr.wf c16 (.sendDeferredH 1#8 1#8 p) = false ∧
    Instr.wf c16 (.fbAppend 1#8 1#8 p) = false := by
  simp [Instr.wf, h]

theorem test_wf_register : Instr.wf c16 (.register false 3#8 256 0) = false ∧
    Instr.wf c16 (.register false 3#8 0 4294967296) = false ∧
    Instr.wf c16 (.register false 3#8 255 4294967295) = true := by decide

theorem test_wf_setDebugTap : Instr.wf c16 (.setDebugTap false 256 0) = false ∧
    Instr.wf c16 (.setDebugTap false 0 4294967296) = false := by decide

theorem test_wf_encode : Instr.wf c16 (.encode 1#8 1#8 (List.replicate 9 0#8)) = false ∧
    Instr.wf c16 (.encode 1#8 1#8 (List.replicate 8 0#8)) = true := by decide

theorem test_wf_decode : Instr.wf c16 (.decode .inp 3 1) = false ∧ Instr.wf c16 (.decode .inp 4 0) = false ∧
    Instr.wf c16 (.decode .inp 4 13) = false ∧ Instr.wf c16 (.decode .inp 4 12) = true := by decide

theorem test_wf_dispatch : Instr.wf c16 (.dispatch ⟨0#8, 7#8, 1#16, [0#8]⟩) = false ∧
    Instr.wf c16 (.dispatch ⟨3#8, 7#8, 0#16, []⟩) = false ∧
    Instr.wf c16 (.dispatch ⟨3#8, 7#8, 2#16, [0#8]⟩) = false ∧
    Instr.wf c16 (.dispatch ⟨3#8, 7#8, 9#16, List.replicate 9 0#8⟩) = false ∧
    Instr.wf c16 (.dispatch viewA) = true := by decide

theorem test_wf_headers : Instr.wf c16 (.frameHeader 0#16 0x5555#16) = false ∧
    Instr.wf c16 (.subpktHeader 0#8 7#8 1#16) = false ∧ Instr.wf c16 (.subpktHeader 3#8 7#8 0#16) = false ∧
    Instr.wf c16 (.sentinelSize 0#8 7#8) = false := by decide

theorem test_wf_reservedCmd : Instr.wf c16 (.reservedCmd 0x01#8) = false ∧ Instr.wf c16 (.reservedCmd 0x87#8) = false ∧
    Instr.wf c16 (.reservedCmd 0x08#8) = true ∧ Instr.wf c16 (.reservedCmd 0x80#8) = true := by decide

/-! ## Decoding: every row with bytes, from bytes written out from the spec -/

/-- The lines of V57, in its order. -/
theorem test_decode_V57 :
    decodeCommand c16 [0x01#8, 0x03#8, 0x07#8, 0x01#8, 0x00#8, 0xAA#8] = .ok (.sendSync false 3#8 7#8 [0xAA#8]) ∧
    decodeCommand c16 [0x02#8, 0x03#8, 0x07#8, 0x01#8, 0x00#8, 0xAA#8] = .ok (.sendDeferred 3#8 7#8 [0xAA#8]) ∧
    decodeCommand c16 [0x82#8, 0x03#8, 0x08#8, 0x01#8, 0x00#8, 0x01#8] = .ok (.sendDeferredH 3#8 8#8 [0x01#8]) ∧
    decodeCommand c16 [0x02#8, 0x05#8, 0x09#8, 0x00#8, 0x00#8] = .ok (.sendDeferred 5#8 9#8 []) ∧
    decodeCommand c16 [0x03#8] = .ok (.flushNow false) ∧
    decodeCommand c16 [0x04#8, 0x10#8, 0x05#8, 0x00#8, 0x00#8, 0x00#8, 0x00#8] = .ok (.register false 16#8 5 0) ∧
    decodeCommand c16 [0x05#8, 0x03#8] = .ok (.unregister false 3#8) ∧
    decodeCommand c16 [0x06#8, 0x07#8, 0x77#8, 0x00#8, 0x00#8, 0x00#8] = .ok (.setDebugTap false 7 0x77) ∧
    decodeCommand c16 [0x07#8] = .ok (.clearDebugTap false) := by decide

/-- R77: multi-byte operands are little-endian; `origin` is bit 7 (R79). -/
theorem test_decode_operand_order :
    decodeCommand c16 [0x84#8, 0x03#8, 0x09#8, 0x78#8, 0x56#8, 0x34#8, 0x12#8] =
      .ok (.register true 3#8 9 0x12345678) ∧
    decodeCommand c16 [0x83#8] = .ok (.flushNow true) := by decide

/-- R80: op 0 and 8 to 7F, with either origin. -/
theorem test_decode_reserved : decodeCommand c16 [0x00#8] = .ok (.reservedCmd 0x00#8) ∧
    decodeCommand c16 [0x08#8] = .ok (.reservedCmd 0x08#8) ∧ decodeCommand c16 [0xFF#8] = .ok (.reservedCmd 0xFF#8) := by
  decide

/-- R78: a record whose byte count is not its operands' is no command. -/
theorem test_decode_rejects : decodeCommand c16 [] = .error .empty ∧
    decodeCommand c16 [0x01#8, 0x03#8, 0x07#8, 0x02#8, 0x00#8, 0xAA#8] = .error .truncated ∧
    decodeCommand c16 [0x01#8, 0x03#8, 0x07#8, 0x00#8, 0x00#8, 0xAA#8] = .error .trailing ∧
    decodeCommand c16 [0x03#8, 0x00#8] = .error .trailing ∧
    decodeCommand ⟨16, 16, 4, 32⟩ [0x06#8, 0x17#8, 0x00#8, 0x00#8, 0x00#8, 0x00#8] = .error .unusedBits := by decide

/-- V1, R70, R110. -/
theorem test_decode_frame_headers :
    decodeFrameHeader 0x00#8 0x01#8 0x55#8 0x54#8 = .frameHeader 0x0100#16 0x5455#16 ∧
    decodeFrameHeader 0x00#8 0x00#8 0x55#8 0x55#8 = .emptyFrameHeader ∧
    decodeFrameHeader 0x00#8 0x00#8 0x00#8 0x00#8 = .frameHeader 0#16 0#16 := by decide

/-- V7, V10, V11, R75. -/
theorem test_decode_subpacket_headers :
    decodeSubHeader 0x02#8 0xFF#8 0x2C#8 0x01#8 = .subpktHeader 2#8 0xFF#8 300#16 ∧
    decodeSubHeader 0x00#8 0x09#8 0xFF#8 0xFF#8 = .sentinelChannel 9#8 0xFFFF#16 ∧
    decodeSubHeader 0x05#8 0x09#8 0x00#8 0x00#8 = .sentinelSize 5#8 9#8 := by decide

/-- R81. -/
theorem test_decode_results : decodeResult [0x00#8] = .ok .resultOk ∧ decodeResult [0x01#8] = .ok .resultNoSpace ∧
    decodeResult [0x02#8] = .ok .resultInvalidChannel ∧ decodeResult [0x03#8] = .ok .resultTransportError ∧
    decodeResult [0x04#8] = .error .unknownCode := by decide

/-- R82, with the operands of V57's last lines. -/
theorem test_decode_diagnostics :
    decodeDiag [0x10#8, 0x05#8, 0x00#8, 0x51#8, 0x55#8] = .ok (.diagInvalidChecksum 5#16 0x5551#16) ∧
    decodeDiag [0x11#8, 0x09#8, 0x00#8, 0x02#8, 0x00#8] = .ok (.diagMalformedSubPacket 9#16 2#16) ∧
    decodeDiag [0x12#8, 0x04#8, 0x00#8, 0x09#8, 0x00#8] = .ok (.diagOversizedPayload 4#16 9#16) ∧
    decodeDiag [0x13#8, 0x0D#8, 0x00#8, 0x0C#8, 0x00#8] = .ok (.diagFrameSizeOverrun 13#16 12#16) ∧
    decodeDiag [0x14#8, 0x00#8, 0x00#8, 0x00#8, 0x00#8] = .ok (.diagTransportError 0#16 0#16) ∧
    decodeDiag [0x15#8, 0x00#8, 0x00#8, 0x00#8, 0x00#8] = .error .unknownCode := by decide

/-- The match words of opcode_table.json; operand bytes not given are zero. -/
theorem test_table_words : decodeTableWord 8 0x01 = some (.sendSync false 0#8 0#8 []) ∧
    decodeTableWord 8 0x82 = some (.sendDeferredH 0#8 0#8 []) ∧ decodeTableWord 8 0x03 = some (.flushNow false) ∧
    decodeTableWord 8 0x04 = some (.register false 0#8 0 0) ∧ decodeTableWord 8 0x00 = some (.reservedCmd 0#8) ∧
    decodeTableWord 32 0x00005555 = some .emptyFrameHeader ∧
    decodeTableWord 32 0x00000000 = some (.sentinelChannel 0#8 0#16) ∧
    decodeTableWord 32 0x05090000 = some (.sentinelSize 5#8 9#8) ∧
    decodeTableWord 32 0x03070100 = some (.subpktHeader 3#8 7#8 1#16) ∧
    decodeTableWord 32 0x05005055 = some (.frameHeader 5#16 0x5550#16) ∧
    decodeTableWord 8 0x13 = some (.diagFrameSizeOverrun 0#16 0#16) := by decide

/-- From reset a table word runs as the next step: a flush presents the empty frame. -/
theorem test_fetch_word : nextIs (step (State.reset.withFetchWord 8 0x03)) (fun t =>
    decide (t.phase = .xfer) && decide (t.trace.length = 1)) = true := by decide

/-! ## The codec -/

/-- V3, V4. -/
theorem test_encode : nextIs (exec (.encode 1#8 0x10#8 [1#8, 2#8]) s16) (fun t =>
    decide (t.ret = .bytes [0x01#8, 0x10#8, 0x02#8, 0x00#8, 0x01#8, 0x02#8])) = true ∧
    nextIs (exec (.encode 5#8 9#8 []) s16) (fun t => decide (t.ret = .bytes [0x05#8, 0x09#8, 0x00#8, 0x00#8])) = true := by
  decide

/-- V31, its first `DECODE`. -/
theorem test_decode_oversize : nextIs (exec (.decode .inp 4 12) (sDisp frameV31)) (fun t =>
    decide (t.ret = .view ⟨2#8, 9#8, 8#16, [1#8, 2#8, 3#8, 4#8, 5#8, 6#8, 7#8, 8#8]⟩ 13) &&
    decide (diagStream t = [⟨.oversizedPayload, 4#16, 9#16⟩])) = true := by decide

/-- V9 and V10: the header test and the sentinel test come first. -/
theorem test_decode_first_tests : nextIs (exec (.decode .inp 4 3) (sDisp frameA)) (fun t =>
    decide (t.ret = .malformed) && decide (t.trace = [])) = true ∧
    nextIs (exec (.decode .inp 4 12) (sDisp [0#8, 0#8, 0#8, 0#8, 0x00#8, 0x09#8, 0xFF#8, 0xFF#8])) (fun t =>
      decide (t.ret = .sentinel) && decide (t.trace = [])) = true := by decide

/-! ## The frame buffer -/

/-- V13. -/
theorem test_fbReset : nextIs (exec (.fbReset .out) (sOut frameV24)) (fun t =>
    decide (t.outb.slice 0 16 = e16)) = true := by decide

/-- V22: one over, then the exact fit. -/
theorem test_fbAppend_nospace : nextIs (exec (.fbAppend 4#8 1#8 (List.replicate 9 1#8)) s16) (fun t =>
    decide (t.ret = .status .noSpace) && decide (t.outb.slice 0 16 = e16)) = true := by decide

theorem test_fbAppend_exact :
    nextIs (exec (.fbAppend 4#8 1#8 [1#8, 2#8, 3#8, 4#8, 5#8, 6#8, 7#8, 8#8]) s16) (fun t =>
      decide (t.outb.slice 0 16 = [0x0C#8, 0x00#8, 0x59#8, 0x55#8, 0x04#8, 0x01#8, 0x08#8, 0x00#8, 0x01#8, 0x02#8, 0x03#8,
        0x04#8, 0x05#8, 0x06#8, 0x07#8, 0x08#8])) = true := by decide

/-- V24. -/
theorem test_fbParse_two : nextIs (exec (.fbParse .inp) (sDisp frameV24)) (fun t =>
    decide (t.ret = .views [⟨1#8, 0x10#8, 2#16, [1#8, 2#8]⟩, viewA]) && decide (t.trace = [])) = true := by decide

/-- V32. -/
theorem test_fbParse_oversize : nextIs (exec (.fbParse .inp) (sDisp frameV32)) (fun t =>
    decide (t.ret = .views [⟨1#8, 1#8, 1#16, [0xAA#8]⟩]) &&
    decide (diagStream t = [⟨.oversizedPayload, 9#16, 9#16⟩, ⟨.malformedSubPacket, 9#16, 7#16⟩])) = true := by decide

/-! ## The transport engine -/

/-- V56: A's link request. -/
theorem test_sendSync : nextIs (exec (.sendSync false 1#8 1#8 [0xA1#8]) s16) (fun t =>
    decide (t.phase = .xfer) && decide (t.trace = [.linkRequest
      (frame16 [0x05#8, 0x00#8, 0x50#8, 0x55#8, 0x01#8, 0x01#8, 0x01#8, 0x00#8, 0xA1#8])])) = true := by decide

/-- P2 line 3. -/
theorem test_sendDeferred : nextIs (exec (.sendDeferred 1#8 0x10#8 [1#8, 2#8]) s16) (fun t =>
    decide (t.phase = .idle) && decide (t.trace = [.result 0 .ok]) && decide (t.outb.slice 0 16 =
      frame16 [0x06#8, 0x00#8, 0x53#8, 0x55#8, 0x01#8, 0x10#8, 0x02#8, 0x00#8, 0x01#8, 0x02#8])) = true := by decide

/-- P2: the handler's send, taken in `Disp`. V56: in `Xfer` it is held. -/
theorem test_sendDeferredH : nextIs (exec (.sendDeferredH 2#8 0x22#8 [1#8]) (sDisp e16)) (fun t =>
    decide (t.phase = .disp) && decide (t.outb.slice 0 16 =
      frame16 [0x05#8, 0x00#8, 0x50#8, 0x55#8, 0x02#8, 0x22#8, 0x01#8, 0x00#8, 0x01#8])) = true ∧
    nextIs (exec (.sendDeferredH 2#8 0x22#8 [1#8]) sXfer) (fun t => decide (t.held.length = 1)) = true := by decide

/-- R139's example, with the send behind a client's flush and the parse already over: it runs inside the cycle and ahead
of both (R59). -/
theorem test_sendDeferredH_first : nextIs (step (sSend .ended [.engine 7])) (fun t =>
    decide (t.phase = .disp) && decide (t.parse = .ended) && decide (t.held = [⟨1, [0x03#8], false⟩]) &&
    decide (t.outb.slice 0 16 =
      frame16 [0x05#8, 0x00#8, 0x50#8, 0x55#8, 0x03#8, 0x08#8, 0x01#8, 0x00#8, 0x01#8])) = true := by decide

/-- P3 line 13: an empty frame is exchanged all the same (R131). -/
theorem test_flushNow : nextIs (exec (.flushNow false) s16) (fun t =>
    decide (t.phase = .xfer) && decide (t.trace = [.linkRequest e16])) = true := by decide

/-- V55 (a). -/
theorem test_irqRecv : nextIs (exec .irqRecv { sOut frameA with irqPending := true }) (fun t =>
    !t.irqPending && decide (t.trace = [.linkRequest frameA]) && decide (t.starter = .event)) = true := by decide

theorem test_xferCycle : nextIs (exec .xferCycle (sOut frameA)) (fun t =>
    decide (t.phase = .xfer) && decide (t.trace = [.linkRequest frameA])) = true := by decide

/-- P3 line 8: the link fails. -/
theorem test_link_fails : nextIs (step { sXfer with script := [.link none] }) (fun t =>
    decide (t.outb.slice 0 16 = e16) && decide (t.phase = .idle) &&
    decide (t.trace = [.result 1 .transportError])) = true := by decide

/-! ## The dispatch multiplexer and the tap -/

/-- V53. -/
theorem test_register : nextIs (exec (.register false 15#8 5 0) s16) (fun t =>
    decide (t.dt[15]? = some ⟨5, 0⟩) && decide (t.trace = [.result 0 .ok])) = true ∧
    nextIs (exec (.register false 16#8 5 0) s16) (fun t =>
      decide (t.dt = s16.dt) && decide (t.trace = [.result 0 .invalidChannel])) = true := by decide

/-- R163's example; V54. -/
theorem test_unregister : nextIs (exec (.unregister false 3#8) { s16 with dt := s16.dt.set 3 ⟨9, 0x11⟩ }) (fun t =>
    decide (t.dt = s16.dt) && decide (t.trace = [.result 0 .ok])) = true ∧
    nextIs (exec (.unregister false 200#8) s16) (fun t =>
      decide (t.dt = s16.dt) && decide (t.trace = [.result 0 .ok])) = true := by decide

/-- R164's example; D20. -/
theorem test_setDebugTap : nextIs (exec (.setDebugTap false 0x20 0) s16) (fun t =>
    decide (t.tap = ⟨true, 0x20, 0⟩)) = true ∧
    nextIs (exec (.setDebugTap false 0 5) s16) (fun t => !t.tap.valid) = true := by decide

theorem test_clearDebugTap : nextIs (exec (.clearDebugTap false) { s16 with tap := ⟨true, 7, 0x77⟩ }) (fun t =>
    decide (t.tap = ⟨false, 0, 0⟩)) = true := by decide

/-- P1's invocation; R161. -/
theorem test_dispatch : nextIs (exec (.dispatch viewA) (sDisp frameA)) (fun t =>
    decide (t.trace = [.dispatch 9 0x11 viewA]) && decide (t.serv = some (.handler 9 0x11))) = true ∧
    nextIs (exec (.dispatch ⟨0x20#8, 1#8, 1#16, [0x77#8]⟩) (sDisp frameA)) (fun t =>
      decide (t.trace = []) && decide (t.serv = none)) = true := by decide

/-- P4 line 5. -/
theorem test_tapForward : nextIs (exec .tapForward { sDisp frameA with tap := ⟨true, 7, 0x77⟩ }) (fun t =>
    decide (t.trace = [.tap 7 0x77 frameA])) = true := by decide

/-! ## Headers and records -/

/-- V25 and V36. -/
theorem test_frameHeader : nextIs (exec (.frameHeader 5#16 0x5551#16) (sDisp frameA)) (fun t =>
    decide (t.parse = .ended) && decide (diagStream t = [⟨.invalidChecksum, 5#16, 0x5551#16⟩])) = true ∧
    nextIs (exec (.frameHeader 13#16 0x5558#16) (sDisp frameA)) (fun t =>
      decide (t.parse = .running ⟨12, 4, 12⟩) && decide (diagStream t = [⟨.frameSizeOverrun, 13#16, 12#16⟩])) = true := by
  decide

/-- V42: nothing to deliver, no diagnostic. -/
theorem test_emptyFrameHeader : nextIs (exec .emptyFrameHeader (sDisp e16)) (fun t =>
    decide (t.parse = .ended) && decide (t.trace = [])) = true := by decide

/-- V24, the round at (10, 5); V31, the round at (4, 12). -/
theorem test_subpktHeader : nextIs (exec (.subpktHeader 3#8 7#8 1#16) (sParse frameV24 11 10 5)) (fun t =>
    decide (t.pv = some viewA) && decide (t.parse = .running ⟨11, 15, 0⟩)) = true ∧
    nextIs (exec (.subpktHeader 2#8 9#8 9#16) (sParse frameV31 12 4 12)) (fun t =>
      decide (t.parse = .running ⟨12, 17, -1⟩) && decide (diagStream t = [⟨.oversizedPayload, 4#16, 9#16⟩])) = true := by
  decide

/-- V28. -/
theorem test_sentinelChannel : nextIs (exec (.sentinelChannel 9#8 1#16) (sParse frameV28 10 9 5)) (fun t =>
    decide (t.parse = .ended) && decide (t.trace = [])) = true := by decide

/-- V29. -/
theorem test_sentinelSize : nextIs (exec (.sentinelSize 5#8 9#8) (sParse frameV28 11 9 6)) (fun t =>
    decide (t.parse = .ended) && decide (t.trace = [])) = true := by decide

/-- R80: refused by name. -/
theorem test_reservedCmd : refusedAs (exec (.reservedCmd 0x08#8) s16) (.reservedCommand 0x08#8) = true := by decide

/-- R81: the result of the command being taken goes to its caller. -/
theorem test_results : nextIs (exec .resultOk (sOut e16)) (fun t => decide (t.trace = [.result 1 .ok])) = true ∧
    nextIs (exec .resultNoSpace (sOut e16)) (fun t => decide (t.trace = [.result 1 .noSpace])) = true ∧
    nextIs (exec .resultInvalidChannel (sOut e16)) (fun t => decide (t.trace = [.result 1 .invalidChannel])) = true ∧
    nextIs (exec .resultTransportError (sOut e16)) (fun t => decide (t.trace = [.result 1 .transportError])) = true := by
  decide

/-- R82: the codes. -/
theorem test_diag_codes : [DiagKind.invalidChecksum, .malformedSubPacket, .oversizedPayload, .frameSizeOverrun,
    .transportError].map DiagKind.code = [0x10#8, 0x11#8, 0x12#8, 0x13#8, 0x14#8] := by decide

/-- R82: the last records of V57. -/
theorem test_diags : nextIs (exec (.diagInvalidChecksum 5#16 0x5551#16) s16) (fun t =>
    decide (diagStream t = [⟨.invalidChecksum, 5#16, 0x5551#16⟩])) = true ∧
    nextIs (exec (.diagMalformedSubPacket 9#16 2#16) s16) (fun t =>
      decide (diagStream t = [⟨.malformedSubPacket, 9#16, 2#16⟩])) = true ∧
    nextIs (exec (.diagOversizedPayload 4#16 9#16) s16) (fun t =>
      decide (diagStream t = [⟨.oversizedPayload, 4#16, 9#16⟩])) = true ∧
    nextIs (exec (.diagFrameSizeOverrun 13#16 12#16) s16) (fun t =>
      decide (diagStream t = [⟨.frameSizeOverrun, 13#16, 12#16⟩])) = true ∧
    nextIs (exec (.diagTransportError 0#16 0#16) s16) (fun t =>
      decide (diagStream t = [⟨.transportError, 0#16, 0#16⟩])) = true := by decide

/-! ## Witnesses: for every statement with hypotheses, a state and operands that meet them (a clause each) -/

/-- `frameA` with another byte behind its content. -/
def frameB : List Byte := frameA.set 15 0x01#8

/-- A full frame (V22, V44). -/
def frameFull : List Byte :=
  [0x0C#8, 0x00#8, 0x59#8, 0x55#8, 0x04#8, 0x01#8, 0x08#8, 0x00#8, 0x01#8, 0x02#8, 0x03#8, 0x04#8, 0x05#8, 0x06#8,
    0x07#8, 0x08#8]

theorem exists_next {o : Host.Outcome State Fault Refusal} (h : nextIs o (fun _ => true) = true) : ∃ t, o = .next t := by
  cases o with
  | next t => exact ⟨t, rfl⟩
  | fault _ => exact absurd h Bool.false_ne_true
  | refused _ => exact absurd h Bool.false_ne_true

theorem c16_legal : c16.Legal := by decide

theorem frameInv_nil : FrameInv c16 [] where
  canonical := rfl
  checksum := by decide
  size_le := by decide
  tail := fun off h => Memory.fill_of_four_le (by change 4 + 0 ≤ off at h; omega)
  chain := ⟨[], rfl⟩

theorem frameInv_frameA : FrameInv c16 (Memory.load frameA) where
  canonical := by decide
  checksum := by decide
  size_le := by decide
  tail := fun off h => by
    have h9 : 9 ≤ off := h
    rw [Memory.read_load, show frameA.length = 16 from rfl]
    by_cases h16 : off < 16
    · have : ∀ k, 9 ≤ k → k < 16 → frameA.getD k 0#8 = 0#8 := by decide
      rw [if_pos h16]; exact this off h9 h16
    · rw [if_neg h16]; exact Memory.fill_of_four_le (by omega)
  chain := ⟨[⟨3#8, 7#8, [0xAA#8]⟩], by decide⟩

theorem frameInv_full : FrameInv c16 (Memory.load frameFull) where
  canonical := by decide
  checksum := by decide
  size_le := by decide
  tail := fun off h => by
    have h16 : 16 ≤ off := h
    rw [Memory.read_load, if_neg (by change ¬ off < 16; omega)]; exact Memory.fill_of_four_le (by omega)
  chain := ⟨[⟨4#8, 1#8, [1#8, 2#8, 3#8, 4#8, 5#8, 6#8, 7#8, 8#8]⟩], by decide⟩

/-- A client's flush and a deferred send are held, an event is pending, `OUT` holds a sub-packet. -/
def sIdle : State :=
  { sOut frameA with irqPending := true, held := [⟨1, [0x03#8], false⟩, ⟨2, [0x02#8, 5#8, 9#8, 0#8, 0#8], false⟩] }

/-- A cycle in `Disp` with a frame, and a tap. -/
def sTap : State := { sDisp frameA with tap := ⟨true, 7, 0x77⟩ }

/-- A view is to be dispatched. -/
def sView : State := { sParse frameA 5 9 0 with pv := some viewA }

/-- A handler is in service and waits for a command of its own (R230). -/
def sDead : State :=
  { sView with serv := some (.handler 9 0x11), held := [⟨9, [0x03#8], true⟩] }

theorem inv_sIdle : Inv sIdle := by
  refine ⟨c16_legal, frameInv_frameA, by decide, by decide, by decide, by decide, by decide, by decide, by decide,
    ?_, ?_, ?_, ?_, rfl⟩ <;> intros <;> contradiction

theorem inv_sDisp : Inv (sDisp frameA) := by
  refine ⟨c16_legal, frameInv_nil, by decide, by decide, by decide, by decide, by decide, by decide, by decide,
    ?_, ?_, ?_, ?_, rfl⟩ <;> intros <;> contradiction

theorem inv_sTap : Inv sTap := by
  refine ⟨c16_legal, frameInv_nil, by decide, by decide, by decide, by decide, by decide, by decide, by decide,
    ?_, ?_, ?_, ?_, rfl⟩ <;> intros <;> contradiction

theorem inv_sView : Inv sView := by
  refine ⟨c16_legal, frameInv_nil, by decide, by decide, by decide, by decide, by decide, by decide, by decide,
    ?_, ?_, ?_, ?_, rfl⟩
  · intro cur h; cases h; decide
  · intro v h; cases h; exact ⟨by decide, _, rfl⟩
  · intros; contradiction
  · intros; contradiction

theorem deadlocked_sDead : Deadlocked sDead := ⟨rfl, by decide, by decide, rfl⟩

theorem witness_ResetLeavesTheSpecValues : s16 = State.resetWith c16 ∧ 15 < c16.n ∧ (⟨0, 0⟩ : DtEntry) ∈ s16.dt := by
  decide

theorem witness_InvariantHoldsAtReset : Config.default.Legal := by decide

theorem witness_EveryStepKeepsTheInvariant : Inv sIdle ∧ ∃ t, step sIdle = .next t :=
  ⟨inv_sIdle, exists_next (by decide)⟩

theorem witness_NoOperationIsFatal : Inv sIdle ∧
    ∀ h ∈ sIdle.held, ∃ i, decodeCommand sIdle.cfg h.record = .ok i ∧ ∀ code, i ≠ .reservedCmd code := by
  refine ⟨inv_sIdle, fun h hh => ?_⟩
  rcases List.mem_cons.mp hh with rfl | hh
  · exact ⟨.flushNow false, by decide, fun _ => by simp⟩
  · rcases List.mem_cons.mp hh with rfl | hh
    · exact ⟨.sendDeferred 5#8 9#8 [], by decide, fun _ => by simp⟩
    · cases hh

theorem witness_PresentedRecordsAreNeverRead : ∃ t, step sIdle = .next t := exists_next (by decide)

theorem witness_DecodeOfEncodeIsTheOperation :
    Instr.wf c16 (.register true 3#8 255 4294967295) = true ∧ (Instr.register true 3#8 255 4294967295).port ≠ .none := by
  decide

theorem witness_DecodedRecordsAreTheirCommand :
    decodeCommand c16 [0x85#8, 0x03#8] = .ok (.unregister true 3#8) ∧
      ∀ code, Instr.unregister true 3#8 ≠ .reservedCmd code := ⟨by decide, fun _ => by simp⟩

theorem witness_ReservedCodesAreRefused : (0x80#8 : Byte).toNat % 128 = 0 ∧ 8 ≤ (0x7F#8 : Byte).toNat % 128 := by decide

theorem witness_SendRecordMustMatchItsLength : (0x82#8 : Byte).toNat % 128 = 2 ∧
    ([] : List Byte).length ≠ (1#8 : Byte).toNat + 256 * (0#8 : Byte).toNat := by decide

theorem witness_SubPacketHeadersAreClassified : (∃ b : Byte, b = 0#8) ∧ (∃ b b' : Byte, b ≠ 0#8 ∧ b' = 0#8) ∧
    ∃ b b' : Byte, b ≠ 0#8 ∧ ¬ (b' = 0#8 ∧ b' = 0#8) := ⟨⟨0#8, rfl⟩, ⟨1#8, 0#8, by decide⟩, ⟨1#8, 1#8, by decide⟩⟩

theorem witness_ChecksumCatchesACorruptedSize : checksumValid 5#16 0x5550#16 = true ∧ (4#16 : Word) ≠ 5#16 ∧
    (0xFFFF#16 : Word) ^^^ 0xAAAA#16 = 0x5555#16 := by decide

theorem witness_EncodeIsSelfDelimiting : (⟨3#8, 7#8, [0xAA#8]⟩ : Message).payload.length ≤ 65535 ∧
    (⟨3#8, 7#8, [0xAA#8]⟩ : Message).wire ++ [1#8] = (⟨3#8, 7#8, [0xAA#8]⟩ : Message).wire ++ [1#8] := ⟨by decide, rfl⟩

theorem witness_DecodeOfEncodedSubPacket : c16.Legal ∧ (⟨3#8, 7#8, [0xAA#8]⟩ : Message).Real ∧ 1 ≤ c16.pmax ∧ 4 + 1 ≤ 5 ∧
    4 + 5 ≤ c16.n ∧
    (Ops.buffer .inp (sDisp frameA)).slice 4 (4 + 1) = (⟨3#8, 7#8, [0xAA#8]⟩ : Message).wire := by decide

/-- A clause each: V9, V11, V33 (oversized and malformed), and V31 (the full buffer). -/
theorem witness_DecodeAnswersInTheOrderOfItsTests : c16.Legal ∧ (1 ≤ 3 ∧ 4 + 3 ≤ c16.n) ∧
    (Memory.load frameV28).read 9 = 0#8 ∧ 9 + 5 ≤ c16.n ∧
    ((Memory.load frameV31).read 4 ≠ 0#8 ∧ (Memory.load frameV31).read16 6 = 9#16 ∧ 10 < 4 + 8) ∧
    (4 + 8 ≤ 12 ∧ 4 + 12 ≤ c16.n) := by decide

theorem witness_DecodeOutsideTheBufferFaults : c16.n < 13 + 4 ∧
    (12 + 4 ≤ c16.n ∧ (Memory.load frameV31).read 12 ≠ 0#8 ∧ (Memory.load frameV31).read16 14 ≠ 0#16 ∧
      4 + min ((Memory.load frameV31).read16 14).toNat c16.pmax ≤ 12 ∧
      c16.n < 12 + 4 + min ((Memory.load frameV31).read16 14).toNat c16.pmax) := by decide

/-- Two states whose buffers differ outside the slice. -/
theorem witness_DecodeReadsOnlyItsSlice : (sDisp frameA).cfg = (sOut frameB).cfg ∧ Memory.load frameA ≠ Memory.load frameB ∧
    ∀ o, 4 ≤ o → o < 4 + 5 →
      (Ops.buffer .inp (sDisp frameA)).read o = (Ops.buffer .out (sOut frameB)).read o :=
  ⟨rfl, by decide, fun o h h' => by
    have : ∀ o, o < 9 → 4 ≤ o →
      (Ops.buffer .inp (sDisp frameA)).read o = (Ops.buffer .out (sOut frameB)).read o := by decide
    exact this o h' h⟩

theorem witness_FrameResetLeavesTheEmptyFrame : s16.outb.wf s16.cfg.n = true ∧ s16.inb.wf s16.cfg.n = true ∧
    (∀ off, off < 16 → s16.outb.read off = emptyFrameByte off) ∧
    ∀ off, off < 16 → s16.inb.read off = emptyFrameByte off := by decide

/-- At its boundary: an empty accumulator and a payload of `N - 8` bytes. -/
theorem witness_AppendWritesAtTheFillOffset : s16.cfg.Legal ∧ s16.outb.wf s16.cfg.n = true ∧
    s16.outb.frameSize.toNat + (4 + (List.replicate 8 1#8).length) = s16.cfg.n - 4 := by decide

/-- V18 and V22: one byte over, and not even a header's room. -/
theorem witness_AppendThatDoesNotFitChangesNothing :
    ((s16.cfg.n : Int) - 4 - s16.outb.frameSize.toNat < 4 + (List.replicate 9 1#8).length) ∧
    (((sOut frameFull).cfg.n : Int) - 4 - (sOut frameFull).outb.frameSize.toNat < 4 + ([] : List Byte).length) := by decide

theorem witness_AppendKeepsTheFrameInvariants : FrameInv c16 (Memory.load frameA) ∧
    appendFits c16 (Memory.load frameA) [1#8, 2#8, 3#8] = true := ⟨frameInv_frameA, by decide⟩

/-- V15's two messages fill 11 of 12 bytes. -/
theorem witness_ParseYieldsWhatWasAppended : s16.cfg.Legal ∧ s16.outb = [] ∧
    (∀ m ∈ [(⟨1#8, 0x10#8, [1#8, 2#8]⟩ : Message), ⟨3#8, 7#8, [0xAA#8]⟩], m.Real) ∧
    (chainOf [⟨1#8, 0x10#8, [1#8, 2#8]⟩, ⟨3#8, 7#8, [0xAA#8]⟩]).length ≤ s16.cfg.n - 4 := by decide

/-- V28; and a frame that declares 13 bytes, one more than `CAP`, with a sentinel after its first sub-packet. -/
theorem witness_SentinelCutsTheParse : c16.Legal ∧ (∀ m ∈ [(⟨1#8, 1#8, [0xAA#8]⟩ : Message)], m.Real) ∧
    ((Memory.load frameV28).frameChecksum = (Memory.load frameV28).frameSize ^^^ 0x5555#16 ∧
      (Memory.load frameV28).slice 4 (min (Memory.load frameV28).frameSize.toNat c16.cap) =
        chainOf [⟨1#8, 1#8, [0xAA#8]⟩] ++ ([0#8, 9#8, 1#8, 0#8] ++ [0xBB#8])) ∧
    (let f := Memory.load [0x0D#8, 0x00#8, 0x58#8, 0x55#8, 0x01#8, 0x01#8, 0x01#8, 0x00#8, 0xAA#8, 0x05#8, 0x09#8]
     f.frameChecksum = f.frameSize ^^^ 0x5555#16 ∧ c16.cap < f.frameSize.toNat ∧
      f.slice 4 (min f.frameSize.toNat c16.cap) =
        chainOf [⟨1#8, 1#8, [0xAA#8]⟩] ++ ([5#8, 9#8, 0#8, 0#8] ++ [0#8, 0#8, 0#8])) := by decide

/-- V25. -/
theorem witness_BadChecksumDiscardsTheFrame : (Memory.load [0x05#8, 0x00#8, 0x51#8, 0x55#8]).frameChecksum ≠
    (Memory.load [0x05#8, 0x00#8, 0x51#8, 0x55#8]).frameSize ^^^ 0x5555#16 := by decide

theorem witness_ParseIsTotalAndBounded : s16.cfg.Legal := by decide

theorem witness_ParseReadsOnlyTheContent : Memory.load frameA ≠ (Memory.load frameA).write 9 1#8 ∧
    ∀ o, o < 4 + min (Memory.load frameA).frameSize.toNat c16.cap →
      (Memory.load frameA).read o = ((Memory.load frameA).write 9 1#8).read o := ⟨by decide, by decide⟩

theorem witness_ParseDiagnosticsComeInOrder : c16.Legal := by decide

/-- V31. -/
theorem witness_OversizedFirstSubPacketIsTruncated : (sDisp frameV31).cfg.Legal ∧
    (sDisp frameV31).inb.frameChecksum = checksumOf (sDisp frameV31).inb.frameSize ∧
    (sDisp frameV31).inb.frameSize.toNat = c16.cap ∧ (sDisp frameV31).inb.read 4 ≠ 0#8 ∧
    9#16 = (sDisp frameV31).inb.read16 6 ∧ c16.n - 8 < (9#16 : Word).toNat := by decide

theorem witness_CyclesStartByPresentingOut : sIdle.phase = .idle ∧ sIdle.irqPending = true := by decide

theorem witness_CyclesStartOnlyInIdle : sXfer.phase ≠ .idle ∧ s16.irqPending = false := by decide

/-- At the boundary `need = remaining`. -/
theorem witness_SendSyncAppendsThenTransfers : s16.phase = .idle ∧
    s16.outb.frameSize.toNat + (4 + (List.replicate 8 1#8).length) = s16.cfg.n - 4 := by decide

theorem witness_SendWithoutSpaceOnlyReports : (sOut frameFull).phase = .idle ∧
    (((sOut frameFull).cfg.n : Int) - 4 - (sOut frameFull).outb.frameSize.toNat < 4 + ([] : List Byte).length) ∧
    (sDisp e16).phase ≠ .xfer ∧
    (((sDisp e16).cfg.n : Int) - 4 - (sDisp e16).outb.frameSize.toNat < 4 + (List.replicate 9 1#8).length) := by decide

theorem witness_DeferredSendOnlyAppends : s16.phase = .idle ∧ (sDisp e16).phase ≠ .xfer ∧
    s16.outb.frameSize.toNat + (4 + (List.replicate 8 1#8).length) ≤ s16.cfg.n - 4 ∧
    (sDisp e16).outb.frameSize.toNat + (4 + (List.replicate 8 1#8).length) ≤ (sDisp e16).cfg.n - 4 := by decide

theorem witness_CommandsOutsideIdleAreHeld : (sDisp e16).phase ≠ .idle ∧ sXfer.phase = .xfer := by decide

/-- One state for each starter. -/
theorem witness_FailedExchangeDropsTheFrame : ∀ st ∈ [Starter.client 1, .event, .nobody],
    ({ sXfer with starter := st, script := [.link none] } : State).phase = .xfer ∧
    ({ sXfer with starter := st, script := [.link none] } : State).script = .link none :: [] := by decide

theorem witness_SuccessfulExchangeTakesTheFrame : sXfer.phase = .xfer ∧ frameV31.length = sXfer.cfg.n ∧
    ({ sXfer with script := [.link (some frameV31)] } : State).script = .link (some frameV31) :: [] := by decide

theorem witness_CycleEndKeepsHandlerAppends : ∀ st ∈ [Starter.client 1, .event, .nobody],
    ({ sDisp frameA with starter := st, parse := .ended } : State).phase = .disp ∧
    ({ sDisp frameA with starter := st, parse := .ended } : State).parse = .ended ∧
    (sDisp frameA).serv = none ∧ (sDisp frameA).internal = [] ∧ (sDisp frameA).script = [] ∧
    ∀ h ∈ (sDisp frameA).held, isHandlerSend h = false := by decide

theorem witness_PhaseChangesOnlyAsTheTableSays : sIdle.internal = [] ∧ ∃ t, step sIdle = .next t :=
  ⟨rfl, exists_next (by decide)⟩

theorem witness_LockedStepTakesNoClientCommand : sDead.phase ≠ .idle ∧ sDead.internal = [] ∧ (sSend .ended []).phase ≠ .idle ∧
    (sSend .ended []).internal = [] ∧ sXfer.phase ≠ .idle ∧ sXfer.internal = [] ∧ (∃ t, step sDead = .next t) ∧
    (∃ t, step (sSend .ended []) = .next t) ∧ ∃ t, step sXfer = .next t :=
  ⟨by decide, rfl, by decide, rfl, by decide, rfl, exists_next (by decide), exists_next (by decide), exists_next (by decide)⟩

theorem witness_UnansweredLinkStallsTheEngine : sXfer.phase = .xfer ∧ sXfer.internal = [] ∧
    (∀ a, Move.link a ∉ sXfer.script) ∧ ∃ t, core.run 1 sXfer = .next t :=
  ⟨rfl, rfl, fun _ h => (List.not_mem_nil h).elim, sXfer, rfl⟩

theorem witness_ReentrantCommandDeadlocks : Deadlocked sDead ∧ ∃ t, core.run 1 sDead = .next t :=
  ⟨deadlocked_sDead, ⟨sDead, rfl⟩⟩

theorem witness_EdgesAreLatched : ({ s16 with script := [.edge] } : State).script = .edge :: [] ∧ sIdle.internal = [] ∧
    sIdle.irqPending = true ∧ (∃ t, step sIdle = .next t) ∧ s16.internal = [] ∧ s16.irqPending = false ∧
    ∃ t, step { s16 with script := [.edge] } = .next t ∧ t.irqPending = true :=
  ⟨rfl, rfl, rfl, exists_next (by decide), rfl, rfl, _, rfl, rfl⟩

/-- The first clause for a send named by the script and by its absence, then the second for a command named by the
script, by its absence, and for the event. -/
theorem witness_StepRunsTheCommandTaken :
    (let s := sSend .ended [.engine 7]
     s.phase = .disp ∧ s.internal = [] ∧ s.held[1]? = some ⟨9, [0x82#8, 3#8, 8#8, 1#8, 0#8, 1#8], false⟩ ∧
       isHandlerSend ⟨9, [0x82#8, 3#8, 8#8, 1#8, 0#8, 1#8], false⟩ = true ∧
       decodeCommand s.cfg [0x82#8, 3#8, 8#8, 1#8, 0#8, 1#8] = .ok (.sendDeferredH 3#8 8#8 [1#8]) ∧
       s.script = .engine 7 :: [] ∧ 7 % s.held.countP isHandlerSend = (s.held.take 1).countP isHandlerSend ∧
       (sSend .ended []).script = [] ∧ ∀ q ∈ s.held.take 1, isHandlerSend q = false) ∧
    sIdle.phase = .idle ∧ sIdle.internal = [] ∧
    sIdle.held[1]? = some ⟨2, [0x02#8, 5#8, 9#8, 0#8, 0#8], false⟩ ∧
    decodeCommand sIdle.cfg [0x02#8, 5#8, 9#8, 0#8, 0#8] = .ok (.sendDeferred 5#8 9#8 []) ∧
    sIdle.script = [] ∧ sIdle.held[0]? = some ⟨1, [0x03#8], false⟩ ∧
    decodeCommand sIdle.cfg [0x03#8] = .ok (.flushNow false) ∧ sIdle.irqPending = true ∧ sIdle.held.length = 2 := by
  decide

/-- A state for each of the six clauses: the tap, the header, a view, a header at the cursor, trailing bytes, the end. -/
theorem witness_StepRunsTheInboundFrame :
    (∀ s ∈ [sTap, sDisp frameA, sView, sParse frameA 12 12 4, sParse frameA 7 8 3, sParse frameA 5 9 0],
      s.phase = .disp ∧ s.internal = [] ∧ s.serv = none ∧ s.script = [] ∧ ∀ h ∈ s.held, isHandlerSend h = false) ∧
    (sTap.parse = .notBegun ∧ sTap.tap.valid = true) ∧
    ((sDisp frameA).parse = .notBegun ∧ (sDisp frameA).tap.valid = false) ∧
    (sView.parse = .running ⟨5, 9, 0⟩ ∧ sView.pv = some viewA) ∧
    ((sParse frameA 12 12 4).parse = .running ⟨12, 12, 4⟩ ∧ (sParse frameA 12 12 4).pv = none ∧ 12 + 4 ≤ c16.n) ∧
    ((sParse frameA 7 8 3).parse = .running ⟨7, 8, 3⟩ ∧ (sParse frameA 7 8 3).tap.valid = false) ∧
    (sParse frameA 5 9 0).parse = .running ⟨5, 9, 0⟩ := by decide

theorem witness_EngineWaitsWithoutWork : (s16.internal = [] ∧ s16.script = [] ∧ s16.held = [] ∧ s16.irqPending = false) ∧
    (sXfer.internal = [] ∧ sXfer.script = [] ∧ sXfer.phase = .xfer) ∧
    (sDead.internal = [] ∧ sDead.script = [] ∧ sDead.phase = .disp ∧ sDead.serv ≠ none ∧
      ∀ h ∈ sDead.held, isHandlerSend h = false) := by decide

theorem witness_DoneEndsTheService :
    (∀ s ∈ [{ sView with serv := some (.handler 9 0x11), script := [.done] },
        { sTap with serv := some (.tap 7 0x77), script := [.done] }, { s16 with script := [.done] }],
      s.script = .done :: [] ∧ ∀ q ∈ s.held, q.awaited = false) ∧ sTap.phase = .disp ∧ s16.serv = none := by decide

/-- The last channel of the table and the first outside it. -/
theorem witness_RegisterInstallsTheEntry : s16.phase = .idle ∧
    ((15#8 : Byte).toNat < s16.cfg.nch ∧ s16.dt.length = s16.cfg.nch ∧ 255 < 2 ^ s16.cfg.handlerW ∧
      4294967295 < 2 ^ s16.cfg.ctxW) ∧ s16.cfg.nch ≤ (16#8 : Byte).toNat := by decide

theorem witness_UnregisterClearsTheEntry : s16.phase = .idle ∧
    ((15#8 : Byte).toNat < s16.cfg.nch ∧ s16.dt.length = s16.cfg.nch) ∧ s16.cfg.nch ≤ (16#8 : Byte).toNat := by decide

theorem witness_TapCommandsWriteTheTap : s16.phase = .idle ∧ 255 < 2 ^ s16.cfg.handlerW ∧
    4294967295 < 2 ^ s16.cfg.ctxW := by decide

/-- A bound channel, an unbound one (the last of the table), and one outside it. -/
theorem witness_DispatchInvokesTheBoundHandler :
    ((3#8 : Byte).toNat < c16.nch ∧ (sDisp frameA).dt[(3#8 : Byte).toNat]? = some ⟨9, 0x11⟩ ∧ 9 ≠ 0) ∧
    ((15#8 : Byte).toNat < c16.nch ∧ (sDisp frameA).dt[(15#8 : Byte).toNat]? = some ⟨0, 0⟩) ∧
    c16.nch ≤ (16#8 : Byte).toNat := by decide

theorem witness_InstalledTapSilencesDispatch : Inv sTap ∧ sTap.phase = .disp ∧ sTap.tap.valid = true ∧
    ∃ t, step sTap = .next t := ⟨inv_sTap, rfl, rfl, exists_next (by decide)⟩

theorem witness_DispatchRecordsAreInBounds : Inv sView ∧ ∃ t, step sView = .next t :=
  ⟨inv_sView, exists_next (by decide)⟩

/-- One state for each starter, with a client's flush held. -/
theorem witness_CycleDeliversWhatTheParserYields : ∀ st ∈ [Starter.client 1, .event, .nobody],
    let s : State := { sDisp frameA with starter := st, held := [⟨4, [0x03#8], false⟩] }
    Inv s ∧ s.starter = st ∧ s.phase = .disp ∧ s.parse = .notBegun ∧ s.tap.valid = false ∧ s.serv = none ∧
      s.pv = none ∧ (∀ h ∈ s.held, isHandlerSend h = false ∧ h.awaited = false) ∧ s.script = [] := by
  intro st _
  exact ⟨{ inv_sDisp with noStarter := fun h => by cases h }, rfl, rfl, rfl, rfl, rfl, rfl,
    fun h hh => by rcases List.mem_singleton.mp hh with rfl; decide, rfl⟩

/-- V47 and V42, V25, V38 (`size = CAP`), V36 (`size = CAP + 1`). -/
theorem witness_FrameHeaderIsChecked : (sDisp frameA).phase = .disp ∧ (sDisp frameA).tap.valid = false ∧
    (sDisp frameA).parse = .notBegun ∧ (5#16 : Word) ≠ 0#16 ∧ (0x5551#16 : Word) ≠ 5#16 ^^^ 0x5555#16 ∧
    ((0x5559#16 : Word) = 12#16 ^^^ 0x5555#16 ∧ (12#16 : Word).toNat ≤ c16.cap) ∧
    ((0x5558#16 : Word) = 13#16 ^^^ 0x5555#16 ∧ c16.cap < (13#16 : Word).toNat) := by decide

/-- The cursor of V31, with the payloads on both sides of the fit. -/
theorem witness_SubPacketHeaderIsParsed : (sParse frameV31 12 4 12).phase = .disp ∧
    (sParse frameV31 12 4 12).tap.valid = false ∧ (sParse frameV31 12 4 12).parse = .running ⟨12, 4, 12⟩ ∧
    (sParse frameV31 12 4 12).pv = none ∧ (4 : Int) ≤ 12 ∧ (4 : Int) + 12 ≤ c16.n ∧
    (4 : Int) + min (9#16 : Word).toNat c16.pmax ≤ 12 ∧
    ((sParse frameV31 11 5 11).parse = .running ⟨11, 5, 11⟩ ∧ (5 : Int) + 11 ≤ c16.n ∧
      (11 : Int) < 4 + min (9#16 : Word).toNat c16.pmax) := by decide

/-- Each way for a header to be read by nobody. -/
theorem witness_HeadersNobodyReadAreData : s16.phase ≠ .disp ∧ sTap.tap.valid = true ∧
    (sParse frameA 5 4 5).parse ≠ .notBegun ∧ (∀ cur, (sDisp frameA).parse ≠ .running cur) ∧ sView.pv ≠ none :=
  ⟨by decide, rfl, by decide, fun _ h => (by cases h), by decide⟩

theorem witness_DiagnosticsAreAppendedToTheStream : (65535 : Nat) ≤ 65535 ∧
    ∃ t, exec (.diagInvalidChecksum 5#16 0x5551#16) s16 = .next t := ⟨by decide, exists_next (by decide)⟩

end Sys2Proof.Tests
end

/-! Scope of the block: no step is fatal where the held records are commands (R11, R184), and a header that no
parser reads is data (R4 (e)). -/

namespace Sys2Proof.Machine

/-! ## Nothing is fatal -/

/-- No invariant speaks of the moves still to come. -/
theorem Inv.with_script {s : State} (h : Inv s) (ms : List Move) : Inv { s with script := ms } :=
  { h with }

/-- What is left for a running parse lies inside the buffer (R25, the precondition of R102). -/
theorem Inv.cursor_inside {s : State} (h : Inv s) {cur : Cursor} (hp : s.parse = .running cur) :
    (cur.pos : Int) + cur.rem ≤ s.cfg.n := by
  obtain ⟨hlim, -, hsum, -⟩ := h.cursor cur hp
  have hn : 9 ≤ s.cfg.n := h.legal.1
  rw [Config.cap] at hlim
  omega

/-- The engine's next fetch stays inside `IN`. -/
theorem Inv.fetchOutside_eq_false {s : State} (h : Inv s) : Engine.fetchOutside s = false := by
  unfold Engine.fetchOutside
  split
  · rename_i cur hp _
    have hin := h.cursor_inside hp
    rw [Bool.and_eq_false_iff, decide_eq_false_iff_not, decide_eq_false_iff_not]
    omega
  · rfl

/-- `DECODE` on a slice inside the buffer never reads outside it (R102). -/
theorem decodeFields_ne_outside {c : Config} {pos rem : Nat} (hin : pos + rem ≤ c.n) (m : Memory) (ch op : Byte)
    (ps : Word) (big : Bool) : Ops.decodeFields c m pos rem ch op ps ≠ (.outside, big) := by
  intro e
  rcases decodeFields_cases c m pos rem ch op ps with
    ⟨-, e'⟩ | ⟨-, -, -, e'⟩ | ⟨-, -, hfit, hout, -⟩ | ⟨-, -, -, -, e'⟩
  · simp [e'] at e
  · simp [e'] at e
  · omega
  · simp [e'] at e

/-- A round of a parse whose cursor lies inside the buffer has a next state. -/
theorem parseRound_next {s : State} (hin : ∀ cur, s.parse = .running cur → (cur.pos : Int) + cur.rem ≤ s.cfg.n)
    (ch op : Byte) (ps : Word) : ∃ s', Ops.parseRound ch op ps s = .next s' := by
  unfold Ops.parseRound
  split
  · rename_i cur _ hp _
    have hcur := hin cur hp
    split
    · exact ⟨_, rfl⟩
    · split
      · exact ⟨_, rfl⟩
      · split
        · exact ⟨_, rfl⟩
        · exact ⟨_, rfl⟩
        · exact ⟨_, rfl⟩
        · rename_i hout
          exact absurd hout (decodeFields_ne_outside (by omega) _ _ _ _ _)
  · exact ⟨_, rfl⟩

/-- The operation that the cycle in progress fetches has a next state. -/
theorem exec_fetchInbound_next {s : State} (h : Inv s) {i : Instr} (hf : Engine.fetchInbound s = some i) :
    ∃ s', exec i s = .next s' := by
  unfold Engine.fetchInbound at hf
  split at hf
  · split at hf
    · cases hf; exact ⟨_, rfl⟩
    · cases hf; exact ⟨_, exec_decodeFrameHeader _ _ _ _ s⟩
  · split at hf
    · cases hf; exact ⟨_, rfl⟩
    · split at hf
      · cases hf
      · cases hf
        rw [exec_decodeSubHeader]
        exact parseRound_next (fun _ => h.cursor_inside) _ _ _
  · cases hf

/-- The cycle in progress can always go on. -/
theorem proceed_next {s : State} (h : Inv s) : ∃ s', Engine.proceed s = .next s' := by
  unfold Engine.proceed
  rw [h.fetchOutside_eq_false, if_neg Bool.false_ne_true]
  split
  · rename_i hf
    exact exec_fetchInbound_next h hf
  · split
    · exact parseRound_next (fun _ => h.cursor_inside) _ _ _
    · exact ⟨_, rfl⟩

/-- A record that is a command and no reserved code, under given parameters (R78, R80). -/
def IsCommand (c : Config) (q : Held) : Prop :=
  ∃ i, decodeCommand c q.record = .ok i ∧ ∀ code, i ≠ .reservedCmd code

/-- Taking a held command has a next state. -/
theorem take_next {s : State} (hc : ∀ q ∈ s.held, IsCommand s.cfg q) (idx : Nat) :
    ∃ s', Engine.take idx s = .next s' := by
  unfold Engine.take
  split
  · exact ⟨_, rfl⟩
  · rename_i q hq
    obtain ⟨i, hd, hr⟩ := hc q (List.mem_of_getElem? hq)
    rw [hd]
    exact exec_command_next _ (decodeCommand_port hd) hr

/-- Whatever the engine chooses, its move has a next state. -/
theorem move_next {s : State} (h : Inv s) (hc : ∀ q ∈ s.held, IsCommand s.cfg q) (k : Nat) :
    ∃ s', Engine.move k s = .next s' := by
  unfold Engine.move
  rw [h.noInternal]
  dsimp only
  split
  · exact ⟨_, rfl⟩
  · exact take_next hc _
  · simp only [exec, execIrqRecv]
    split <;> exact ⟨_, rfl⟩
  · exact proceed_next h

/-- Whichever move comes next, of the engine or of the environment, it has a next state. -/
theorem apply_next {s : State} (h : Inv s) (hc : ∀ q ∈ s.held, IsCommand s.cfg q) (m : Move) :
    ∃ s', Engine.apply m s = .next s' := by
  cases m with
  | engine k => exact move_next h hc k
  | issue q => exact ⟨_, rfl⟩
  | edge => exact ⟨_, rfl⟩
  | link answer => exact ⟨_, rfl⟩
  | done => exact ⟨_, rfl⟩

/-- Settles O4: from the invariants the parser's reads stay inside `IN`, and a command that is no reserved code has a
next state, so every move has one. -/
theorem noOperationIsFatal : Obligations.NoOperationIsFatal := by
  unfold Obligations.NoOperationIsFatal
  intro s h hc
  unfold step Engine.run
  split
  · exact move_next h hc 0
  · rename_i m rest _
    exact apply_next (h.with_script rest) hc m

/-! ## Headers nobody reads -/

theorem parserReads_eq_false_iff {s : State} :
    Ops.parserReads s = false ↔ s.phase ≠ .disp ∨ s.tap.valid = true := by
  rw [← Bool.not_eq_true, parserReads_iff, not_and_or, Bool.not_eq_false]

/-- A frame header is read only by a parser that has not begun (R135, R113). -/
theorem parseHeader_of_unread {s : State} (h : Ops.parserReads s = false ∨ s.parse ≠ .notBegun) (size checksum : Word) :
    Ops.parseHeader size checksum s = s := by
  unfold Ops.parseHeader
  rw [if_neg]
  rw [Bool.and_eq_true, decide_eq_true_iff]
  rintro ⟨hr, hp⟩
  rcases h with h | h
  · rw [hr] at h; cases h
  · exact h hp

/-- A sub-packet header is read only by a running parse whose views are all answered (R114). -/
theorem parseRound_of_unread {s : State}
    (h : Ops.parserReads s = false ∨ (∀ cur, s.parse ≠ .running cur) ∨ s.pv ≠ none) (ch op : Byte) (ps : Word) :
    Ops.parseRound ch op ps s = .next s := by
  unfold Ops.parseRound
  split
  · rename_i cur hr hp hv
    rcases h with h | h | h
    · rw [hr] at h; cases h
    · exact absurd hp (h cur)
    · exact absurd hv h
  · rfl

/-- Settles O58: the two frame-header rows are `parseHeader`, the three sub-packet rows `parseRound`, and each leaves the
state as it is where its header is not read. -/
theorem headersNobodyReadAreData : Obligations.HeadersNobodyReadAreData := by
  unfold Obligations.HeadersNobodyReadAreData
  intro s ch op a b
  constructor
  · intro h
    rw [← or_assoc, ← parserReads_eq_false_iff] at h
    have hdata : ∀ size checksum, Host.Outcome.next (Ops.parseHeader size checksum s) =
        (.next s : Host.Outcome State Fault Refusal) :=
      fun size checksum => congrArg _ (parseHeader_of_unread h size checksum)
    simp only [List.forall_mem_cons]
    exact ⟨hdata a b, hdata 0#16 checksumK, List.forall_mem_nil _⟩
  · intro h
    rw [← or_assoc, ← parserReads_eq_false_iff] at h
    have hdata := parseRound_of_unread h
    simp only [List.forall_mem_cons]
    exact ⟨hdata ch op a, hdata 0#8 op a, hdata ch op 0#16, List.forall_mem_nil _⟩

end Sys2Proof.Machine

/-! The invariants of the accumulator and of the whole state (R20 to R31): they hold at reset, a successful append keeps
I1 to I4 of R22, and every step keeps them all. -/

namespace Sys2Proof.Machine

/-! ## Reset -/

/-- Settles O1: the fields of R35 stand in `State.resetWith`; an empty list of cells reads as the empty frame. -/
theorem resetLeavesTheSpecValues : Obligations.ResetLeavesTheSpecValues := by
  unfold Obligations.ResetLeavesTheSpecValues
  have hfill : ∀ off, Memory.read [] off = emptyFrameByte off
    | 0 | 1 | 2 | 3 | _ + 4 => rfl
  refine ⟨rfl, ?_⟩
  rintro c _ rfl
  exact ⟨rfl, fun off _ => hfill off, fun off _ => hfill off, List.length_replicate,
    fun _ => List.eq_of_mem_replicate, rfl, rfl, rfl, rfl, rfl, rfl, rfl⟩

/-- The empty frame meets I1 to I4 (R22 "true after reset"). -/
theorem FrameInv.nil (c : Config) : FrameInv c [] where
  canonical := Memory.nil_wf _
  checksum := rfl
  size_le := Nat.zero_le _
  tail _ h := Memory.fill_of_four_le (Nat.le_trans (Nat.le_add_right 4 _) h)
  chain := ⟨[], rfl⟩

/-- Settles O2: at reset both buffers are the empty frame, the table is `NCH` zero entries, and nothing is live. -/
theorem invariantHoldsAtReset : Obligations.InvariantHoldsAtReset := by
  unfold Obligations.InvariantHoldsAtReset
  intro c hc
  have hzero : ∀ w, 0 < 2 ^ w := Nat.two_pow_pos
  exact {
    legal := hc
    out := FrameInv.nil c
    inCanonical := Memory.nil_wf _
    tableSize := List.length_replicate
    tableWidth := fun e he => by
      rw [List.eq_of_mem_replicate he]
      exact ⟨hzero _, hzero _⟩
    tapValid := rfl
    tapWidth := ⟨hzero _, hzero _⟩
    quiet := fun _ => ⟨rfl, rfl, rfl, rfl⟩
    noStarter := fun _ => rfl
    cursor := nofun
    view := nofun
    handlerView := nofun
    tapFrame := nofun
    noInternal := rfl }

/-! ## A successful append -/

/-- A slice is the bytes it is read as. -/
theorem Memory.slice_eq_of_read {m : Memory} {off : Nat} {bs : List Byte}
    (h : ∀ i, i < bs.length → m.read (off + i) = bs.getD i 0#8) : m.slice off bs.length = bs := by
  refine List.ext_getElem (Memory.slice_length _ _ _) fun i hi hb => ?_
  rw [← List.getD_eq_getElem _ 0#8 hi, ← List.getD_eq_getElem _ 0#8 hb, Memory.slice_getD _ _ _ _ _ hb, h i hb]

section Append

variable {c : Config} {m : Memory} {ch op : Byte} {p : List Byte}

/-- The size field does not wrap on an append that fits (R6, R111). -/
theorem appended_frameSize_toNat (hc : c.Legal) (hw : m.wf c.n = true) (hf : appendFits c m p = true) :
    (Ops.appended m ch op p).frameSize.toNat = m.frameSize.toNat + (4 + p.length) := by
  obtain ⟨hn, hN, -⟩ := hc
  rw [appended_frameSize hn hw hf, BitVec.toNat_ofNat, Nat.mod_eq_of_lt]
  rw [appendFits_iff, Config.cap] at hf
  omega

/-- The content grows by exactly the encoded sub-packet (R111, R112 (i)). -/
theorem appended_content (hc : c.Legal) (hw : m.wf c.n = true) (hf : appendFits c m p = true) :
    (Ops.appended m ch op p).content = m.content ++ subPacketBytes ch op p := by
  have hread := appended_read (ch := ch) (op := op) hc.1 hw hf
  unfold Memory.content
  rw [appended_frameSize_toNat hc hw hf, Memory.slice_append]
  congr 1
  · refine Memory.slice_congr fun o h4 ho => ?_
    rw [hread]
    simp only [show o ≠ 0 ∧ o ≠ 1 ∧ o ≠ 2 ∧ o ≠ 3 ∧ ¬ (4 + m.frameSize.toNat ≤ o) by omega, false_and, if_false]
  · rw [← subPacketBytes_length ch op p]
    refine Memory.slice_eq_of_read fun i hi => ?_
    rw [subPacketBytes_length] at hi
    rw [hread, if_neg (by omega), if_neg (by omega), if_neg (by omega), if_neg (by omega), if_pos (by omega),
      Nat.add_sub_cancel_left]

/-- Beyond the new content nothing is written (I3). -/
theorem appended_tail (hc : c.Legal) (hm : FrameInv c m) (hf : appendFits c m p = true) {off : Nat}
    (ho : 4 + (m.frameSize.toNat + (4 + p.length)) ≤ off) : (Ops.appended m ch op p).read off = 0#8 := by
  rw [appended_read hc.1 hm.canonical hf, if_neg (by omega), if_neg (by omega), if_neg (by omega), if_neg (by omega),
    if_neg (by omega)]
  exact hm.tail off (by omega)

theorem chainOf_append (ms ms' : List Message) : chainOf (ms ++ ms') = chainOf ms ++ chainOf ms' := by
  simp [chainOf]

/-- An append that fits keeps I1 to I4 (R22). -/
theorem FrameInv.appended (hc : c.Legal) (hm : FrameInv c m) (hf : appendFits c m p = true) :
    FrameInv c (Ops.appended m ch op p) where
  canonical := appended_wf hc.1 hm.canonical hf
  checksum := appended_frameChecksum hc.1 hm.canonical hf
  size_le := by
    rw [appended_frameSize_toNat hc hm.canonical hf]
    exact appendFits_iff.mp hf
  tail off ho := by
    rw [appended_frameSize_toNat hc hm.canonical hf] at ho
    exact appended_tail hc hm hf ho
  chain := by
    obtain ⟨ms, hms⟩ := hm.chain
    refine ⟨ms ++ [⟨ch, op, p⟩], ?_⟩
    rw [appended_content hc hm.canonical hf, hms, chainOf_append]
    simp [chainOf, Message.wire]

end Append

/-- Settles O22: the fields of the header, the zero tail and the content after an append, each from what the append
writes. -/
theorem appendKeepsTheFrameInvariants : Obligations.AppendKeepsTheFrameInvariants := by
  unfold Obligations.AppendKeepsTheFrameInvariants
  intro c m ch op p hc hm hf
  exact ⟨hm.appended hc hf, appended_content hc hm.canonical hf⟩

/-! ## What the invariants say of the phase and of what is live -/

/-- Somebody is in service only in `Disp`. -/
theorem Inv.disp_of_serv {s : State} (h : Inv s) {sv : Service} (hs : s.serv = some sv) : s.phase = .disp := by
  by_contra hp
  obtain ⟨-, -, -, hnone⟩ := h.quiet hp
  cases hnone.symm.trans hs

/-- A view is live only in a running parse (R31). -/
theorem Inv.pv_eq_none {s : State} (h : Inv s) (hp : ∀ cur, s.parse ≠ .running cur) : s.pv = none := by
  cases hv : s.pv with
  | none => rfl
  | some v =>
    obtain ⟨-, cur, hcur⟩ := h.view v hv
    exact absurd hcur (hp cur)

/-- Outside `Disp` nothing is parsed (R20). -/
theorem Inv.parse_of_idle {s : State} (h : Inv s) (hp : s.phase = .idle) : s.parse = .notBegun := by
  obtain ⟨-, hparse, -⟩ := h.quiet (by simp [hp])
  exact hparse

theorem toWidth_lt (w v : Nat) : toWidth w v < 2 ^ w := Nat.mod_lt _ (Nat.two_pow_pos w)

theorem contentLimit_le_cap (c : Config) (size : Word) : contentLimit c size ≤ c.cap := Nat.min_le_right _ _

/-! ## Each shared operation keeps the invariants -/

section Keeps

variable {s : State}

/-! ### Ports -/

theorem Inv.emit (h : Inv s) (r : PortRec) : Inv (Ops.emit r s) := { h with }

theorem Inv.raiseAll (h : Inv s) (ds : List DiagRec) : Inv (Ops.raiseAll ds s) := { h with }

theorem Inv.answer (h : Inv s) (caller : Nat) (r : Result) : Inv (Ops.answer caller r s) := h.emit _

/-- No invariant speaks of the command port or of the caller being served. -/
theorem Inv.with_held (h : Inv s) (qs : List Held) (caller : Nat) : Inv { s with held := qs, caller := caller } :=
  { h with }

theorem Inv.hold (h : Inv s) (i : Instr) : Inv (Ops.hold i s) := h.with_held _ s.caller

theorem Inv.with_irqPending (h : Inv s) (b : Bool) : Inv { s with irqPending := b } := { h with }

/-! ### The accumulator, the table and the tap -/

theorem Inv.append (h : Inv s) (ch op : Byte) (p : List Byte) : Inv (Ops.append ch op p s).1 := by
  cases hf : appendFits s.cfg s.outb p with
  | true => rw [append_of_fits hf]; exact { h with out := h.out.appended h.legal hf }
  | false => rw [append_of_not_fits hf]; exact h

theorem Inv.setEntry (h : Inv s) (ch : Byte) (x y : Nat) : Inv (Ops.setEntry ch x y s) :=
  { h with
    tableSize := List.length_set.trans h.tableSize
    tableWidth := fun e he => by
      rcases List.mem_or_eq_of_mem_set he with hold | rfl
      · exact h.tableWidth e hold
      · exact ⟨toWidth_lt _ _, toWidth_lt _ _⟩ }

/-- The tap may be written while no parse runs (R134): the tap commands are taken only in `Idle` (R169). -/
theorem Inv.with_tap (h : Inv s) (hp : s.phase = .idle) {t : Tap} (hv : t.valid = decide (t.handler ≠ 0))
    (hw : t.handler < 2 ^ s.cfg.handlerW ∧ t.context < 2 ^ s.cfg.ctxW) : Inv { s with tap := t } :=
  { h with
    tapValid := hv
    tapWidth := hw
    cursor := fun _ e => nomatch (h.parse_of_idle hp).symm.trans e }

theorem Inv.setTap (h : Inv s) (hp : s.phase = .idle) (x y : Nat) : Inv (Ops.setTap x y s) :=
  h.with_tap hp (Bool.eq_iff_iff.mpr (by simp)) ⟨toWidth_lt _ _, toWidth_lt _ _⟩

theorem Inv.clearTap (h : Inv s) (hp : s.phase = .idle) : Inv { s with tap := ⟨false, 0, 0⟩ } :=
  h.with_tap hp rfl ⟨Nat.two_pow_pos _, Nat.two_pow_pos _⟩

/-! ### The cycle -/

theorem Inv.startCycle (h : Inv s) (hp : s.phase = .idle) (st : Starter) : Inv (Ops.startCycle st s) := by
  obtain ⟨hin, -, hv, hs⟩ := h.quiet (by simp [hp])
  exact { h with
    quiet := fun _ => ⟨hin, rfl, hv, hs⟩
    noStarter := nofun
    cursor := nofun
    view := fun _ e => nomatch hv.symm.trans e
    tapFrame := fun _ _ e => nomatch hs.symm.trans e }

theorem Inv.reportCycle (h : Inv s) (r : Result) : Inv (Ops.reportCycle r s) := by
  unfold Ops.reportCycle
  split
  · exact h.answer _ r
  · split
    · exact h.emit _
    · exact h
  · exact { h with }

theorem Inv.endCycle (h : Inv s) (r : Result) : Inv (Ops.endCycle r s) :=
  { h.reportCycle r with
    inCanonical := Memory.nil_wf _
    quiet := fun _ => ⟨rfl, rfl, rfl, rfl⟩
    noStarter := fun _ => rfl
    cursor := nofun
    view := nofun
    handlerView := nofun
    tapFrame := nofun }

theorem Inv.clearOut (h : Inv s) : Inv { s with outb := [] } := { h with out := FrameInv.nil _ }

theorem Inv.linkAnswer (h : Inv s) (answer : Option (List Byte)) : Inv (Ops.linkAnswer answer s) := by
  rcases linkAnswer_cases answer s with e | ⟨-, -, e⟩ | ⟨-, g, -, hg, e⟩ <;> rw [e]
  · exact h
  · exact h.clearOut.endCycle _
  · exact { h.clearOut with
      inCanonical := Memory.load_wf (Nat.le_of_eq hg)
      quiet := fun hp => absurd rfl hp
      noStarter := nofun
      cursor := nofun
      view := nofun
      handlerView := nofun
      tapFrame := nofun }

/-! ### The parse in `Disp` -/

/-- With no view live and nobody in service, the parse may go on to any position whose cursor is within R25. -/
theorem Inv.with_parse (h : Inv s) (hp : s.phase = .disp) (hv : s.pv = none) (hs : s.serv = none) {p : Parse}
    (hc : ∀ cur, p = .running cur →
      cur.lim ≤ s.cfg.cap ∧ 4 ≤ cur.pos ∧ (cur.pos : Int) + cur.rem = 4 + cur.lim ∧ s.tap.valid = false) :
    Inv { s with parse := p } :=
  { h with
    quiet := fun hn => absurd hp hn
    cursor := hc
    view := fun _ e => nomatch hv.symm.trans e
    tapFrame := fun _ _ e => nomatch hs.symm.trans e }

theorem Inv.endParse (h : Inv s) (hp : s.phase = .disp) (hv : s.pv = none) (hs : s.serv = none) :
    Inv { s with parse := .ended } := h.with_parse hp hv hs nofun

/-- A running parse may yield a view within R31. -/
theorem Inv.with_view (h : Inv s) (hp : s.phase = .disp) (hs : s.serv = none) {cur : Cursor}
    (hr : s.parse = .running cur) {v : PacketView} (hv : v.Ok s.cfg) : Inv { s with pv := some v } :=
  { h with
    quiet := fun hn => absurd hp hn
    view := fun _ e => by cases e; exact ⟨hv, cur, hr⟩
    handlerView := fun _ _ _ => ⟨v, rfl⟩
    tapFrame := fun _ _ e => nomatch hs.symm.trans e }

theorem Inv.endService (h : Inv s) : Inv { s with serv := none } :=
  { h with
    quiet := fun hn => by
      obtain ⟨hin, hparse, hpv, -⟩ := h.quiet hn
      exact ⟨hin, hparse, hpv, rfl⟩
    handlerView := nofun
    tapFrame := nofun }

/-- With nobody in service the view may go (R161, R168). -/
theorem Inv.dropView (h : Inv s) (hs : s.serv = none) : Inv { s with pv := none } :=
  { h with
    quiet := fun hn => by
      obtain ⟨hin, hparse, -, hserv⟩ := h.quiet hn
      exact ⟨hin, hparse, rfl, hserv⟩
    view := nofun
    handlerView := fun _ _ e => nomatch hs.symm.trans e
    tapFrame := fun _ _ e => nomatch hs.symm.trans e }

theorem Inv.handlerDone (h : Inv s) : Inv (Ops.handlerDone s) := by
  rcases handlerDone_cases s with e | ⟨-, ⟨_, _, -, e⟩ | ⟨x, y, hs, e⟩⟩ <;> rw [e]
  · exact h
  · exact h.endService.dropView rfl
  · have hp := h.disp_of_serv hs
    obtain ⟨-, hv⟩ := h.tapFrame x y hs
    rw [if_pos hp]
    exact h.endService.endParse hp hv rfl

theorem Inv.forwardTap (h : Inv s) (hp : s.phase = .disp) (hn : s.parse = .notBegun) : Inv (Ops.forwardTap s) :=
  { h with
    quiet := fun hd => absurd hp hd
    handlerView := nofun
    tapFrame := fun _ _ _ => ⟨hn, h.pv_eq_none fun _ e => nomatch hn.symm.trans e⟩ }

theorem Inv.invoke (h : Inv s) (hp : s.phase = .disp) {v : PacketView} (hv : s.pv = some v) (x y : Nat) :
    Inv (Ops.invoke x y v s) :=
  { h with
    quiet := fun hd => absurd hp hd
    view := fun w e => h.view w (hv.trans e)
    handlerView := fun _ _ _ => ⟨v, rfl⟩
    tapFrame := nofun }

theorem Inv.dispatchView (h : Inv s) (hp : s.phase = .disp) (hs : s.serv = none) {v : PacketView}
    (hv : s.pv = some v) : Inv (Ops.dispatchView v s) := by
  unfold Ops.dispatchView
  split
  · exact h.dropView hs
  · exact h.invoke hp hv _ _

theorem Inv.parseHeader (h : Inv s) (hs : s.serv = none) (size checksum : Word) :
    Inv (Ops.parseHeader size checksum s) := by
  rcases parseHeader_cases size checksum s with e | ⟨hr, hn, ⟨ds, e⟩ | ⟨ds, e⟩⟩ <;> rw [e]
  · exact h
  all_goals
    obtain ⟨hp, ht⟩ := parserReads_iff.mp hr
    have hv : s.pv = none := h.pv_eq_none fun _ e => nomatch hn.symm.trans e
  · exact (h.raiseAll ds).endParse hp hv hs
  · refine (h.raiseAll ds).with_parse hp hv hs fun cur e => ?_
    cases e
    exact ⟨contentLimit_le_cap _ _, le_refl _, rfl, ht⟩

/-- What `DECODE` takes from a real header is a view within R31: `PMAX >= 1` and the payload's length fits `plen`. -/
theorem packetView_ok {c : Config} (hn : 9 ≤ c.n) {ch : Byte} (hch : ch ≠ 0#8) {ps : Word} (hps : ps ≠ 0#16)
    (op : Byte) (m : Memory) (off : Nat) :
    (⟨ch, op, BitVec.ofNat 16 (min ps.toNat c.pmax), m.slice off (min ps.toNat c.pmax)⟩ : PacketView).Ok c := by
  have hpos : ps.toNat ≠ 0 := fun e => hps (BitVec.eq_of_toNat_eq e)
  have hlt : ps.toNat < 65536 := ps.isLt
  simp only [PacketView.Ok, Memory.slice_length, BitVec.toNat_ofNat, Config.pmax]
  exact ⟨Nat.mod_eq_of_lt (by omega), by omega, by omega, hch⟩

theorem Inv.parseRound (h : Inv s) (hs : s.serv = none) {ch op : Byte} {ps : Word} {s' : State}
    (hr : Ops.parseRound ch op ps s = .next s') : Inv s' := by
  rcases parseRound_cases hr with rfl | ⟨cur, hreads, hrun, hv, rfl | ⟨ds, rfl⟩ | ⟨ds, hch, hps, -, -, rfl⟩⟩
  · exact h
  all_goals obtain ⟨hp, ht⟩ := parserReads_iff.mp hreads
  · exact h.endParse hp hv hs
  · exact (h.raiseAll ds).endParse hp hv hs
  · obtain ⟨hlim, hpos, hsum, -⟩ := h.cursor cur hrun
    have hmoved : Inv { Ops.raiseAll ds s with
        parse := .running ⟨cur.lim, cur.pos + (4 + ps.toNat), cur.rem - ((4 + ps.toNat : Nat) : Int)⟩ } :=
      (h.raiseAll ds).with_parse hp hv hs fun _ e => by
        cases e
        exact ⟨hlim, Nat.le_add_right_of_le hpos, by push_cast; omega, ht⟩
    exact hmoved.with_view hp hs rfl (packetView_ok h.legal.1 hch hps _ _ _)

end Keeps

/-! ## Every step keeps the invariants -/

theorem CommandEffect.keeps_inv {i : Instr} {s s' : State} (he : CommandEffect i s s') (h : Inv s) : Inv s' := by
  cases he with
  | held _ _ e => subst e; exact h.hold i
  | appended _ ch op p r _ e => subst e; exact (h.append ch op p).answer _ r
  | sent hp _ ch op p _ _ e => subst e; exact (h.append ch op p).startCycle (by simpa using hp) _
  | flushed hp _ _ e => subst e; exact h.startCycle hp _
  | entry _ ch x y _ e => subst e; exact (h.setEntry ch x y).answer _ _
  | refused _ r e => subst e; exact h.answer _ r
  | tapSet hp x y e => subst e; exact (h.setTap hp x y).answer _ _
  | tapCleared hp e => subst e; exact (h.clearTap hp).answer _ _

theorem ProceedEffect.keeps_inv {s s' : State} (he : ProceedEffect s s') (h : Inv s) (hp : s.phase = .disp)
    (hs : s.serv = none) : Inv s' := by
  cases he with
  | tapped hn _ e => subst e; exact h.forwardTap hp hn
  | header _ _ e => subst e; exact h.parseHeader hs _ _
  | dispatched _ v _ hv e => subst e; exact h.dispatchView hp hs hv
  | round _ _ _ _ _ _ _ e => exact h.parseRound hs e
  | ended _ e => subst e; exact h.endCycle _

theorem StepEffect.keeps_inv {s s1 s' : State} (he : StepEffect s s1 s') (h : Inv s1) : Inv s' := by
  cases he with
  | waits e => subst e; exact h
  | issued q _ _ e => subst e; exact h.with_held _ s1.caller
  | edge _ _ e => subst e; exact h.with_irqPending true
  | answered a _ _ e => subst e; exact h.linkAnswer a
  | done e => subst e; exact h.handlerDone
  | took idx q _ _ _ _ hc => exact hc.keeps_inv (h.with_held _ q.caller)
  | event hp _ e => subst e; exact (h.with_irqPending false).startCycle hp _
  | proceeded hp hs _ hc => exact hc.keeps_inv h hp hs

/-- Settles O3: each case of a step is made of shared operations, and each of these keeps the invariants. -/
theorem everyStepKeepsTheInvariant : Obligations.EveryStepKeepsTheInvariant := by
  unfold Obligations.EveryStepKeepsTheInvariant
  intro s s' h hstep
  exact (step_effect h.noInternal hstep).keeps_inv (h.with_script s.script.tail)

end Sys2Proof.Machine

/-! The encodings of every port (R70 to R82): each decoder reads back what the encoder writes, and a command record that
decodes is the command's own encoding. -/

namespace Sys2Proof

/-! ## Fields -/

/-- A 16-bit field is zero when both its bytes are (R8). -/
theorem le16_eq_zero_iff {b0 b1 : Byte} : le16 b0 b1 = 0#16 ↔ b0 = 0#8 ∧ b1 = 0#8 := by
  constructor
  · intro h
    exact ⟨(loByte_le16 b0 b1).symm.trans (congrArg loByte h), (hiByte_le16 b0 b1).symm.trans (congrArg hiByte h)⟩
  · rintro ⟨rfl, rfl⟩
    rfl

/-- The code byte of a command is its origin bit and its op, whichever number the op is known as (R77). -/
theorem codeByte_of_opField {code : Byte} {op : Nat} (h : opField code = op) : codeByte (originBit code) op = code := by
  rw [← h, codeByte_self]

/-! ## The command port -/

/-- A record on the command port is exactly one command (R78). -/
theorem decodeCommand_ok_iff {c : Config} {bs : List Byte} {i : Instr} :
    decodeCommand c bs = .ok i ↔ decodeCommandFrom c bs = .ok (i, []) := by
  unfold decodeCommand
  split <;> simp_all

/-- A code byte with a reserved op is read as the reserved command, whatever follows it (R80). -/
theorem decodeCommandFrom_of_reserved (c : Config) {code : Byte} (h : opField code = 0 ∨ 8 ≤ opField code)
    (rest : List Byte) : decodeCommandFrom c (code :: rest) = .ok (.reservedCmd code, []) := by
  simp only [decodeCommandFrom]
  split
  case h_8 => rfl
  all_goals omega

/-- The bytes of a well-formed command are read as it (R77 to R80). -/
theorem decodeCommandFrom_encode {c : Config} {i : Instr} (hw : i.wf c = true) (hp : i.port = .command) :
    decodeCommandFrom c (encode c i) = .ok (i, []) := by
  cases i with
  | sendSync o ch op p =>
    simp [encode, decodeCommandFrom, decodeSend_subPacketBytes _ _ _ _ (of_decide_eq_true hw)]
  | sendDeferred ch op p =>
    simp [encode, decodeCommandFrom, decodeSend_subPacketBytes _ _ _ _ (of_decide_eq_true hw)]
  | sendDeferredH ch op p =>
    simp [encode, decodeCommandFrom, decodeSend_subPacketBytes _ _ _ _ (of_decide_eq_true hw)]
  | flushNow o => simp [encode, decodeCommandFrom]
  | register o ch h x =>
    obtain ⟨hh, hx⟩ := of_decide_eq_true hw
    simp [encode, decodeCommandFrom, decodePair_leBytes c _ h x hh hx]
  | unregister o ch => simp [encode, decodeCommandFrom]
  | setDebugTap o h x =>
    obtain ⟨hh, hx⟩ := of_decide_eq_true hw
    simp [encode, decodeCommandFrom, decodePair_leBytes c _ h x hh hx]
  | clearDebugTap o => simp [encode, decodeCommandFrom]
  | reservedCmd code => exact decodeCommandFrom_of_reserved c (of_decide_eq_true hw) []
  | _ => simp [Instr.port] at hp

/-- What is read with nothing left is a well-formed command and, a reserved code apart, has exactly those bytes
(R77 to R79). -/
theorem decodeCommandFrom_ok {c : Config} {bs : List Byte} {i : Instr} (h : decodeCommandFrom c bs = .ok (i, [])) :
    i.wf c = true ∧ (encode c i = bs ∨ ∃ code, i = .reservedCmd code) := by
  cases bs with
  | nil => cases h
  | cons code rest =>
    simp only [decodeCommandFrom] at h
    split at h
    case h_1 hop =>
      obtain ⟨ch, op, p, rfl, hlen, rfl⟩ := decodeSend_ok h
      exact ⟨decide_eq_true hlen, .inl (by rw [encode, codeByte_of_opField hop])⟩
    case h_2 hop =>
      obtain ⟨ch, op, p, rfl, hlen, rfl⟩ := decodeSend_ok h
      have hcode := codeByte_of_opField hop
      cases ho : originBit code <;> rw [ho] at hcode <;>
        exact ⟨decide_eq_true hlen, .inl (congrArg (· :: _) hcode)⟩
    case h_3 hop =>
      cases h
      exact ⟨rfl, .inl (by rw [encode, codeByte_of_opField hop])⟩
    case h_4 hop =>
      cases rest with
      | nil => cases h
      | cons ch rest =>
        obtain ⟨a, x, rfl, ha, hx, rfl⟩ := decodePair_ok h
        exact ⟨decide_eq_true ⟨ha, hx⟩, .inl (by rw [encode, codeByte_of_opField hop])⟩
    case h_5 hop =>
      cases rest with
      | nil => cases h
      | cons ch rest =>
        cases h
        exact ⟨rfl, .inl (by rw [encode, codeByte_of_opField hop])⟩
    case h_6 hop =>
      obtain ⟨a, x, rfl, ha, hx, rfl⟩ := decodePair_ok h
      exact ⟨decide_eq_true ⟨ha, hx⟩, .inl (by rw [encode, codeByte_of_opField hop])⟩
    case h_7 hop =>
      cases h
      exact ⟨rfl, .inl (by rw [encode, codeByte_of_opField hop])⟩
    case h_8 =>
      cases h
      have hreserved : opField code = 0 ∨ 8 ≤ opField code := by
        simp only [imp_false] at *
        omega
      exact ⟨decide_eq_true hreserved, .inr ⟨code, rfl⟩⟩

/-- A send is read with nothing left only if its payload has as many bytes as its length says (R78). -/
theorem decodeSend_length {mk : Byte → Byte → List Byte → Instr} {ch op l0 l1 : Byte} {p : List Byte} {i : Instr}
    (h : decodeSend mk (ch :: op :: l0 :: l1 :: p) = .ok (i, [])) : p.length = l0.toNat + 256 * l1.toNat := by
  rw [← le16_toNat]
  simp only [decodeSend] at h
  split at h
  · cases h
  · simp only [Except.ok.injEq, Prod.mk.injEq, List.drop_eq_nil_iff] at h
    omega

/-! ## The other ports -/

/-- The four bytes of a well-formed frame header are read as it (R70, R110). -/
theorem decodeOn_frame_encode {c : Config} {i : Instr} (hw : i.wf c = true) (hp : i.port = .frame) :
    decodeOn c .frame (encode c i) = .ok i := by
  cases i with
  | frameHeader size checksum =>
    have hne : ¬ (size = 0#16 ∧ checksum = checksumK) := of_decide_eq_true hw
    simp only [encode, le16Bytes, List.cons_append, List.nil_append, decodeOn, decodeFrameHeader, le16_lo_hi,
      if_neg hne]
  | emptyFrameHeader => rfl
  | _ => simp [Instr.port] at hp

/-- The four bytes of a well-formed sub-packet header are read as it (R72, R75). -/
theorem decodeOn_subPacket_encode {c : Config} {i : Instr} (hw : i.wf c = true) (hp : i.port = .subPacket) :
    decodeOn c .subPacket (encode c i) = .ok i := by
  cases i with
  | subpktHeader ch op size =>
    obtain ⟨hch, hsize⟩ := of_decide_eq_true hw
    simp only [encode, le16Bytes, List.cons_append, List.nil_append, decodeOn, decodeSubHeader, le16_lo_hi, if_neg hch,
      if_neg hsize]
  | sentinelChannel op size =>
    simp only [encode, le16Bytes, List.cons_append, List.nil_append, decodeOn, decodeSubHeader, le16_lo_hi, if_true]
  | sentinelSize ch op =>
    have hch : ch ≠ 0#8 := of_decide_eq_true hw
    simp only [encode, decodeOn, decodeSubHeader, if_neg hch, le16_eq_zero_iff, and_self, if_true]
  | _ => simp [Instr.port] at hp

/-- The byte of a result is read as it (R81). -/
theorem decodeResult_encode {c : Config} {i : Instr} (hp : i.port = .result) : decodeResult (encode c i) = .ok i := by
  cases i with
  | resultOk | resultNoSpace | resultInvalidChannel | resultTransportError => rfl
  | _ => simp [Instr.port] at hp

/-- The five bytes of a diagnostic are read as it (R82, log 18). -/
theorem decodeDiag_encode {c : Config} {i : Instr} (hp : i.port = .diagnostic) : decodeDiag (encode c i) = .ok i := by
  cases i with
  | diagInvalidChecksum a b | diagMalformedSubPacket a b | diagOversizedPayload a b | diagFrameSizeOverrun a b
  | diagTransportError a b =>
    simp [encode, le16Bytes, decodeDiag]
  | _ => simp [Instr.port] at hp

end Sys2Proof

namespace Sys2Proof.Machine

/-- Settles O6: port by port, each decoder reads back the bytes the encoder writes there. -/
theorem decodeOfEncodeIsTheOperation : Obligations.DecodeOfEncodeIsTheOperation := by
  unfold Obligations.DecodeOfEncodeIsTheOperation
  intro c i hw hp
  cases h : i.port with
  | command => exact decodeCommand_ok_iff.mpr (decodeCommandFrom_encode hw h)
  | frame => exact decodeOn_frame_encode hw h
  | subPacket => exact decodeOn_subPacket_encode hw h
  | result => exact decodeResult_encode h
  | diagnostic => exact decodeDiag_encode h
  | none => exact absurd h hp

/-- Settles O7: what the command decoder reads with no byte left over has exactly the bytes it was read from. -/
theorem decodedRecordsAreTheirCommand : Obligations.DecodedRecordsAreTheirCommand := by
  unfold Obligations.DecodedRecordsAreTheirCommand
  intro c bs i h
  obtain ⟨hw, henc⟩ := decodeCommandFrom_ok (decodeCommand_ok_iff.mp h)
  exact ⟨hw, decodeCommand_port h, fun hr => henc.resolve_right fun ⟨code, e⟩ => hr code e⟩

/-- Settles O8: each record is closed, so its decoder computes the operation. -/
theorem writtenOutRecordsDecode : Obligations.WrittenOutRecordsDecode := by
  unfold Obligations.WrittenOutRecordsDecode
  decide

/-- Settles O9: a reserved op takes every byte and is the reserved command, whose meaning reads no state. -/
theorem reservedCodesAreRefused : Obligations.ReservedCodesAreRefused := by
  unfold Obligations.ReservedCodesAreRefused
  intro c code rest s h
  exact ⟨decodeCommand_ok_iff.mpr (decodeCommandFrom_of_reserved c h rest), rfl⟩

/-- Settles O10: both sends are read by `decodeSend`, which leaves no byte over only for a payload of the stated
length. -/
theorem sendRecordMustMatchItsLength : Obligations.SendRecordMustMatchItsLength := by
  unfold Obligations.SendRecordMustMatchItsLength
  intro c code ch op l0 l1 payload i hop hne hd
  rw [decodeCommand_ok_iff] at hd
  rcases hop with hop | hop <;> rw [decodeCommandFrom, opField, hop] at hd <;> exact hne (decodeSend_length hd)

/-- Settles O11: the decoder tests byte 0, then the two size bytes. -/
theorem subPacketHeadersAreClassified : Obligations.SubPacketHeadersAreClassified := by
  unfold Obligations.SubPacketHeadersAreClassified
  intro b0 b1 b2 b3
  refine ⟨le16 b2 b3, le16_toNat b2 b3, fun h0 => ?_, fun h0 hs => ?_, fun h0 hs => ?_⟩
  · rw [decodeSubHeader, if_pos h0]
  · rw [decodeSubHeader, if_neg h0, if_pos (le16_eq_zero_iff.mpr hs)]
  · rw [decodeSubHeader, if_neg h0, if_neg (mt le16_eq_zero_iff.mp hs)]

/-- Settles O12: validity is an equation that gives the checksum, and XOR with `0x5555` is an involution. -/
theorem checksumCatchesACorruptedSize : Obligations.ChecksumCatchesACorruptedSize := by
  unfold Obligations.ChecksumCatchesACorruptedSize
  refine ⟨fun _ _ => checksumValid_iff, fun size => ?_, fun size size' checksum hv hne => ?_,
    fun size' checksum' h => ?_⟩
  · exact ⟨checksumOf size, checksumValid_iff.mpr rfl, fun _ hv => checksumValid_iff.mp hv⟩
  · rw [checksumValid_false_iff, checksumValid_iff.mp hv]
    exact fun e => hne (Function.Involutive.injective checksumOf_checksumOf e).symm
  · rw [checksumValid_iff, checksumOf, checksumK, ← h, ← BitVec.xor_assoc, BitVec.xor_self, BitVec.zero_xor]

/-! ## Records on the ports -/

/-- What is presented on the way from one state to the other, if anything, meets a condition. -/
def Presents (P : PortRec → Prop) (s s' : State) : Prop :=
  ∃ added : List PortRec, s'.trace = s.trace ++ added ∧ ∀ r ∈ added, P r

section Presents

variable {P : PortRec → Prop} {s s' : State}

theorem Presents.nothing (h : s'.trace = s.trace) : Presents P s s' :=
  ⟨[], by rw [h, List.append_nil], List.forall_mem_nil _⟩

theorem Presents.one {r : PortRec} (h : s'.trace = s.trace ++ [r]) (hr : P r) : Presents P s s' :=
  ⟨[r], h, List.forall_mem_singleton.mpr hr⟩

theorem Presents.diags {ds : List DiagRec} (h : s'.trace = s.trace ++ ds.map .diag) (hd : ∀ d, P (.diag d)) :
    Presents P s s' :=
  ⟨ds.map .diag, h, List.forall_mem_map.mpr fun d _ => hd d⟩

end Presents

section DispatchBounds

variable {c : Config} {s s' : State}

/-- A bound channel is inside the table, and its entry stands there (R26, R161). -/
theorem entry_of_bound {ch : Byte} (h : (Ops.entry s ch).handler ≠ 0) :
    ch.toNat < s.cfg.nch ∧ Ops.entry s ch ∈ s.dt := by
  unfold Ops.entry at h ⊢
  split at h
  · rename_i hch
    rw [if_pos hch]
    by_cases hlen : ch.toNat < s.dt.length
    · rw [List.getD_eq_getElem _ _ hlen]
      exact ⟨hch, List.getElem_mem hlen⟩
    · rw [List.getD_eq_default _ _ (Nat.le_of_not_lt hlen)] at h
      exact absurd rfl h
  · exact absurd rfl h

/-- From the invariants, the live view and a bound entry of its channel make a record within R83. -/
theorem Inv.dispatch_inBounds (h : Inv s) {v : PacketView} (hv : s.pv = some v)
    (hb : (Ops.entry s v.channel).handler ≠ 0) :
    dispatchInBounds s.cfg (.dispatch (Ops.entry s v.channel).handler (Ops.entry s v.channel).context v) := by
  obtain ⟨hch, hmem⟩ := entry_of_bound hb
  obtain ⟨hhandler, hcontext⟩ := h.tableWidth _ hmem
  obtain ⟨⟨hplen, hpos, hmax, hne⟩, -⟩ := h.view v hv
  have hch0 : v.channel.toNat ≠ 0 := fun e => hne (BitVec.eq_of_toNat_eq e)
  exact ⟨hb, hhandler, hcontext, Nat.pos_of_ne_zero hch0, hch, hplen, hpos, hmax⟩

theorem reportCycle_presents (r : Result) (s : State) : Presents (dispatchInBounds c) s (Ops.reportCycle r s) := by
  rcases reportCycle_trace r s with ⟨e, -⟩ | ⟨_, -, e⟩ | ⟨-, -, e⟩
  · exact .nothing e
  · exact .one e trivial
  · exact .one e trivial

theorem linkAnswer_presents (answer : Option (List Byte)) (s : State) :
    Presents (dispatchInBounds c) s (Ops.linkAnswer answer s) := by
  rcases linkAnswer_cases answer s with e | ⟨-, -, e⟩ | ⟨-, _, -, -, e⟩ <;> rw [e]
  · exact .nothing rfl
  · exact reportCycle_presents .transportError { s with outb := [] }
  · exact .nothing rfl

theorem handlerDone_presents (s : State) : Presents (dispatchInBounds c) s (Ops.handlerDone s) := by
  rcases handlerDone_cases s with e | ⟨-, ⟨_, _, -, e⟩ | ⟨_, _, -, e⟩⟩ <;> rw [e] <;> exact .nothing rfl

theorem CommandEffect.presents {i : Instr} (he : CommandEffect i s s') : Presents (dispatchInBounds c) s s' := by
  cases he with
  | held _ _ e => subst e; exact .nothing rfl
  | appended _ ch op p r _ e => subst e; exact .one (congrArg (· ++ _) (Ops.append_trace ch op p s)) trivial
  | sent _ _ ch op p _ _ e => subst e; exact .one (congrArg (· ++ _) (Ops.append_trace ch op p s)) trivial
  | flushed _ _ _ e => subst e; exact .one rfl trivial
  | entry _ ch x y _ e => subst e; exact .one rfl trivial
  | refused _ r e => subst e; exact .one rfl trivial
  | tapSet _ x y e => subst e; exact .one rfl trivial
  | tapCleared _ e => subst e; exact .one rfl trivial

theorem parseHeader_presents (size checksum : Word) (s : State) :
    Presents (dispatchInBounds c) s (Ops.parseHeader size checksum s) := by
  rcases parseHeader_cases size checksum s with e | ⟨-, -, ⟨_, e⟩ | ⟨_, e⟩⟩ <;> rw [e]
  · exact .nothing rfl
  · exact .diags rfl fun _ => trivial
  · exact .diags rfl fun _ => trivial

theorem parseRound_presents {ch op : Byte} {ps : Word} (h : Ops.parseRound ch op ps s = .next s') :
    Presents (dispatchInBounds c) s s' := by
  rcases parseRound_cases h with rfl | ⟨_, -, -, -, rfl | ⟨_, rfl⟩ | ⟨_, -, -, -, -, rfl⟩⟩
  · exact .nothing rfl
  · exact .nothing rfl
  · exact .diags rfl fun _ => trivial
  · exact .diags rfl fun _ => trivial

/-- The one place where a dispatch record is presented (R160). -/
theorem Inv.dispatchView_presents (h : Inv s) {v : PacketView} (hv : s.pv = some v) :
    Presents (dispatchInBounds s.cfg) s (Ops.dispatchView v s) := by
  unfold Ops.dispatchView
  split
  · exact .nothing rfl
  · rename_i hb
    exact .one rfl (h.dispatch_inBounds hv hb)

theorem ProceedEffect.presents (he : ProceedEffect s s') (h : Inv s) : Presents (dispatchInBounds s.cfg) s s' := by
  cases he with
  | tapped _ _ e => subst e; exact .one rfl trivial
  | header _ _ e => subst e; exact parseHeader_presents _ _ _
  | dispatched _ v _ hv e => subst e; exact h.dispatchView_presents hv
  | round _ _ _ _ _ _ _ e => exact parseRound_presents e
  | ended _ e => subst e; exact reportCycle_presents .ok s

theorem StepEffect.presents {s1 : State} (he : StepEffect s s1 s') (h : Inv s1) :
    Presents (dispatchInBounds s1.cfg) s1 s' := by
  cases he with
  | waits e => subst e; exact .nothing rfl
  | issued _ _ _ e => subst e; exact .nothing rfl
  | edge _ _ e => subst e; exact .nothing rfl
  | answered a _ _ e => subst e; exact linkAnswer_presents a s1
  | done e => subst e; exact handlerDone_presents s1
  | took _ _ _ _ _ _ hc => exact hc.presents
  | event _ _ e => subst e; exact .one rfl trivial
  | proceeded _ _ _ hc => exact hc.presents h

end DispatchBounds

/-- Settles O54: only `dispatchView` presents a dispatch record, of the live view to the entry its channel is bound to,
and the invariants bound both. -/
theorem dispatchRecordsAreInBounds : Obligations.DispatchRecordsAreInBounds := by
  unfold Obligations.DispatchRecordsAreInBounds
  intro s s' h hstep
  exact (step_effect h.noInternal hstep).presents (h.with_script s.script.tail)

/-- Settles O59: each result row is `Ops.answer` to the caller of the command being taken. -/
theorem resultRecordsGoToTheCaller : Obligations.ResultRecordsGoToTheCaller := by
  unfold Obligations.ResultRecordsGoToTheCaller
  intro s
  exact ⟨rfl, rfl, rfl, rfl⟩

/-- The operand that names an offset is the offset, where it fits 16 bits (R82). -/
theorem diagPos_toNat {pos : Nat} (h : pos ≤ 65535) : (diagPos pos).toNat = pos := by
  rw [diagPos, if_pos (by omega), BitVec.toNat_ofNat]
  omega

/-- A raised record is the last of the diagnostic stream (R183). -/
theorem diagStream_raiseDiag (k : DiagKind) (a b : Word) (s : State) :
    diagStream (Ops.raiseDiag k a b s) = diagStream s ++ [⟨k, a, b⟩] := by
  simp [diagStream]

/-- What an operation that raises a diagnostic does: one record of its kind and operands on the stream, nothing else. -/
theorem exec_of_raiseDiag {i : Instr} {k : DiagKind} {a b : Word} {s : State}
    (he : exec i s = .next (Ops.raiseDiag k a b s)) :
    ∃ d : DiagRec, d.kind.code = k.code ∧ d.a = a ∧ d.b = b ∧
      exec i s = .next { s with trace := s.trace ++ [.diag d] } ∧
      ∀ t, exec i s = .next t → diagStream t = diagStream s ++ [d] := by
  refine ⟨⟨k, a, b⟩, rfl, rfl, rfl, he, fun t ht => ?_⟩
  cases he.symm.trans ht
  exact diagStream_raiseDiag k a b s

/-- Settles O60: each diagnostic row is `Ops.raiseDiag` with its kind. -/
theorem diagnosticsAreAppendedToTheStream : Obligations.DiagnosticsAreAppendedToTheStream := by
  unfold Obligations.DiagnosticsAreAppendedToTheStream
  refine ⟨fun _ => diagPos_toNat, fun s a b => ?_⟩
  simp only [List.forall_mem_cons]
  exact ⟨exec_of_raiseDiag (k := .invalidChecksum) rfl, exec_of_raiseDiag (k := .malformedSubPacket) rfl,
    exec_of_raiseDiag (k := .oversizedPayload) rfl, exec_of_raiseDiag (k := .frameSizeOverrun) rfl,
    exec_of_raiseDiag (k := .transportError) rfl, List.forall_mem_nil _⟩

end Sys2Proof.Machine

/-! The sub-packet codec (R100 to R103): the wire image of a message and how it is cut from what follows it, the answer
of `DECODE` case by case, the bytes it rests on, and the first round of a parse. -/

namespace Sys2Proof

/-! ## The wire image -/

@[simp] theorem loByte_ofNat (v : Nat) : loByte (BitVec.ofNat 16 v) = BitVec.ofNat 8 v := by
  apply BitVec.eq_of_toNat_eq
  simp only [loByte_toNat, BitVec.toNat_ofNat]
  omega

@[simp] theorem hiByte_ofNat (v : Nat) : hiByte (BitVec.ofNat 16 v) = BitVec.ofNat 8 (v / 256) := by
  apply BitVec.eq_of_toNat_eq
  simp only [hiByte_toNat, BitVec.toNat_ofNat]
  omega

/-- The length field gives back the length of a payload it can hold (R100). -/
theorem length_field_toNat {p : List Byte} (h : p.length ≤ 65535) : (BitVec.ofNat 16 p.length).toNat = p.length := by
  rw [BitVec.toNat_ofNat]
  omega

/-- A wire image says where it ends: what stands behind it cannot change how it is cut (R101). -/
theorem subPacketBytes_append_inj {ch op ch' op' : Byte} {p p' r r' : List Byte} (hp : p.length ≤ 65535)
    (hp' : p'.length ≤ 65535) (h : subPacketBytes ch op p ++ r = subPacketBytes ch' op' p' ++ r') :
    ch = ch' ∧ op = op' ∧ p = p' ∧ r = r' := by
  simp only [subPacketBytes, le16Bytes, List.cons_append, List.nil_append, List.cons.injEq] at h
  obtain ⟨hch, hop, hlo, hhi, hrest⟩ := h
  have hfield : BitVec.ofNat 16 p.length = BitVec.ofNat 16 p'.length := by
    rw [← le16_lo_hi (BitVec.ofNat 16 p.length), hlo, hhi, le16_lo_hi]
  have hlen : p.length = p'.length := by
    rw [← length_field_toNat hp, hfield, length_field_toNat hp']
  exact ⟨hch, hop, List.append_inj hrest hlen⟩

end Sys2Proof

namespace Sys2Proof.Machine

/-- Settles O14: the header of a wire image fixes its payload's length, so equal bytes are cut at the same places. -/
theorem encodeIsSelfDelimiting : Obligations.EncodeIsSelfDelimiting := by
  unfold Obligations.EncodeIsSelfDelimiting
  rintro ⟨ch, op, p⟩ ⟨ch', op', p'⟩ r r' hp hp' h
  obtain ⟨rfl, rfl, rfl, rfl⟩ := subPacketBytes_append_inj hp hp' h
  exact ⟨rfl, rfl⟩

/-- Settles O13: the returned bytes are the wire image, its length field written as two bytes. -/
theorem encodeReturnsTheWireImage : Obligations.EncodeReturnsTheWireImage := by
  unfold Obligations.EncodeReturnsTheWireImage
  intro ch op p s
  rw [← loByte_ofNat, ← hiByte_ofNat]
  rfl

/-! ## The reading of a header by `DECODE` -/

/-- The low byte of a 16-bit field stands at the lower offset (R8). -/
theorem Memory.read16_toNat (m : Memory) (off : Nat) :
    (m.read16 off).toNat = (m.read off).toNat + 256 * (m.read (off + 1)).toNat := le16_toNat _ _

section DecodeAt

variable {c : Config} {m : Memory} {pos rem : Nat}

/-- A header beyond the last byte of the buffer cannot be read (R8, log 19). -/
theorem decodeAt_of_header_outside (h4 : 4 ≤ rem) (hout : c.n < pos + 4) :
    Ops.decodeAt c m pos rem = (.outside, false) := by
  rw [Ops.decodeAt, if_neg (by omega), if_pos hout]

/-- R102: the sentinel test comes first. -/
theorem decodeAt_of_sentinel (h4 : 4 ≤ rem) (hn : pos + 4 ≤ c.n)
    (hs : m.read pos = 0#8 ∨ m.read16 (pos + 2) = 0#16) : Ops.decodeAt c m pos rem = (.sentinel, false) := by
  rw [decodeAt_of_header h4 hn, Ops.decodeFields, if_pos (isSentinel_iff.mpr hs)]

section Real

variable (h4 : 4 ≤ rem) (hn : pos + 4 ≤ c.n) (hs : ¬ (m.read pos = 0#8 ∨ m.read16 (pos + 2) = 0#16))

include h4 hn hs

/-- R102: the bytes taken leave the slice. -/
theorem decodeAt_of_not_fits (hfit : rem < 4 + min (m.read16 (pos + 2)).toNat c.pmax) :
    Ops.decodeAt c m pos rem = (.malformed, payloadOversized c (m.read16 (pos + 2))) := by
  rw [decodeAt_of_header h4 hn, Ops.decodeFields, if_neg (mt isSentinel_iff.mp hs), payloadTaken, if_pos hfit]

/-- The bytes taken stay in the slice and leave the buffer (log 19). -/
theorem decodeAt_of_payload_outside (hfit : 4 + min (m.read16 (pos + 2)).toNat c.pmax ≤ rem)
    (hout : c.n < pos + 4 + min (m.read16 (pos + 2)).toNat c.pmax) :
    Ops.decodeAt c m pos rem = (.outside, payloadOversized c (m.read16 (pos + 2))) := by
  rw [decodeAt_of_header h4 hn, Ops.decodeFields, if_neg (mt isSentinel_iff.mp hs), payloadTaken,
    if_neg (by omega), if_pos hout]

/-- R102: the view of the bytes taken. -/
theorem decodeAt_of_fits (hfit : 4 + min (m.read16 (pos + 2)).toNat c.pmax ≤ rem)
    (hin : pos + 4 + min (m.read16 (pos + 2)).toNat c.pmax ≤ c.n) :
    Ops.decodeAt c m pos rem =
      (.view ⟨m.read pos, m.read (pos + 1), BitVec.ofNat 16 (min (m.read16 (pos + 2)).toNat c.pmax),
          m.slice (pos + 4) (min (m.read16 (pos + 2)).toNat c.pmax)⟩ (4 + (m.read16 (pos + 2)).toNat),
        payloadOversized c (m.read16 (pos + 2))) := by
  rw [decodeAt_of_header h4 hn, Ops.decodeFields, if_neg (mt isSentinel_iff.mp hs), payloadTaken,
    if_neg (by omega), if_neg (by omega)]

end Real

/-- A sentinel raises nothing (R102). -/
theorem not_oversized_of_decodeAt_sentinel {big : Bool} (h : Ops.decodeAt c m pos rem = (.sentinel, big)) :
    big = false := by
  unfold Ops.decodeAt Ops.decodeFields at h
  split_ifs at h <;> cases h
  rfl

/-- `DECODE` answers from the bytes of its slice alone (R102 (f)). -/
theorem decodeAt_congr {m' : Memory} (h : ∀ o, pos ≤ o → o < pos + rem → m.read o = m'.read o) :
    Ops.decodeAt c m pos rem = Ops.decodeAt c m' pos rem := by
  unfold Ops.decodeAt
  split
  · rfl
  · have hps : m.read16 (pos + 2) = m'.read16 (pos + 2) :=
      Memory.read16_congr (h _ (by omega) (by omega)) (h _ (by omega) (by omega))
    rw [h pos (by omega) (by omega), h (pos + 1) (by omega) (by omega), hps]
    unfold Ops.decodeFields
    split_ifs with hout hsentinel hfit hleaves
    case neg => rw [Memory.slice_congr fun o _ _ => h o (by omega) (by omega)]
    all_goals rfl

/-- The record `DECODE` raises names a size that stands in its slice; without room for it none is raised (R102 (f)). -/
theorem oversizeDiag_congr {m' : Memory} {r : DecodeResult} {big : Bool} (hd : Ops.decodeAt c m pos rem = (r, big))
    (h : ∀ o, pos ≤ o → o < pos + rem → m.read o = m'.read o) :
    Ops.oversizeDiag big pos (m.read16 (pos + 2)) = Ops.oversizeDiag big pos (m'.read16 (pos + 2)) := by
  by_cases hshort : rem < 4
  · rw [decodeAt_of_short hshort] at hd
    cases hd
    rfl
  · rw [Memory.read16_congr (h _ (by omega) (by omega)) (h _ (by omega) (by omega))]

end DecodeAt

/-! ## What `DECODE` does to the state -/

/-- What `DECODE` leaves in `ret` for an answer that is no fault (R102, log 9). -/
def DecodeResult.ret : DecodeResult → Ret
  | .sentinel => .sentinel
  | .malformed => .malformed
  | .view v consumed => .view v consumed
  | .outside => .none

section ExecDecode

variable {s : State} {b : Buf} {pos rem : Nat} {big : Bool}

/-- An access outside the buffer is the one way for `DECODE` to stop (log 19). -/
theorem exec_decode_of_outside (h : Ops.decodeAt s.cfg (Ops.buffer b s) pos rem = (.outside, big)) :
    exec (.decode b pos rem) s = .fault .outsideBuffer := by
  simp only [exec, execDecode, h]

/-- Every other answer is returned, and with the record it may raise it is all that changes (R36, R102). -/
theorem exec_decode_of_answer {r : DecodeResult} (h : Ops.decodeAt s.cfg (Ops.buffer b s) pos rem = (r, big))
    (hr : r ≠ .outside) :
    exec (.decode b pos rem) s = .next { s with
      ret := r.ret,
      trace := s.trace ++ (Ops.oversizeDiag big pos ((Ops.buffer b s).read16 (pos + 2))).map .diag } := by
  cases r with
  | outside => exact absurd rfl hr
  | sentinel =>
    cases not_oversized_of_decodeAt_sentinel h
    simp [exec, execDecode, h, DecodeResult.ret, Ops.oversizeDiag]
  | malformed | view =>
    simp only [exec, execDecode, h]
    rfl

/-- With no size cut, the answer is all that changes. -/
theorem exec_decode_of_silent_answer {r : DecodeResult}
    (h : Ops.decodeAt s.cfg (Ops.buffer b s) pos rem = (r, false)) (hr : r ≠ .outside) :
    exec (.decode b pos rem) s = .next { s with ret := r.ret } := by
  simpa [Ops.oversizeDiag] using exec_decode_of_answer h hr

end ExecDecode

/-- Settles O17: the header, then the bytes taken, are looked for in the buffer before they are read. -/
theorem decodeOutsideTheBufferFaults : Obligations.DecodeOutsideTheBufferFaults := by
  unfold Obligations.DecodeOutsideTheBufferFaults
  intro s b pos rem h4
  refine ⟨fun hout => exec_decode_of_outside (decodeAt_of_header_outside h4 hout), ?_⟩
  rintro hn hch _ rfl hps hfit hout
  exact exec_decode_of_outside (decodeAt_of_payload_outside h4 hn (not_or.mpr ⟨hch, hps⟩) hfit hout)

/-- The record of a cut size, with the size as the spec's number (R82, R102). -/
theorem oversizeDiag_map_diag (c : Config) (pos : Nat) (ps : Word) :
    (Ops.oversizeDiag (payloadOversized c ps) pos ps).map PortRec.diag =
      if c.n - 8 < ps.toNat then [.diag ⟨.oversizedPayload, diagPos pos, ps⟩] else [] := by
  simp only [Ops.oversizeDiag, payloadOversized_iff, Config.pmax]
  split <;> rfl

/-- Settles O16: each clause is one case of `decodeAt`; inside the slice none of them leaves the buffer. -/
theorem decodeAnswersInTheOrderOfItsTests : Obligations.DecodeAnswersInTheOrderOfItsTests := by
  unfold Obligations.DecodeAnswersInTheOrderOfItsTests
  intro s b pos rem _ _ hin m ps pl raised
  have hps : (m.read16 (pos + 2)).toNat = ps := m.read16_toNat (pos + 2)
  have hfield : BitVec.ofNat 16 ps = m.read16 (pos + 2) := by rw [← hps, BitVec.ofNat_toNat, BitVec.setWidth_eq]
  have hzero : m.read16 (pos + 2) = 0#16 ↔ ps = 0 := by rw [← hps]; exact BitVec.toNat_inj.symm
  have hpl : min (m.read16 (pos + 2)).toNat s.cfg.pmax = pl := by
    rw [hps, Config.pmax]
    change min ps (s.cfg.n - 8) = if s.cfg.n - 8 < ps then s.cfg.n - 8 else ps
    split <;> omega
  have hraised : (Ops.oversizeDiag (payloadOversized s.cfg (m.read16 (pos + 2))) pos (m.read16 (pos + 2))).map
      PortRec.diag = raised := by
    rw [oversizeDiag_map_diag, hps, ← hfield]
  refine ⟨fun hshort => ?_, fun h4 hs => ?_, fun h4 hch hne hfit => ?_, fun h4 hch hne hfit => ?_⟩
  · exact exec_decode_of_silent_answer (decodeAt_of_short hshort) nofun
  · exact exec_decode_of_silent_answer (decodeAt_of_sentinel h4 (by omega) (hs.imp_right hzero.mpr)) nofun
  · have hreal := not_or.mpr ⟨hch, mt hzero.mp hne⟩
    rw [exec_decode_of_answer (decodeAt_of_not_fits h4 (by omega) hreal (hpl ▸ hfit)) nofun, hraised]
    rfl
  · have hreal := not_or.mpr ⟨hch, mt hzero.mp hne⟩
    rw [exec_decode_of_answer (decodeAt_of_fits h4 (by omega) hreal (hpl ▸ hfit) (by rw [hpl]; omega)) nofun, hraised,
      hpl, hps]
    rfl

/-- Settles O18: the answer and the cut are computed from the slice, and so is the size the record names. -/
theorem decodeReadsOnlyItsSlice : Obligations.DecodeReadsOnlyItsSlice := by
  unfold Obligations.DecodeReadsOnlyItsSlice
  intro s s' b b' pos rem hcfg h
  have hsame := decodeAt_congr (c := s.cfg) h
  generalize hd : Ops.decodeAt s.cfg (Ops.buffer b s) pos rem = d at hsame
  obtain ⟨r, big⟩ := d
  have hd' : Ops.decodeAt s'.cfg (Ops.buffer b' s') pos rem = (r, big) := hcfg ▸ hsame.symm
  by_cases hr : r = .outside
  · subst hr
    exact .inl ⟨exec_decode_of_outside hd, exec_decode_of_outside hd'⟩
  · refine .inr ⟨_, _, exec_decode_of_answer hd hr, ?_⟩
    rw [exec_decode_of_answer hd' hr, oversizeDiag_congr hd h]

/-! ## The round trip -/

/-- A slice that holds a wire image holds its fields, each at its offset (R72, R100). -/
theorem Memory.fields_of_slice_eq_subPacketBytes {m : Memory} {off : Nat} {ch op : Byte} {p : List Byte}
    (h : m.slice off (4 + p.length) = subPacketBytes ch op p) :
    m.read off = ch ∧ m.read (off + 1) = op ∧ m.read16 (off + 2) = BitVec.ofNat 16 p.length ∧
      m.slice (off + 4) p.length = p := by
  rw [Memory.slice_append] at h
  simp only [Memory.slice, subPacketBytes, le16Bytes, List.cons_append, List.nil_append, List.cons.injEq] at h
  obtain ⟨hch, hop, hlo, hhi, hp⟩ := h
  exact ⟨hch, hop, by rw [Memory.read16, hlo, hhi, le16_lo_hi], hp⟩

/-- `DECODE` of the wire image of a real message that a frame can hold is its view (R103). -/
theorem decodeAt_of_wire {c : Config} {m : Memory} {pos rem : Nat} {msg : Message} (hc : c.Legal) (hr : msg.Real)
    (hmax : msg.payload.length ≤ c.pmax) (hfit : 4 + msg.payload.length ≤ rem) (hin : pos + rem ≤ c.n)
    (h : m.slice pos (4 + msg.payload.length) = msg.wire) :
    Ops.decodeAt c m pos rem = (.view msg.toView (4 + msg.payload.length), false) := by
  obtain ⟨hch, hop, hsize, hpayload⟩ := Memory.fields_of_slice_eq_subPacketBytes h
  obtain ⟨hch0, hpos⟩ := hr
  have hn : c.n ≤ 65539 := hc.2.1
  have hps : (m.read16 (pos + 2)).toNat = msg.payload.length := by
    rw [hsize, length_field_toNat (by rw [Config.pmax] at hmax; omega)]
  have hmin : min (m.read16 (pos + 2)).toNat c.pmax = msg.payload.length := by rw [hps, Nat.min_eq_left hmax]
  have hreal : ¬ (m.read pos = 0#8 ∨ m.read16 (pos + 2) = 0#16) := by
    rintro (e | e)
    · exact hch0 (hch.symm.trans e)
    · rw [e] at hps
      exact absurd hps (by simp only [BitVec.toNat_ofNat]; omega)
  have hbig : payloadOversized c (m.read16 (pos + 2)) = false := by
    rw [← Bool.not_eq_true, payloadOversized_iff, hps]
    omega
  rw [decodeAt_of_fits (by omega) (by omega) hreal (by omega) (by omega), hmin, hps, hbig, hch, hop, hpayload]
  rfl

/-- Settles O15: the slice's header holds the message's fields, so `DECODE` takes its payload whole. -/
theorem decodeOfEncodedSubPacket : Obligations.DecodeOfEncodedSubPacket := by
  unfold Obligations.DecodeOfEncodedSubPacket
  intro s b pos rem m hc hr hmax hfit hin h
  exact exec_decode_of_silent_answer (decodeAt_of_wire hc hr hmax hfit hin h) nofun

/-! ## The first round of a parse -/

section ParseLoop

variable {c : Config} {m : Memory} {pos : Nat} {rem : Int}

/-- With nothing left the loop ends (R114). -/
theorem parseLoop_of_rem_nonpos (fuel : Nat) (h : rem ≤ 0) : Ops.parseLoop c m fuel pos rem = ([], []) := by
  cases fuel with
  | zero => rfl
  | succ fuel => rw [Ops.parseLoop, if_pos h]

/-- A view that takes what is left is the last (R114). -/
theorem parseLoop_of_last_view {fuel consumed : Nat} {v : PacketView} {big : Bool} (hf : 1 ≤ fuel) (h : 0 < rem)
    (hd : Ops.decodeAt c m pos rem.toNat = (.view v consumed, big)) (hc : rem ≤ consumed) :
    Ops.parseLoop c m fuel pos rem = ([v], Ops.oversizeDiag big pos (m.read16 (pos + 2))) := by
  obtain ⟨fuel, rfl⟩ := Nat.exists_eq_succ_of_ne_zero (Nat.one_le_iff_ne_zero.mp hf)
  rw [Ops.parseLoop, if_neg (by omega), hd]
  simp only [parseLoop_of_rem_nonpos fuel (show rem - consumed ≤ 0 by omega), List.append_nil]

/-- A valid frame whose content lies in the buffer is the loop over its content, with no record of the header (R113). -/
theorem parseFrame_of_valid (hv : m.frameChecksum = checksumOf m.frameSize) (hs : m.frameSize.toNat ≤ c.cap) :
    Ops.parseFrame c m = Ops.parseLoop c m m.frameSize.toNat 4 m.frameSize.toNat := by
  have hover : ¬ sizeOverrun c m.frameSize = true := by
    rw [sizeOverrun_iff]
    omega
  rw [Ops.parseFrame, Ops.checkHeader, if_pos (checksumValid_iff.mpr hv), if_neg hover, contentLimit,
    Nat.min_eq_left hs]
  rfl

end ParseLoop

/-- `FB_PARSE` returns the views of the frame and raises its records (R117 (d)). -/
theorem exec_fbParse (b : Buf) (s : State) :
    exec (.fbParse b) s = .next { s with
      ret := .views (Ops.parseFrame s.cfg (Ops.buffer b s)).1,
      trace := s.trace ++ (Ops.parseFrame s.cfg (Ops.buffer b s)).2.map .diag } := rfl

/-- Settles O29: the cut payload fills the slice exactly, and the declared size consumes all that is left. -/
theorem oversizedFirstSubPacketIsTruncated : Obligations.OversizedFirstSubPacketIsTruncated := by
  unfold Obligations.OversizedFirstSubPacketIsTruncated
  rintro s b _ ⟨hn, -⟩ hv hsize hch rfl hbig
  set m := Ops.buffer b s
  have hcap : s.cfg.cap = s.cfg.n - 4 := rfl
  have hmin : min (m.read16 (4 + 2)).toNat s.cfg.pmax = s.cfg.n - 8 := Nat.min_eq_right (Nat.le_of_lt hbig)
  have hreal : ¬ (m.read 4 = 0#8 ∨ m.read16 6 = 0#16) := by
    rintro (e | e)
    · exact hch e
    · rw [e] at hbig
      exact absurd hbig (Nat.not_lt_zero _)
  have hd := decodeAt_of_fits (c := s.cfg) (pos := 4) (rem := s.cfg.cap) (by omega) (by omega) hreal (by omega)
    (by omega)
  rw [hmin] at hd
  rw [exec_fbParse, parseFrame_of_valid hv (Nat.le_of_eq hsize), hsize,
    parseLoop_of_last_view (by omega) (by omega) hd (by omega), oversizeDiag_map_diag, if_pos hbig]
  rfl

end Sys2Proof.Machine

/-! The frame buffer (R110 to R117): the empty frame, what an append writes, and the parser: its header checks, what a
round of its loop can do, the bytes it rests on, and what it makes of a chain of messages. -/

namespace Sys2Proof.Machine

/-! ## `FB_RESET` -/

/-- The empty list of cells reads as the empty frame (R110). -/
theorem fill_eq_emptyFrameByte : ∀ off, Memory.fill off = emptyFrameByte off
  | 0 | 1 | 2 | 3 | _ + 4 => rfl

/-- A canonical buffer that reads as the empty frame is the empty list of cells (R110). -/
theorem Memory.eq_nil_of_reads_empty {n : Nat} {m : Memory} (hw : m.wf n = true)
    (h : ∀ off, off < n → m.read off = emptyFrameByte off) : m = [] := by
  refine Memory.ext_of_wfFrom hw (Memory.nil_wf n) fun off => ?_
  rcases Nat.lt_or_ge off n with hin | hout
  · rw [h off hin, Memory.read_nil, fill_eq_emptyFrameByte]
  · rw [Memory.read_beyond hw hout, Memory.read_nil]

/-- Settles O19: the empty frame is the empty list of cells, the one canonical buffer that reads so. -/
theorem frameResetLeavesTheEmptyFrame : Obligations.FrameResetLeavesTheEmptyFrame := by
  unfold Obligations.FrameResetLeavesTheEmptyFrame
  intro s
  refine ⟨⟨Ops.resetBuffer .out s, rfl, rfl, rfl, fun off _ => fill_eq_emptyFrameByte off, fun hw h => ?_⟩,
    ⟨Ops.resetBuffer .inp s, rfl, rfl, rfl, fun off _ => fill_eq_emptyFrameByte off, fun hw h => ?_⟩⟩
  · rw [Ops.resetBuffer, ← Memory.eq_nil_of_reads_empty hw h]
  · rw [Ops.resetBuffer, ← Memory.eq_nil_of_reads_empty hw h]

/-! ## `FB_APPEND` -/

section Append

variable {s : State} {ch op : Byte} {p : List Byte}

/-- `FB_APPEND` of a sub-packet that fits (R111). -/
theorem exec_fbAppend_of_fits (h : appendFits s.cfg s.outb p = true) :
    exec (.fbAppend ch op p) s = .next { s with outb := Ops.appended s.outb ch op p, ret := .status .ok } := by
  rw [exec, execFbAppend, append_of_fits h]

/-- `FB_APPEND` of a sub-packet that does not fit (R111, R112). -/
theorem exec_fbAppend_of_not_fits (h : appendFits s.cfg s.outb p = false) :
    exec (.fbAppend ch op p) s = .next { s with ret := .status .noSpace } := by
  rw [exec, execFbAppend, append_of_not_fits h]

end Append

/-- Settles O20: the header after an append, and byte by byte what the append writes behind it. -/
theorem appendWritesAtTheFillOffset : Obligations.AppendWritesAtTheFillOffset := by
  unfold Obligations.AppendWritesAtTheFillOffset
  intro s ch op p hc hw hroom
  have hf : appendFits s.cfg s.outb p = true := appendFits_iff.mpr hroom
  have hread := appended_read (ch := ch) (op := op) hc.1 hw hf
  refine ⟨_, exec_fbAppend_of_fits hf, rfl, appended_wf hc.1 hw hf, appended_frameSize_toNat hc hw hf,
    appended_frameChecksum hc.1 hw hf, fun i hi => ?_, fun off h4 hoff => ?_⟩
  · rw [hread, if_neg (by omega), if_neg (by omega), if_neg (by omega), if_neg (by omega), if_pos (by omega),
      Nat.add_sub_cancel_left]
  · rw [hread, if_neg (by omega), if_neg (by omega), if_neg (by omega), if_neg (by omega), if_neg (by omega)]

/-- Settles O21: the test compares natural numbers, so nothing wraps, and its failure writes nothing. -/
theorem appendThatDoesNotFitChangesNothing : Obligations.AppendThatDoesNotFitChangesNothing := by
  unfold Obligations.AppendThatDoesNotFitChangesNothing
  intro s ch op p h
  refine exec_fbAppend_of_not_fits (appendFits_false_iff.mpr ?_)
  rw [Config.cap]
  omega

/-! ## The header checks of `FB_PARSE` -/

section ParseFrame

variable {c : Config} {m : Memory}

/-- A frame whose checksum is wrong yields nothing, and one record (R113). -/
theorem parseFrame_of_bad_checksum (h : m.frameChecksum ≠ checksumOf m.frameSize) :
    Ops.parseFrame c m = ([], [⟨.invalidChecksum, m.frameSize, m.frameChecksum⟩]) := by
  rw [Ops.parseFrame, Ops.checkHeader, if_neg (mt checksumValid_iff.mp h)]

/-- The record of a declared size beyond the buffer, if it is one (R113). -/
def overrunDiag (c : Config) (size : Word) : List DiagRec :=
  if c.cap < size.toNat then [⟨.frameSizeOverrun, size, BitVec.ofNat 16 c.cap⟩] else []

/-- A frame whose checksum is right is the loop over as much of its content as the buffer holds (R113, R114). -/
theorem parseFrame_of_good_checksum (h : m.frameChecksum = checksumOf m.frameSize) :
    Ops.parseFrame c m =
      ((Ops.parseLoop c m (contentLimit c m.frameSize) 4 (contentLimit c m.frameSize)).1,
        overrunDiag c m.frameSize ++
          (Ops.parseLoop c m (contentLimit c m.frameSize) 4 (contentLimit c m.frameSize)).2) := by
  rw [Ops.parseFrame, Ops.checkHeader, if_pos (checksumValid_iff.mpr h)]
  simp only [sizeOverrun_iff, overrunDiag]

end ParseFrame

/-- Settles O25: the checksum is tested before anything else is read. -/
theorem badChecksumDiscardsTheFrame : Obligations.BadChecksumDiscardsTheFrame := by
  unfold Obligations.BadChecksumDiscardsTheFrame
  intro s b h
  rw [exec_fbParse, parseFrame_of_bad_checksum h]
  rfl

/-! ## A round of the parser's loop -/

section ParseLoop

variable {c : Config} {m : Memory} {pos : Nat} {rem : Int} {fuel : Nat}

/-- A view is yielded, and the loop goes on behind it (R114). -/
theorem parseLoop_of_view {v : PacketView} {consumed : Nat} {big : Bool} (h : 0 < rem)
    (hd : Ops.decodeAt c m pos rem.toNat = (.view v consumed, big)) :
    Ops.parseLoop c m (fuel + 1) pos rem =
      (v :: (Ops.parseLoop c m fuel (pos + consumed) (rem - consumed)).1,
        Ops.oversizeDiag big pos (m.read16 (pos + 2)) ++
          (Ops.parseLoop c m fuel (pos + consumed) (rem - consumed)).2) := by
  rw [Ops.parseLoop, if_neg (Int.not_le.mpr h), hd]

/-- A sentinel ends the loop (R115). -/
theorem parseLoop_of_sentinel {big : Bool} (hd : Ops.decodeAt c m pos rem.toNat = (.sentinel, big)) :
    Ops.parseLoop c m fuel pos rem = ([], []) := by
  cases fuel with
  | zero => rfl
  | succ fuel =>
    rw [Ops.parseLoop, hd]
    split <;> rfl

/-- The record of a cut size, alone or not, is at most one. -/
theorem oversizeDiag_kinds_sublist (big : Bool) (pos : Nat) (ps : Word) :
    ((Ops.oversizeDiag big pos ps).map (·.kind)).Sublist [.oversizedPayload] := by
  cases big with
  | false => exact List.nil_sublist _
  | true => exact List.Sublist.refl _

/-- What a round can do (R114): end the loop, with at most the records of a cut size and of a malformed sub-packet, or
yield a view. -/
theorem parseLoop_cases (c : Config) (m : Memory) (fuel pos : Nat) (rem : Int) :
    (∃ ds, Ops.parseLoop c m (fuel + 1) pos rem = ([], ds) ∧
      (ds.map (·.kind)).Sublist [.oversizedPayload, .malformedSubPacket]) ∨
    (∃ v consumed big, 0 < rem ∧ Ops.decodeAt c m pos rem.toNat = (.view v consumed, big)) := by
  by_cases hrem : rem ≤ 0
  · exact .inl ⟨[], parseLoop_of_rem_nonpos _ hrem, List.nil_sublist _⟩
  · rcases hd : Ops.decodeAt c m pos rem.toNat with ⟨_ | _ | ⟨v, consumed⟩ | _, big⟩
    case sentinel => exact .inl ⟨[], parseLoop_of_sentinel hd, List.nil_sublist _⟩
    case malformed =>
      refine .inl ⟨_, by rw [Ops.parseLoop, if_neg hrem, hd], ?_⟩
      rw [List.map_append]
      exact (oversizeDiag_kinds_sublist _ _ _).append (List.Sublist.refl [DiagKind.malformedSubPacket])
    case view => exact .inr ⟨v, consumed, big, by omega, rfl⟩
    case outside =>
      refine .inl ⟨_, by rw [Ops.parseLoop, if_neg hrem, hd], ?_⟩
      exact (oversizeDiag_kinds_sublist _ _ _).trans (List.sublist_append_left _ [DiagKind.malformedSubPacket])

/-- A view that `DECODE` answers is within R31, takes at least five bytes of its slice, and if its size was cut it
consumes more than any frame holds (R102, R116). -/
theorem bounds_of_decodeAt_view (hn : 9 ≤ c.n) {rem : Nat} {v : PacketView} {consumed : Nat} {big : Bool}
    (h : Ops.decodeAt c m pos rem = (.view v consumed, big)) :
    v.Ok c ∧ 5 ≤ rem ∧ 5 ≤ consumed ∧ (big = true → c.cap < consumed) := by
  unfold Ops.decodeAt at h
  split_ifs at h
  · cases h
  · cases h
  · rcases decodeFields_cases c m pos rem (m.read pos) (m.read (pos + 1)) (m.read16 (pos + 2)) with
      ⟨-, e⟩ | ⟨-, -, -, e⟩ | ⟨-, -, -, -, e⟩ | ⟨hch, hps, hfit, -, e⟩ <;> rw [e] at h <;> cases h
    have hpos : (m.read16 (pos + 2)).toNat ≠ 0 := fun e => hps (BitVec.eq_of_toNat_eq e)
    rw [payloadOversized_iff, Config.cap]
    rw [Config.pmax] at hfit ⊢
    exact ⟨packetView_ok hn hch hps _ _ _, by omega, by omega, by omega⟩

/-! ## What holds of every parse -/

/-- Every view of the loop is within R31, and each takes at least five of the bytes left (R114 (d)). -/
theorem parseLoop_views (hn : 9 ≤ c.n) (fuel pos : Nat) (rem : Int) :
    (∀ v ∈ (Ops.parseLoop c m fuel pos rem).1, v.Ok c) ∧
      5 * (Ops.parseLoop c m fuel pos rem).1.length ≤ rem.toNat := by
  induction fuel generalizing pos rem with
  | zero => exact ⟨List.forall_mem_nil _, Nat.zero_le _⟩
  | succ fuel ih =>
    rcases parseLoop_cases c m fuel pos rem with ⟨ds, e, -⟩ | ⟨v, consumed, big, hrem, hd⟩
    · rw [e]
      exact ⟨List.forall_mem_nil _, Nat.zero_le _⟩
    · obtain ⟨hv, hfit, hcons, -⟩ := bounds_of_decodeAt_view hn hd
      obtain ⟨hvs, hlen⟩ := ih (pos + consumed) (rem - consumed)
      rw [parseLoop_of_view hrem hd]
      refine ⟨List.forall_mem_cons.mpr ⟨hv, hvs⟩, ?_⟩
      rw [List.length_cons]
      omega

/-- The loop raises at most one record of each kind, in order: a size that is cut is the last to be read (R117 (f)). -/
theorem parseLoop_kinds_sublist (hn : 9 ≤ c.n) (fuel pos : Nat) {rem : Int} (hrem : rem ≤ c.cap) :
    ((Ops.parseLoop c m fuel pos rem).2.map (·.kind)).Sublist [.oversizedPayload, .malformedSubPacket] := by
  induction fuel generalizing pos rem with
  | zero => exact List.nil_sublist _
  | succ fuel ih =>
    rcases parseLoop_cases c m fuel pos rem with ⟨ds, e, hds⟩ | ⟨v, consumed, big, hpos, hd⟩
    · rw [e]
      exact hds
    · obtain ⟨-, -, -, hbig⟩ := bounds_of_decodeAt_view hn hd
      rw [parseLoop_of_view hpos hd]
      cases big with
      | false => exact ih (pos + consumed) (by omega)
      | true =>
        have hover := hbig rfl
        rw [parseLoop_of_rem_nonpos fuel (by omega), List.append_nil]
        exact List.sublist_append_left [_] _

/-- The loop rests on the bytes left to it alone (R117 (c)). -/
theorem parseLoop_congr {m' : Memory} (fuel : Nat) {pos : Nat} {rem : Int}
    (h : ∀ o : Nat, pos ≤ o → (o : Int) < pos + rem → m.read o = m'.read o) :
    Ops.parseLoop c m fuel pos rem = Ops.parseLoop c m' fuel pos rem := by
  induction fuel generalizing pos rem with
  | zero => rfl
  | succ fuel ih =>
    by_cases hrem : rem ≤ 0
    · rw [parseLoop_of_rem_nonpos _ hrem, parseLoop_of_rem_nonpos _ hrem]
    · have hslice : ∀ o, pos ≤ o → o < pos + rem.toNat → m.read o = m'.read o :=
        fun o h1 h2 => h o h1 (by omega)
      have hrest : ∀ consumed : Nat, Ops.parseLoop c m fuel (pos + consumed) (rem - consumed) =
          Ops.parseLoop c m' fuel (pos + consumed) (rem - consumed) :=
        fun consumed => ih fun o h1 h2 => h o (by omega) (by omega)
      rw [Ops.parseLoop, Ops.parseLoop, ← decodeAt_congr hslice]
      rcases hd : Ops.decodeAt c m pos rem.toNat with ⟨_ | _ | ⟨v, consumed⟩ | _, big⟩ <;>
        simp only [oversizeDiag_congr hd hslice, hrest]

end ParseLoop

/-- Settles O26: `FB_PARSE` is a function that writes nothing, and its views are those of one loop over `lim` bytes. -/
theorem parseIsTotalAndBounded : Obligations.ParseIsTotalAndBounded := by
  unfold Obligations.ParseIsTotalAndBounded
  rintro s b ⟨hn, -⟩
  refine ⟨_, _, exec_fbParse b s, ?_⟩
  by_cases hv : (Ops.buffer b s).frameChecksum = checksumOf (Ops.buffer b s).frameSize
  · rw [parseFrame_of_good_checksum hv]
    exact parseLoop_views hn _ _ _
  · rw [parseFrame_of_bad_checksum hv]
    exact ⟨List.forall_mem_nil _, Nat.zero_le _⟩

/-- Settles O27: the two header fields stand below offset 4, and the loop reads the `lim` bytes behind them. -/
theorem parseReadsOnlyTheContent : Obligations.ParseReadsOnlyTheContent := by
  unfold Obligations.ParseReadsOnlyTheContent
  intro c m m' h
  have hsize : m.frameSize = m'.frameSize := Memory.read16_congr (h 0 (by omega)) (h 1 (by omega))
  have hchecksum : m.frameChecksum = m'.frameChecksum := Memory.read16_congr (h 2 (by omega)) (h 3 (by omega))
  have hloop : Ops.parseLoop c m (contentLimit c m.frameSize) 4 (contentLimit c m.frameSize) =
      Ops.parseLoop c m' (contentLimit c m.frameSize) 4 (contentLimit c m.frameSize) :=
    parseLoop_congr _ fun o _ ho => h o (by rw [contentLimit] at ho; omega)
  by_cases hv : m.frameChecksum = checksumOf m.frameSize
  · have hv' : m'.frameChecksum = checksumOf m'.frameSize := hsize ▸ hchecksum ▸ hv
    rw [parseFrame_of_good_checksum hv, parseFrame_of_good_checksum hv', ← hsize, hloop]
  · have hv' : m'.frameChecksum ≠ checksumOf m'.frameSize := hsize ▸ hchecksum ▸ hv
    rw [parseFrame_of_bad_checksum hv, parseFrame_of_bad_checksum hv', ← hsize, ← hchecksum]

/-- Settles O28: a wrong checksum ends the parse, the size is tested before the loop, and the loop keeps its order. -/
theorem parseDiagnosticsComeInOrder : Obligations.ParseDiagnosticsComeInOrder := by
  unfold Obligations.ParseDiagnosticsComeInOrder
  rintro c m ⟨hn, -⟩
  by_cases hv : m.frameChecksum = checksumOf m.frameSize
  · right
    have hover : ((overrunDiag c m.frameSize).map (·.kind)).Sublist [.frameSizeOverrun] := by
      unfold overrunDiag
      split
      · exact List.Sublist.refl _
      · exact List.nil_sublist _
    rw [parseFrame_of_good_checksum hv, List.map_append]
    exact hover.append (parseLoop_kinds_sublist hn _ _ (Int.ofNat_le.mpr (contentLimit_le_cap _ _)))
  · left
    rw [parseFrame_of_bad_checksum hv]
    rfl

/-! ## A chain of messages -/

@[simp] theorem chainOf_nil : chainOf [] = [] := rfl

@[simp] theorem chainOf_cons (a : Message) (ms : List Message) : chainOf (a :: ms) = a.wire ++ chainOf ms := rfl

@[simp] theorem Message.wire_length (a : Message) : a.wire.length = 4 + a.payload.length := subPacketBytes_length _ _ _

/-- A chain has more bytes than messages. -/
theorem length_le_chainOf_length (ms : List Message) : ms.length ≤ (chainOf ms).length := by
  induction ms with
  | nil => exact Nat.le_refl _
  | cons a ms ih =>
    simp only [chainOf_cons, List.length_append, List.length_cons, Message.wire_length]
    omega

/-- A range that holds two byte sequences back to back holds each in its part. -/
theorem Memory.slice_of_slice_eq_append {m : Memory} {off k : Nat} {as bs : List Byte}
    (h : m.slice off k = as ++ bs) :
    m.slice off as.length = as ∧ m.slice (off + as.length) bs.length = bs := by
  have hk : k = as.length + bs.length := by rw [← List.length_append, ← h, Memory.slice_length]
  rw [hk, Memory.slice_append] at h
  exact List.append_inj h (Memory.slice_length _ _ _)

/-- The loop yields the views of a chain of real messages and goes on behind it, with no record (R114, R117 (a)). -/
theorem parseLoop_of_chain {c : Config} {m : Memory} (hc : c.Legal) {ms : List Message} (hr : ∀ a ∈ ms, a.Real)
    {fuel pos rem : Nat} (hf : ms.length ≤ fuel) (h4 : 4 ≤ pos) (hin : pos + rem ≤ c.n)
    (hfit : (chainOf ms).length ≤ rem) (h : m.slice pos (chainOf ms).length = chainOf ms) {vs : List PacketView}
    {ds : List DiagRec} (hrest : Ops.parseLoop c m (fuel - ms.length) (pos + (chainOf ms).length)
      ((rem - (chainOf ms).length : Nat) : Int) = (vs, ds)) :
    Ops.parseLoop c m fuel pos rem = (ms.map Message.toView ++ vs, ds) := by
  induction ms generalizing fuel pos rem with
  | nil => exact hrest
  | cons a ms ih =>
    obtain ⟨ha, hms⟩ := List.forall_mem_cons.mp hr
    obtain _ | fuel := fuel
    · exact absurd hf (Nat.not_succ_le_zero _)
    simp only [chainOf_cons, List.length_append, List.length_cons, Message.wire_length] at h hf hfit hrest
    obtain ⟨hwire, hchain⟩ := Memory.slice_of_slice_eq_append h
    rw [Message.wire_length] at hwire hchain
    have hd := decodeAt_of_wire (rem := rem) hc ha (by rw [Config.pmax]; omega) (by omega) hin hwire
    rw [Nat.add_sub_add_right, ← Nat.add_assoc pos, ← Nat.sub_sub] at hrest
    rw [parseLoop_of_view (by omega) hd, ← Int.ofNat_sub (by omega),
      ih hms (by omega) (by omega) (by omega) (by omega) hchain hrest]
    rfl

/-! ## Messages appended one after another -/

/-- Real or not, messages that fit behind the content of an accumulator are all taken: only `OUT` changes, and its
content grows by their chain (R111, R112 (i)). -/
theorem appendAll_of_fits {s : State} (hc : s.cfg.Legal) (hm : FrameInv s.cfg s.outb) {ms : List Message}
    (hfit : s.outb.frameSize.toNat + (chainOf ms).length ≤ s.cfg.cap) :
    ∃ out, appendAll ms s = { s with outb := out } ∧ FrameInv s.cfg out ∧
      out.content = s.outb.content ++ chainOf ms := by
  induction ms generalizing s with
  | nil => exact ⟨s.outb, rfl, hm, by simp⟩
  | cons a ms ih =>
    simp only [chainOf_cons, List.length_append, Message.wire_length] at hfit
    have hf : appendFits s.cfg s.outb a.payload = true := appendFits_iff.mpr (by omega)
    have hsize := appended_frameSize_toNat (ch := a.channel) (op := a.opcode) hc hm.canonical hf
    obtain ⟨out, hall, hout, hcontent⟩ :=
      ih (s := { s with outb := Ops.appended s.outb a.channel a.opcode a.payload }) hc (hm.appended hc hf)
        (by dsimp only; omega)
    refine ⟨out, ?_, hout, ?_⟩
    · rw [← hall, appendAll, List.foldl_cons, append_of_fits hf]
      rfl
    · rw [hcontent, appended_content hc hm.canonical hf, List.append_assoc]
      rfl

/-- The parser yields the messages that a frame's content is the chain of, with no record (R117 (a), (g)). -/
theorem parseFrame_of_chain {c : Config} {m : Memory} (hc : c.Legal) (hm : FrameInv c m) {ms : List Message}
    (hr : ∀ a ∈ ms, a.Real) (h : m.content = chainOf ms) :
    Ops.parseFrame c m = (ms.map Message.toView, []) := by
  have hlen : m.frameSize.toNat = (chainOf ms).length := by rw [← h, Memory.content, Memory.slice_length]
  have hcap := hm.size_le
  have hn := hc.1
  rw [Config.cap] at hcap
  rw [Memory.content, hlen] at h
  rw [parseFrame_of_valid hm.checksum hm.size_le, hlen,
    parseLoop_of_chain hc hr (length_le_chainOf_length ms) (Nat.le_refl 4) (by omega) (Nat.le_refl _) h
      (parseLoop_of_rem_nonpos _ (by omega)), List.append_nil]

/-- Settles O23: the appends leave the chain of the messages as the content of a valid frame, and the loop reads it
message by message. -/
theorem parseYieldsWhatWasAppended : Obligations.ParseYieldsWhatWasAppended := by
  unfold Obligations.ParseYieldsWhatWasAppended
  intro s ms hc hout hr hlen
  obtain ⟨out, hall, hinv, hcontent⟩ := appendAll_of_fits (ms := ms) hc (hout ▸ FrameInv.nil s.cfg)
    (by rw [hout, Config.cap]; simpa using hlen)
  rw [hout, content_nil, List.nil_append] at hcontent
  rw [hall, exec_fbParse]
  simp only [Ops.buffer, parseFrame_of_chain hc hinv hr hcontent, List.map_nil, List.append_nil]

/-! ## A sentinel behind a chain -/

/-- `DECODE` of a slice that starts with a sentinel (R115). -/
theorem decodeAt_of_sentinel_bytes {c : Config} {m : Memory} {pos rem : Nat} {h0 h1 h2 h3 : Byte}
    (hs : h0 = 0#8 ∨ (h2 = 0#8 ∧ h3 = 0#8)) (h4 : 4 ≤ rem) (hn : pos + 4 ≤ c.n)
    (h : m.slice pos 4 = [h0, h1, h2, h3]) : Ops.decodeAt c m pos rem = (.sentinel, false) := by
  simp only [Memory.slice, List.cons.injEq, and_true] at h
  obtain ⟨e0, -, e2, e3⟩ := h
  refine decodeAt_of_sentinel h4 hn ?_
  rw [Memory.read16, le16_eq_zero_iff, e0, e2, e3]
  exact hs

/-- Settles O24: the loop yields the chain, then `DECODE` answers sentinel, whatever stands behind it. -/
theorem sentinelCutsTheParse : Obligations.SentinelCutsTheParse := by
  unfold Obligations.SentinelCutsTheParse
  rintro s b ms h0 h1 h2 h3 rest _ hc rfl hv hr hs h
  set m := Ops.buffer b s
  have hn := hc.1
  have hcap := contentLimit_le_cap s.cfg m.frameSize
  change m.slice 4 (contentLimit s.cfg m.frameSize) = _ at h
  set lim := contentLimit s.cfg m.frameSize
  have hlim : lim = (chainOf ms).length + (4 + rest.length) := by
    have hlen := congrArg List.length h
    simp only [Memory.slice_length, List.length_append] at hlen
    exact hlen
  rw [Config.cap] at hcap
  obtain ⟨hchain, htail⟩ := Memory.slice_of_slice_eq_append h
  obtain ⟨hsentinel, -⟩ := Memory.slice_of_slice_eq_append htail
  have hd := decodeAt_of_sentinel_bytes (c := s.cfg) (rem := lim - (chainOf ms).length) hs (by omega) (by omega)
    hsentinel
  have hfuel := length_le_chainOf_length ms
  have hloop := parseLoop_of_chain hc hr (fuel := lim) (by omega) (Nat.le_refl 4) (by omega) (by omega) hchain
    (parseLoop_of_sentinel hd)
  rw [exec_fbParse, parseFrame_of_good_checksum hv, hloop, List.append_nil, List.append_nil, overrunDiag]
  split <;> rfl

/-! ## A sub-packet header at the cursor of a cycle -/

section ParseRound

variable {s : State} {cur : Cursor} {ch op : Byte} {ps : Word} (hreads : Ops.parserReads s = true)
  (hrun : s.parse = .running cur) (hv : s.pv = none) (h4 : 4 ≤ cur.rem)

include hreads hrun hv h4

/-- A sentinel ends the parse of a cycle (R115). -/
theorem parseRound_of_sentinel (hs : ch = 0#8 ∨ ps = 0#16) :
    Ops.parseRound ch op ps s = .next { s with parse := .ended } := by
  rw [parseRound_of_running hreads hrun hv, if_neg (by omega), if_neg (by omega), Ops.decodeFields,
    if_pos (isSentinel_iff.mpr hs)]

/-- The bytes taken fit: their view is live, and the cursor moves behind the declared ones (R102, R114). -/
theorem parseRound_of_fits (hs : ¬ (ch = 0#8 ∨ ps = 0#16)) (hin : (cur.pos : Int) + cur.rem ≤ s.cfg.n)
    (hfit : 4 + min ps.toNat s.cfg.pmax ≤ cur.rem.toNat) :
    Ops.parseRound ch op ps s = .next { s with
      pv := some ⟨ch, op, BitVec.ofNat 16 (min ps.toNat s.cfg.pmax),
        s.inb.slice (cur.pos + 4) (min ps.toNat s.cfg.pmax)⟩
      parse := .running ⟨cur.lim, cur.pos + (4 + ps.toNat), cur.rem - (4 + ps.toNat)⟩
      trace := s.trace ++ (Ops.oversizeDiag (payloadOversized s.cfg ps) cur.pos ps).map .diag } := by
  rw [parseRound_of_running hreads hrun hv, if_neg (by omega), if_neg (by omega), Ops.decodeFields,
    if_neg (mt isSentinel_iff.mp hs), payloadTaken, if_neg (by omega), if_neg (by omega)]
  rfl

/-- The bytes taken leave what is left: the parse ends with a record of it (R102, R114). -/
theorem parseRound_of_not_fits (hs : ¬ (ch = 0#8 ∨ ps = 0#16))
    (hfit : cur.rem.toNat < 4 + min ps.toNat s.cfg.pmax) :
    Ops.parseRound ch op ps s = .next { s with
      parse := .ended
      trace := s.trace ++ (Ops.oversizeDiag (payloadOversized s.cfg ps) cur.pos ps).map .diag ++
        [.diag (Ops.malformedDiag cur.pos cur.rem)] } := by
  rw [parseRound_of_running hreads hrun hv, if_neg (by omega), if_neg (by omega), Ops.decodeFields,
    if_neg (mt isSentinel_iff.mp hs), payloadTaken, if_pos hfit, List.append_assoc]
  simp only [Ops.raiseAll, List.map_append, List.map_cons, List.map_nil]

end ParseRound

/-- Settles O57: a round is `DECODE` of the header given, and inside the buffer its answer is never a fault. -/
theorem subPacketHeaderIsParsed : Obligations.SubPacketHeaderIsParsed := by
  unfold Obligations.SubPacketHeaderIsParsed
  intro s cur ch op ps hp ht hrun hv h4 hin pl raised
  have hreads : Ops.parserReads s = true := parserReads_iff.mpr ⟨hp, ht⟩
  have hpl : min ps.toNat s.cfg.pmax = pl := rfl
  have hraised : (Ops.oversizeDiag (payloadOversized s.cfg ps) cur.pos ps).map PortRec.diag = raised :=
    oversizeDiag_map_diag s.cfg cur.pos ps
  refine ⟨parseRound_of_sentinel (op := op) (ps := ps) hreads hrun hv h4 (.inl rfl),
    parseRound_of_sentinel (ch := ch) (op := op) hreads hrun hv h4 (.inr rfl),
    fun hch hps hfit => ?_, fun hch hps hfit => ?_⟩
  · rw [← hraised]
    exact parseRound_of_fits hreads hrun hv h4 (not_or.mpr ⟨hch, hps⟩) hin (by omega)
  · rw [← hraised]
    exact parseRound_of_not_fits hreads hrun hv h4 (not_or.mpr ⟨hch, hps⟩) (by omega)

end Sys2Proof.Machine

/-! The transport engine (R130 to R145): how a cycle starts, who is told of its end, what a step of it runs, what
can change the phase or pass the lock, and a whole cycle from its exchange to its end. -/

namespace Sys2Proof.Machine

/-! ## The start of a cycle -/

/-- What is presented on the link is the buffer, byte by byte (R130, R131). -/
theorem Memory.slice_zero_bytes (m : Memory) (n : Nat) :
    (m.slice 0 n).length = n ∧ ∀ i, i < n → (m.slice 0 n).getD i 0#8 = m.read i :=
  ⟨m.slice_length 0 n, fun i hi => by rw [m.slice_getD 0 n i 0#8 hi, Nat.zero_add]⟩

section Send

variable {s : State} {ch op : Byte} {p : List Byte}

/-- `FLUSH_NOW` in `Idle` (R140). -/
theorem exec_flushNow_of_idle (hp : s.phase = .idle) (o : Bool) :
    exec (.flushNow o) s = .next (Ops.startCycle (.client s.caller) s) := by
  rw [exec, execFlushNow, hp]

/-- `XFER_CYCLE` in `Idle` (R130). -/
theorem exec_xferCycle_of_idle (hp : s.phase = .idle) : exec .xferCycle s = .next (Ops.startCycle .nobody s) := by
  rw [exec, execXferCycle, hp]

/-- `IRQ_RECV` in `Idle` with an event pending (R141). -/
theorem exec_irqRecv_of_idle (hp : s.phase = .idle) (hi : s.irqPending = true) :
    exec .irqRecv s = .next (Ops.startCycle .event { s with irqPending := false }) := by
  rw [exec, execIrqRecv, hp, hi]

/-- `SEND_SYNC` in `Idle`, with room (R137). -/
theorem exec_sendSync_of_fits (hp : s.phase = .idle) (hf : appendFits s.cfg s.outb p = true) (o : Bool) :
    exec (.sendSync o ch op p) s =
      .next (Ops.startCycle (.client s.caller) { s with outb := Ops.appended s.outb ch op p }) := by
  simp only [exec, execSendSync, hp, append_of_fits hf]

/-- `SEND_SYNC` in `Idle`, without room (R137). -/
theorem exec_sendSync_of_not_fits (hp : s.phase = .idle) (hf : appendFits s.cfg s.outb p = false) (o : Bool) :
    exec (.sendSync o ch op p) s = .next (Ops.answer s.caller .noSpace s) := by
  rw [exec, execSendSync, hp, append_of_not_fits hf]

/-- `SEND_DEFERRED` in `Idle` is `FB_APPEND`, its result going to the caller (R138). -/
theorem exec_sendDeferred_of_idle (hp : s.phase = .idle) :
    exec (.sendDeferred ch op p) s =
      .next (Ops.answer s.caller (Ops.append ch op p s).2 (Ops.append ch op p s).1) := by
  rw [exec, execSendDeferred, hp]

/-- `SEND_DEFERRED.h` outside `Xfer` is `FB_APPEND` too (R139). -/
theorem exec_sendDeferredH_of_not_xfer (hp : s.phase ≠ .xfer) :
    exec (.sendDeferredH ch op p) s =
      .next (Ops.answer s.caller (Ops.append ch op p s).2 (Ops.append ch op p s).1) := by
  simp only [exec, execSendDeferredH]

/-- `SEND_DEFERRED.h` in `Xfer` is held (R143). -/
theorem exec_sendDeferredH_of_xfer (hp : s.phase = .xfer) :
    exec (.sendDeferredH ch op p) s = .next (Ops.hold (.sendDeferredH ch op p) s) := by
  rw [exec, execSendDeferredH, hp]

/-- While the lock is held every command but a handler's deferred send is held (R143, R169). -/
theorem exec_of_locked {i : Instr} (hp : s.phase ≠ .idle) (hi : i.port = .command)
    (hr : ∀ code, i ≠ .reservedCmd code) (hd : ∀ ch op p, i ≠ .sendDeferredH ch op p) :
    exec i s = .next (Ops.hold i s) := by
  cases i with
  | sendDeferredH ch op p => exact absurd rfl (hd ch op p)
  | reservedCmd code => exact absurd rfl (hr code)
  | sendSync | sendDeferred | flushNow | register | unregister | setDebugTap | clearDebugTap =>
    simp only [exec, execSendSync, execSendDeferred, execFlushNow, execRegister, execUnregister, execSetDebugTap,
      execClearDebugTap]
  | _ => cases hi

end Send

/-- Settles O30: each of the three is `startCycle` with its own starter, and the request is `OUT` byte by byte. -/
theorem cyclesStartByPresentingOut : Obligations.CyclesStartByPresentingOut := by
  unfold Obligations.CyclesStartByPresentingOut
  intro s hp
  obtain ⟨hlen, hbytes⟩ := s.outb.slice_zero_bytes s.cfg.n
  exact ⟨_, hlen, hbytes, exec_flushNow_of_idle hp, exec_xferCycle_of_idle hp, exec_irqRecv_of_idle hp⟩

/-- Settles O31: outside the conditions of their start both answer with the state as it is. -/
theorem cyclesStartOnlyInIdle : Obligations.CyclesStartOnlyInIdle := by
  unfold Obligations.CyclesStartOnlyInIdle
  intro s
  refine ⟨fun h => ?_, fun hp => ?_⟩
  · rw [exec, execIrqRecv]
    split
    · rename_i hp hi
      exact absurd h (by simp [hp, hi])
    · rfl
  · simp only [exec, execXferCycle]

/-- Settles O32: with room the send is `FB_APPEND`, then `startCycle` on what that leaves in `OUT`. -/
theorem sendSyncAppendsThenTransfers : Obligations.SendSyncAppendsThenTransfers := by
  unfold Obligations.SendSyncAppendsThenTransfers
  intro s o ch op p hp hroom
  have hf : appendFits s.cfg s.outb p = true := appendFits_iff.mpr hroom
  obtain ⟨hlen, hbytes⟩ := (Ops.appended s.outb ch op p).slice_zero_bytes s.cfg.n
  exact ⟨_, _, exec_fbAppend_of_fits hf, hlen, hbytes, exec_sendSync_of_fits hp hf o⟩

/-- Settles O33: an append that does not fit leaves the state as it is, and its result goes to the caller. -/
theorem sendWithoutSpaceOnlyReports : Obligations.SendWithoutSpaceOnlyReports := by
  unfold Obligations.SendWithoutSpaceOnlyReports
  intro s ch op p h
  have hf : appendFits s.cfg s.outb p = false := appendFits_false_iff.mpr (by rw [Config.cap]; omega)
  refine ⟨fun hp => exec_sendSync_of_not_fits hp hf, fun hp => ?_, fun hp => ?_⟩
  · rw [exec_sendDeferred_of_idle hp, append_of_not_fits hf]
    rfl
  · rw [exec_sendDeferredH_of_not_xfer hp, append_of_not_fits hf]
    rfl

/-- Settles O34: both deferred sends are `FB_APPEND`, the result going to the caller and not to `ret`. -/
theorem deferredSendOnlyAppends : Obligations.DeferredSendOnlyAppends := by
  unfold Obligations.DeferredSendOnlyAppends
  intro s ch op p hroom
  have hf : appendFits s.cfg s.outb p = true := appendFits_iff.mpr hroom
  refine ⟨_, exec_fbAppend_of_fits hf, fun hp => ?_, fun hp => ?_⟩
  · rw [exec_sendDeferred_of_idle hp, append_of_fits hf]
    rfl
  · rw [exec_sendDeferredH_of_not_xfer hp, append_of_fits hf]
    rfl

/-- Settles O35: none of the seven is a handler's deferred send, the one command that `Disp` lets in. -/
theorem commandsOutsideIdleAreHeld : Obligations.CommandsOutsideIdleAreHeld := by
  unfold Obligations.CommandsOutsideIdleAreHeld
  intro s o ch op p h x
  refine ⟨fun hp => ?_, exec_sendDeferredH_of_xfer⟩
  simp only [List.forall_mem_cons]
  exact ⟨exec_of_locked hp rfl nofun nofun, exec_of_locked hp rfl nofun nofun, exec_of_locked hp rfl nofun nofun,
    exec_of_locked hp rfl nofun nofun, exec_of_locked hp rfl nofun nofun, exec_of_locked hp rfl nofun nofun,
    exec_of_locked hp rfl nofun nofun, List.forall_mem_nil _⟩

/-! ## The report and the end of a cycle -/

/-- A report adds to what is presented or returned, and changes nothing else. -/
theorem reportCycle_frame (r : Result) (s : State) :
    Ops.reportCycle r s = { s with trace := (Ops.reportCycle r s).trace, ret := (Ops.reportCycle r s).ret } := by
  unfold Ops.reportCycle
  split
  · rfl
  · split <;> rfl
  · rfl

/-- What the end of a cycle changes (R132, R136). -/
theorem endCycle_frame (r : Result) (s : State) :
    Ops.endCycle r s =
      { s with inb := [], phase := .idle, parse := .notBegun, pv := none, serv := none, starter := .nobody,
               trace := (Ops.endCycle r s).trace, ret := (Ops.endCycle r s).ret } := by
  rw [Ops.endCycle_trace, Ops.endCycle_ret, Ops.endCycle, reportCycle_frame]

/-- Who is told how a cycle ends (R137, R140, R141, log 9). -/
theorem endCycle_reports (r : Result) (s : State) :
    (∀ c, s.starter = .client c →
      (Ops.endCycle r s).ret = s.ret ∧ (Ops.endCycle r s).trace = s.trace ++ [.result c r]) ∧
    (s.starter = .event → (Ops.endCycle r s).ret = s.ret ∧ (Ops.endCycle r s).trace =
      s.trace ++ if r = .transportError then [.diag ⟨.transportError, 0#16, 0#16⟩] else []) ∧
    (s.starter = .nobody → (Ops.endCycle r s).ret = .status r ∧ (Ops.endCycle r s).trace = s.trace) := by
  rw [Ops.endCycle_ret, Ops.endCycle_trace, Ops.reportCycle]
  refine ⟨fun c h => ?_, fun h => ?_, fun h => ?_⟩ <;> rw [h]
  · exact ⟨rfl, rfl⟩
  · dsimp only
    split
    · exact ⟨rfl, rfl⟩
    · exact ⟨rfl, (List.append_nil _).symm⟩
  · exact ⟨rfl, rfl⟩

/-- A step whose script begins with the link's answer. -/
theorem step_of_link {s : State} {answer : Option (List Byte)} {rest : List Move}
    (h : s.script = .link answer :: rest) :
    step s = .next (Ops.linkAnswer answer { s with script := rest }) := by
  rw [step, Engine.run, h]
  rfl

/-- Settles O36: `Err` is `endCycle` on an emptied `OUT`, and the starter says who is told. -/
theorem failedExchangeDropsTheFrame : Obligations.FailedExchangeDropsTheFrame := by
  unfold Obligations.FailedExchangeDropsTheFrame
  intro s rest hp hs
  have hanswer : Ops.linkAnswer none { s with script := rest } =
      Ops.endCycle .transportError { s with script := rest, outb := [] } := by
    simp only [Ops.linkAnswer, hp]
  refine ⟨_, (step_of_link hs).trans (congrArg _ hanswer), endCycle_frame _ _, fun off _ => ?_,
    endCycle_reports .transportError { s with script := rest, outb := [] }⟩
  rw [Ops.endCycle_outb, Ops.endCycle_inb]
  exact ⟨fill_eq_emptyFrameByte off, fill_eq_emptyFrameByte off⟩

/-- Settles O37: the answer of `N` bytes is loaded whole into `IN`. -/
theorem successfulExchangeTakesTheFrame : Obligations.SuccessfulExchangeTakesTheFrame := by
  unfold Obligations.SuccessfulExchangeTakesTheFrame
  intro s g rest hp hs hg
  have hanswer : Ops.linkAnswer (some g) { s with script := rest } =
      { s with script := rest, outb := [], inb := Memory.load g, phase := .disp, parse := .notBegun, pv := none,
               serv := none } := by
    simp only [Ops.linkAnswer, hp, if_pos hg]
  refine ⟨_, (step_of_link hs).trans (congrArg _ hanswer), rfl, Memory.nil_wf _, Memory.load_wf (Nat.le_of_eq hg),
    fun off _ => fill_eq_emptyFrameByte off, fun off ho => ?_⟩
  rw [Memory.read_load, if_pos (hg ▸ ho)]

/-! ## What the engine goes on with -/

/-- In `Disp`, with nobody in service and no handler's deferred send at the command port, every move of the engine goes
on with the cycle (R166, R139). -/
theorem move_of_proceed {s : State} (hi : s.internal = []) (hp : s.phase = .disp) (hv : s.serv = none)
    (hn : ∀ q ∈ s.held, isHandlerSend q = false) (k : Nat) : Engine.move k s = Engine.proceed s := by
  simp [Engine.move, hi, choices_of_proceed hp hv hn, Engine.pick, Nat.mod_one]

/-- With no move left in the script the engine moves, with its first choice (log 3). -/
theorem step_of_no_script {s : State} (h : s.script = []) : step s = Engine.move 0 s := by
  rw [step, Engine.run, h]

section Proceed

variable {s : State} {cur : Cursor}

/-- A tap takes the frame before any parse (R134). -/
theorem proceed_of_tap (hp : s.parse = .notBegun) (ht : s.tap.valid = true) :
    Engine.proceed s = exec .tapForward s := by
  simp only [Engine.proceed, Engine.fetchOutside, Engine.fetchInbound, hp, ht, Bool.false_eq_true, if_false, if_true]

/-- Without a tap the frame header is read from the start of `IN` (R135, R113). -/
theorem proceed_of_header (hp : s.parse = .notBegun) (ht : s.tap.valid = false) :
    Engine.proceed s =
      exec (decodeFrameHeader (s.inb.read 0) (s.inb.read 1) (s.inb.read 2) (s.inb.read 3)) s := by
  simp only [Engine.proceed, Engine.fetchOutside, Engine.fetchInbound, hp, ht, Bool.false_eq_true, if_false]

/-- A view just yielded is dispatched (R114, R160). -/
theorem proceed_of_view {v : PacketView} (hp : s.parse = .running cur) (hv : s.pv = some v) :
    Engine.proceed s = exec (.dispatch v) s := by
  simp only [Engine.proceed, Engine.fetchOutside, Engine.fetchInbound, hp, hv, Bool.false_eq_true, if_false]

/-- The next sub-packet header is read at the cursor (R114). -/
theorem proceed_of_subHeader (hp : s.parse = .running cur) (hv : s.pv = none) (h4 : 4 ≤ cur.rem)
    (hin : cur.pos + 4 ≤ s.cfg.n) :
    Engine.proceed s =
      exec (decodeSubHeader (s.inb.read cur.pos) (s.inb.read (cur.pos + 1)) (s.inb.read (cur.pos + 2))
        (s.inb.read (cur.pos + 3))) s := by
  have hfetch : Engine.fetchOutside s = false := by
    simp only [Engine.fetchOutside, hp, hv, Bool.and_eq_false_iff, decide_eq_false_iff_not]
    omega
  rw [Engine.proceed, hfetch]
  simp only [Engine.fetchInbound, hp, hv, if_neg (show ¬ cur.rem < 4 by omega), Bool.false_eq_true, if_false]

/-- With less than a header left there is none to read: the round is the loop's own tests (R114). -/
theorem proceed_of_short (hp : s.parse = .running cur) (hv : s.pv = none) (h4 : cur.rem < 4) :
    Engine.proceed s = Ops.parseRound 0#8 0#8 0#16 s := by
  have hfetch : Engine.fetchOutside s = false := by
    simp only [Engine.fetchOutside, hp, hv, Bool.and_eq_false_iff, decide_eq_false_iff_not]
    omega
  rw [Engine.proceed, hfetch]
  simp only [Engine.fetchInbound, hp, hv, if_pos h4, Bool.false_eq_true, if_false]

/-- After the parse comes step X4 (R136). -/
theorem proceed_of_ended (hp : s.parse = .ended) : Engine.proceed s = .next (Ops.endCycle .ok s) := by
  simp only [Engine.proceed, Engine.fetchOutside, Engine.fetchInbound, hp, Bool.false_eq_true, if_false]

section Round

variable {ch op : Byte} {ps : Word} (hreads : Ops.parserReads s = true) (hrun : s.parse = .running cur)
  (hv : s.pv = none)

include hreads hrun hv

/-- With nothing left the parse ends (R114). -/
theorem parseRound_of_rem_nonpos (h : cur.rem ≤ 0) : Ops.parseRound ch op ps s = .next { s with parse := .ended } := by
  rw [parseRound_of_running hreads hrun hv, if_pos h]

/-- Trailing bytes shorter than a header end the parse with a record (R114). -/
theorem parseRound_of_trailing (h1 : 1 ≤ cur.rem) (h3 : cur.rem ≤ 3) :
    Ops.parseRound ch op ps s =
      .next { Ops.raiseAll [Ops.malformedDiag cur.pos cur.rem] s with parse := .ended } := by
  rw [parseRound_of_running hreads hrun hv, if_neg (by omega), if_pos (by omega)]

end Round

end Proceed

/-- Settles O38: the step goes on with the cycle, which after the parse is `endCycle`. -/
theorem cycleEndKeepsHandlerAppends : Obligations.CycleEndKeepsHandlerAppends := by
  unfold Obligations.CycleEndKeepsHandlerAppends
  intro s hp he hv hi hs hn
  obtain ⟨hclient, hevent, hnobody⟩ := endCycle_reports .ok s
  refine ⟨Ops.endCycle .ok s, ?_, (endCycle_frame .ok s).trans (by rw [hv]), hclient, fun h => ?_, hnobody⟩
  · rw [step_of_no_script hs, move_of_proceed hi hp hv hn, proceed_of_ended he]
  · simpa using hevent h

/-- Settles O45: the step goes on with the cycle, clause by clause as `Engine.proceed` does. -/
theorem stepRunsTheInboundFrame : Obligations.StepRunsTheInboundFrame := by
  unfold Obligations.StepRunsTheInboundFrame
  intro s hp hi hv hs hn
  rw [step_of_no_script hs, move_of_proceed hi hp hv hn]
  refine ⟨proceed_of_tap, proceed_of_header, fun _ _ => proceed_of_view, fun _ => proceed_of_subHeader,
    fun cur hrun hpv ht h1 h3 => ?_, fun cur hrun hpv ht h0 => ?_⟩
  · rw [proceed_of_short hrun hpv (by omega), parseRound_of_trailing (parserReads_iff.mpr ⟨hp, ht⟩) hrun hpv h1 h3,
      ← Int.toNat_of_nonneg (show 0 ≤ cur.rem by omega), BitVec.ofInt_natCast]
    rfl
  · rw [proceed_of_short hrun hpv (by omega), parseRound_of_rem_nonpos (parserReads_iff.mpr ⟨hp, ht⟩) hrun hpv h0]

/-! ## What the engine takes -/

/-- A step whose script begins with a move of the engine. -/
theorem step_of_engine {s : State} {k : Nat} {rest : List Move} (h : s.script = .engine k :: rest) :
    step s = Engine.move k { s with script := rest } := by
  rw [step, Engine.run, h]
  rfl

section Choice

variable {s : State} {k n : Nat} {q : Held}

/-- In `Disp` the number of the move picks among the handlers' deferred sends, in the order of the port (R139,
log 28). -/
theorem pick_of_handlerSend (hp : s.phase = .disp) (hq : s.held[k]? = some q) (ht : isHandlerSend q = true)
    (hn : n % s.held.countP isHandlerSend = (s.held.take k).countP isHandlerSend) :
    Engine.pick n (Engine.choices s) = some (.command k) := by
  have htake : takeable s.phase = isHandlerSend := by
    rw [hp]
    rfl
  have hlen : (Engine.takeablePlaces s).length = s.held.countP isHandlerSend := by
    rw [← htake]
    exact (places_of _ _).1
  have hplace := takeablePlaces_getElem hq (htake ▸ ht)
  rw [htake] at hplace
  rw [choices_of_handlerSend hp ⟨q, List.mem_of_getElem? hq, ht⟩, Engine.pick, List.length_map, hlen, hn,
    List.getElem?_map, hplace]
  rfl

/-- In `Idle` the choices are all the held commands, in the order of the port, then the pending event (R143, R190). -/
theorem choices_of_idle (hp : s.phase = .idle) :
    Engine.choices s = (List.range s.held.length).map .command ++ if s.irqPending then [.event] else [] := by
  have hall : Engine.takeablePlaces s = List.range s.held.length := by
    refine List.filter_eq_self.mpr fun k hk => ?_
    rw [List.getElem?_eq_getElem (List.mem_range.mp hk), hp]
    rfl
  rw [Engine.choices, Engine.ownChoices, hall, hp]

/-- In `Idle` the number of the move is the place of the command (R190). -/
theorem pick_of_idle_command (hp : s.phase = .idle) (hk : k < s.held.length) :
    Engine.pick k (Engine.choices s) = some (.command k) := by
  have hlen : s.held.length ≤ (Engine.choices s).length := by
    rw [choices_of_idle hp, List.length_append, List.length_map, List.length_range]
    exact Nat.le_add_right _ _
  rw [Engine.pick, Nat.mod_eq_of_lt (by omega), choices_of_idle hp, List.getElem?_append_left (by simpa using hk)]
  simp [hk]

/-- In `Idle` the number behind the last command is the pending event (R190). -/
theorem pick_of_idle_event (hp : s.phase = .idle) (hi : s.irqPending = true) :
    Engine.pick s.held.length (Engine.choices s) = some .event := by
  rw [choices_of_idle hp, hi, Engine.pick, Nat.mod_eq_of_lt (by simp), List.getElem?_append_right (by simp)]
  simp

/-- A move of the engine whose choice is the event runs `IRQ_RECV` (R141). -/
theorem move_of_event (hi : s.internal = []) (hc : Engine.pick k (Engine.choices s) = some .event) :
    Engine.move k s = exec .irqRecv s := by
  simp only [Engine.move, hi, hc]

end Choice

/-- Settles O44: the number of the move picks the command's place, or the event's, among the choices. -/
theorem stepRunsTheCommandTaken : Obligations.StepRunsTheCommandTaken := by
  unfold Obligations.StepRunsTheCommandTaken
  refine ⟨fun s k n h i rest hp hint hq ht hd => ⟨fun hs hn => ?_, fun hs hfirst => ?_⟩,
    fun s k rest hp hint => ⟨fun h i hq hd => ⟨fun hs => ?_, ?_⟩, ?_⟩⟩
  · rw [step_of_engine hs]
    exact move_of_command hint (pick_of_handlerSend (s := { s with script := rest }) hp hq ht hn) hq hd
  · have hzero : (s.held.take k).countP isHandlerSend = 0 :=
      List.countP_eq_zero.mpr fun q hmem => by simp [hfirst q hmem]
    rw [step_of_no_script hs]
    exact move_of_command hint (pick_of_handlerSend hp hq ht (by rw [hzero, Nat.zero_mod])) hq hd
  · rw [step_of_engine hs]
    obtain ⟨hk, -⟩ := List.getElem?_eq_some_iff.mp hq
    exact move_of_command hint (pick_of_idle_command (s := { s with script := rest }) hp hk) hq hd
  · rintro rfl hs
    obtain ⟨hk, -⟩ := List.getElem?_eq_some_iff.mp hq
    rw [step_of_no_script hs]
    exact move_of_command hint (pick_of_idle_command hp hk) hq hd
  · rintro rfl hirq hs
    rw [step_of_engine hs]
    exact move_of_event hint (pick_of_idle_event (s := { s with script := rest }) hp hirq)

/-! ## The frame header of a cycle -/

section FrameHeader

variable {s : State} {size checksum : Word} (hreads : Ops.parserReads s = true) (hp : s.parse = .notBegun)

include hreads hp

/-- A frame whose size is 0 is neither parsed nor checked (R135). -/
theorem parseHeader_of_empty : Ops.parseHeader 0#16 checksum s = { s with parse := .ended } := by
  simp [Ops.parseHeader, hreads, hp]

/-- A frame whose checksum is wrong is discarded, with one record (R113). -/
theorem parseHeader_of_bad_checksum (h0 : size ≠ 0#16) (h : checksum ≠ checksumOf size) :
    Ops.parseHeader size checksum s =
      { Ops.raiseAll [⟨.invalidChecksum, size, checksum⟩] s with parse := .ended } := by
  have hcheck : Ops.checkHeader s.cfg size checksum = ([⟨.invalidChecksum, size, checksum⟩], none) := by
    rw [Ops.checkHeader, if_neg (mt checksumValid_iff.mp h)]
  simp [Ops.parseHeader, hreads, hp, h0, hcheck]

/-- A valid header starts the loop over as much of the content as the buffer holds (R113). -/
theorem parseHeader_of_good_checksum (h0 : size ≠ 0#16) (h : checksum = checksumOf size) :
    Ops.parseHeader size checksum s =
      { Ops.raiseAll (overrunDiag s.cfg size) s with
        parse := .running ⟨contentLimit s.cfg size, 4, contentLimit s.cfg size⟩ } := by
  have hcheck : Ops.checkHeader s.cfg size checksum =
      (overrunDiag s.cfg size, some (contentLimit s.cfg size)) := by
    rw [Ops.checkHeader, if_pos (checksumValid_iff.mpr h)]
    simp only [sizeOverrun_iff, overrunDiag]
  simp [Ops.parseHeader, hreads, hp, h0, hcheck]

end FrameHeader

/-- Settles O56: both frame-header rows are `parseHeader`, whose tests come in that order. -/
theorem frameHeaderIsChecked : Obligations.FrameHeaderIsChecked := by
  unfold Obligations.FrameHeaderIsChecked
  intro s size checksum hp ht hn
  have hreads : Ops.parserReads s = true := parserReads_iff.mpr ⟨hp, ht⟩
  have hexec : exec (.frameHeader size checksum) s = .next (Ops.parseHeader size checksum s) := rfl
  rw [hexec]
  refine ⟨congrArg _ (parseHeader_of_empty hreads hn), fun h0 => ?_, fun h0 hc => ?_, fun h0 hc hs => ?_,
    fun h0 hc hs => ?_⟩
  · rw [h0, parseHeader_of_empty hreads hn]
  · rw [parseHeader_of_bad_checksum hreads hn h0 hc]
    rfl
  · rw [parseHeader_of_good_checksum hreads hn h0 hc, overrunDiag, if_neg (by omega), raiseAll_nil, contentLimit,
      Nat.min_eq_left hs]
  · rw [parseHeader_of_good_checksum hreads hn h0 hc, overrunDiag, if_pos hs, contentLimit,
      Nat.min_eq_right (by omega)]
    rfl

/-! ## The phase table -/

/-- Where nothing presented is a link request, the link stream stays as it is (R131, R196). -/
theorem Presents.linkStream_eq {s s' : State} (h : Presents (fun r => ∀ frame, r ≠ .linkRequest frame) s s') :
    linkStream s' = linkStream s := by
  obtain ⟨added, e, hr⟩ := h
  unfold linkStream
  rw [e, List.filter_append, List.append_right_eq_self, List.filter_eq_nil_iff]
  intro r hmem
  cases r with
  | linkRequest frame => exact absurd rfl (hr _ hmem frame)
  | _ => exact Bool.false_ne_true

/-- A part of a cycle's course that changes no phase and presents no link request (R142, R145). -/
structure StaysInPhase (s s' : State) : Prop where
  phase : s'.phase = s.phase
  link : linkStream s' = linkStream s

section PhaseTable

variable {s s' : State}

theorem StaysInPhase.of_presents (hp : s'.phase = s.phase)
    (h : Presents (fun r => ∀ frame, r ≠ .linkRequest frame) s s') : StaysInPhase s s' := ⟨hp, h.linkStream_eq⟩

theorem reportCycle_linkStream (r : Result) (s : State) : linkStream (Ops.reportCycle r s) = linkStream s := by
  refine Presents.linkStream_eq ?_
  rcases reportCycle_trace r s with ⟨e, -⟩ | ⟨_, -, e⟩ | ⟨-, -, e⟩
  · exact .nothing e
  · exact .one e nofun
  · exact .one e nofun

/-- Only a flush and a synchronous send that fits change the phase: they start a cycle (R137, R140). -/
theorem CommandEffect.phase_cases {i : Instr} (he : CommandEffect i s s') :
    StaysInPhase s s' ∨
    (s.phase = .idle ∧
      ((∃ o, i = .flushNow o ∧ s' = Ops.startCycle (.client s.caller) s) ∨
       ∃ o ch op p, i = .sendSync o ch op p ∧ appendFits s.cfg s.outb p = true ∧
        s' = Ops.startCycle (.client s.caller) { s with outb := Ops.appended s.outb ch op p })) := by
  cases he with
  | held _ _ e => subst e; exact .inl (.of_presents rfl (.nothing rfl))
  | appended _ ch op p r _ e =>
    subst e
    exact .inl (.of_presents (Ops.append_phase ch op p s) (.one (congrArg (· ++ _) (Ops.append_trace ch op p s)) nofun))
  | sent hp o ch op p hi hf e =>
    rw [append_of_fits hf] at e
    exact .inr ⟨hp, .inr ⟨o, ch, op, p, hi, hf, e⟩⟩
  | flushed hp o hi e => exact .inr ⟨hp, .inl ⟨o, hi, e⟩⟩
  | entry _ _ _ _ _ e => subst e; exact .inl (.of_presents rfl (.one rfl nofun))
  | refused _ _ e => subst e; exact .inl (.of_presents rfl (.one rfl nofun))
  | tapSet _ _ _ e => subst e; exact .inl (.of_presents rfl (.one rfl nofun))
  | tapCleared _ e => subst e; exact .inl (.of_presents rfl (.one rfl nofun))

theorem parseHeader_staysInPhase (size checksum : Word) (s : State) :
    StaysInPhase s (Ops.parseHeader size checksum s) := by
  rcases parseHeader_cases size checksum s with e | ⟨-, -, ⟨_, e⟩ | ⟨_, e⟩⟩ <;> rw [e]
  · exact .of_presents rfl (.nothing rfl)
  · exact .of_presents rfl (.diags rfl nofun)
  · exact .of_presents rfl (.diags rfl nofun)

theorem parseRound_staysInPhase {ch op : Byte} {ps : Word} (h : Ops.parseRound ch op ps s = .next s') :
    StaysInPhase s s' := by
  rcases parseRound_cases h with rfl | ⟨_, -, -, -, rfl | ⟨_, rfl⟩ | ⟨_, -, -, -, -, rfl⟩⟩
  · exact .of_presents rfl (.nothing rfl)
  · exact .of_presents rfl (.nothing rfl)
  · exact .of_presents rfl (.diags rfl nofun)
  · exact .of_presents rfl (.diags rfl nofun)

theorem dispatchView_staysInPhase (v : PacketView) (s : State) : StaysInPhase s (Ops.dispatchView v s) := by
  unfold Ops.dispatchView
  split
  · exact .of_presents rfl (.nothing rfl)
  · exact .of_presents rfl (.one rfl nofun)

/-- The cycle leaves `Disp` only by step X4, after the parse (R136). -/
theorem ProceedEffect.phase_cases (he : ProceedEffect s s') :
    StaysInPhase s s' ∨ (s.parse = .ended ∧ s' = Ops.endCycle .ok s) := by
  cases he with
  | tapped _ _ e => subst e; exact .inl (.of_presents rfl (.one rfl nofun))
  | header _ _ e => subst e; exact .inl (parseHeader_staysInPhase _ _ _)
  | dispatched _ v _ _ e => subst e; exact .inl (dispatchView_staysInPhase v s)
  | round _ _ _ _ _ _ _ e => exact .inl (parseRound_staysInPhase e)
  | ended hp e => exact .inr ⟨hp, e⟩

theorem handlerDone_staysInPhase (s : State) : StaysInPhase s (Ops.handlerDone s) := by
  rcases handlerDone_cases s with e | ⟨-, ⟨_, _, -, e⟩ | ⟨_, _, -, e⟩⟩ <;> rw [e] <;>
    exact .of_presents rfl (.nothing rfl)

end PhaseTable

/-- Settles O39: every step is one of `StepEffect`, and of these only the start of a cycle, the link's answer and step
X4 leave the phase. -/
theorem phaseChangesOnlyAsTheTableSays : Obligations.PhaseChangesOnlyAsTheTableSays := by
  unfold Obligations.PhaseChangesOnlyAsTheTableSays
  intro s s' hi hstep
  cases step_effect hi hstep with
  | waits e => subst e; exact .inl ⟨rfl, rfl⟩
  | issued _ _ _ e => subst e; exact .inl ⟨rfl, rfl⟩
  | edge _ _ e => subst e; exact .inl ⟨rfl, rfl⟩
  | answered a rest hs e =>
    rcases linkAnswer_cases a { s with script := s.script.tail } with h | ⟨hp, rfl, h⟩ | ⟨hp, g, rfl, hg, h⟩ <;>
      rw [h] at e <;> subst e
    · exact .inl ⟨rfl, rfl⟩
    · exact .inr (.inr (.inr (.inl ⟨hp, rfl, reportCycle_linkStream _ _, rest, hs⟩)))
    · exact .inr (.inr (.inl ⟨hp, rfl, rfl, g, rest, hs, hg⟩))
  | done e =>
    have h := handlerDone_staysInPhase { s with script := s.script.tail }
    exact .inl (e ▸ ⟨h.phase, h.link⟩)
  | took k q i hq _ hd he =>
    rcases he.phase_cases with h | ⟨hp, ⟨o, rfl, rfl⟩ | ⟨o, ch, op, p, rfl, hf, rfl⟩⟩
    · exact .inl ⟨h.phase, h.link⟩
    · exact .inr (.inl ⟨hp, rfl, rfl, .inr ⟨k, q, _, hq, hd, rfl, rfl, .inl ⟨o, rfl, rfl⟩⟩⟩)
    · exact .inr (.inl ⟨hp, rfl, rfl, .inr ⟨k, q, _, hq, hd, rfl, rfl,
        .inr ⟨o, ch, op, p, rfl, appendFits_iff.mp hf, rfl⟩⟩⟩)
  | event hp hirq e => subst e; exact .inr (.inl ⟨hp, rfl, rfl, .inl ⟨hirq, rfl, rfl, rfl⟩⟩)
  | proceeded hp hv hn he =>
    rcases he.phase_cases with h | ⟨hended, rfl⟩
    · exact .inl ⟨h.phase, h.link⟩
    · exact .inr (.inr (.inr (.inr ⟨hp, rfl, reportCycle_linkStream _ _, hended, hv, Ops.endCycle_outb _ _, hn⟩)))

/-! ## The lock -/

/-- What the lock guards stays: `DT`, `TAP`, the command port, and `IN` while the phase stays (R143, R169, R64). -/
structure KeepsLocked (s s' : State) : Prop where
  dt : s'.dt = s.dt
  tap : s'.tap = s.tap
  inb : s'.phase = s.phase → s'.inb = s.inb
  held : s'.held = s.held

section Lock

variable {s s' : State}

theorem linkAnswer_keepsLocked (answer : Option (List Byte)) (s : State) :
    KeepsLocked s (Ops.linkAnswer answer s) := by
  rcases linkAnswer_cases answer s with e | ⟨hp, -, e⟩ | ⟨hp, _, -, -, e⟩ <;> rw [e]
  · exact ⟨rfl, rfl, fun _ => rfl, rfl⟩
  · exact ⟨Ops.endCycle_dt _ _, Ops.endCycle_tap _ _, (fun h => nomatch h.trans hp), Ops.endCycle_held _ _⟩
  · exact ⟨rfl, rfl, (fun h => nomatch h.trans hp), rfl⟩

theorem handlerDone_keepsLocked (s : State) : KeepsLocked s (Ops.handlerDone s) := by
  rcases handlerDone_cases s with e | ⟨-, ⟨_, _, -, e⟩ | ⟨_, _, -, e⟩⟩ <;> rw [e] <;>
    exact ⟨rfl, rfl, fun _ => rfl, rfl⟩

theorem ProceedEffect.keepsLocked (he : ProceedEffect s s') (hp : s.phase = .disp) : KeepsLocked s s' := by
  cases he with
  | tapped _ _ e => subst e; exact ⟨rfl, rfl, fun _ => rfl, rfl⟩
  | header _ _ e =>
    subst e
    rcases parseHeader_cases s.inb.frameSize s.inb.frameChecksum s with e | ⟨-, -, ⟨_, e⟩ | ⟨_, e⟩⟩ <;> rw [e] <;>
      exact ⟨rfl, rfl, fun _ => rfl, rfl⟩
  | dispatched _ v _ _ e =>
    subst e
    unfold Ops.dispatchView
    split <;> exact ⟨rfl, rfl, fun _ => rfl, rfl⟩
  | round _ _ _ _ _ _ _ e =>
    rcases parseRound_cases e with rfl | ⟨_, -, -, -, rfl | ⟨_, rfl⟩ | ⟨_, -, -, -, -, rfl⟩⟩ <;>
      exact ⟨rfl, rfl, fun _ => rfl, rfl⟩
  | ended _ e =>
    subst e
    exact ⟨Ops.endCycle_dt _ _, Ops.endCycle_tap _ _, (fun h => nomatch h.trans hp), Ops.endCycle_held _ _⟩

/-- While the lock is held only a handler's deferred send may be taken, and only in `Disp` (R143, R139). -/
theorem takeable_of_locked {p : Phase} {q : Held} (hp : p ≠ .idle) (ht : takeable p q = true) :
    p = .disp ∧ isHandlerSend q = true := by
  cases p with
  | idle => exact absurd rfl hp
  | xfer => cases ht
  | disp => exact ⟨rfl, ht⟩

/-- In `Disp` a handler's deferred send does its append (R139). -/
theorem CommandEffect.of_handlerSend {ch op : Byte} {p : List Byte} (he : CommandEffect (.sendDeferredH ch op p) s s')
    (hp : s.phase = .disp) : ∃ ch op p r, s' = Ops.answer s.caller r (Ops.append ch op p s).1 := by
  cases he with
  | held _ hd _ => exact absurd rfl (hd hp ch op p)
  | appended _ ch op p r _ e => exact ⟨ch, op, p, r, e⟩
  | sent h | flushed h | entry h | refused h | tapSet h | tapCleared h => cases h.symm.trans hp

end Lock

/-- Settles O40: outside `Idle` a step takes no command but, in `Disp`, a handler's deferred send, which appends. -/
theorem lockedStepTakesNoClientCommand : Obligations.LockedStepTakesNoClientCommand := by
  unfold Obligations.LockedStepTakesNoClientCommand
  intro s s' hp hi hstep
  cases step_effect hi hstep with
  | waits e => subst e; exact ⟨rfl, rfl, fun _ => rfl, .inl rfl⟩
  | issued q rest hs e => subst e; exact ⟨rfl, rfl, fun _ => rfl, .inr (.inl ⟨q, rest, hs, rfl⟩)⟩
  | edge _ _ e => subst e; exact ⟨rfl, rfl, fun _ => rfl, .inl rfl⟩
  | answered a _ _ e =>
    subst e
    obtain ⟨hdt, htap, hinb, hheld⟩ := linkAnswer_keepsLocked a { s with script := s.script.tail }
    exact ⟨hdt, htap, hinb, .inl hheld⟩
  | done e =>
    subst e
    obtain ⟨hdt, htap, hinb, hheld⟩ := handlerDone_keepsLocked { s with script := s.script.tail }
    exact ⟨hdt, htap, hinb, .inl hheld⟩
  | took k q i hq ht hd he =>
    obtain ⟨hdisp, hsend⟩ := takeable_of_locked hp ht
    obtain ⟨ch, op, p, rfl⟩ := decodeCommand_handlerSend hsend hd
    obtain ⟨ch, op, p, r, rfl⟩ := he.of_handlerSend hdisp
    exact ⟨Ops.append_dt _ _ _ _, Ops.append_tap _ _ _ _, fun _ => Ops.append_inb _ _ _ _,
      .inr (.inr ⟨hdisp, (Ops.append_phase _ _ _ _).trans hdisp, k, q, hq, hsend, Ops.append_held _ _ _ _⟩)⟩
  | event h => exact absurd h hp
  | proceeded hdisp _ _ he =>
    obtain ⟨hdt, htap, hinb, hheld⟩ := he.keepsLocked hdisp
    exact ⟨hdt, htap, hinb, .inl hheld⟩

/-! ## A link that does not answer -/

/-- A run is a step, then the rest of the run, whatever the machine. -/
theorem run_succ_eq_next_iff {M : Host.Core} {k : Nat} {s t : M.State} :
    M.run (k + 1) s = .next t ↔ ∃ s1, M.step s = .next s1 ∧ M.run k s1 = .next t := by
  rw [Host.Core.run]
  cases M.step s with
  | next s1 => exact ⟨fun h => ⟨s1, rfl, h⟩, fun ⟨_, e, h⟩ => by cases e; exact h⟩
  | fault r => exact ⟨nofun, nofun⟩
  | refused r => exact ⟨nofun, nofun⟩

/-- What every step keeps, any number of steps keeps. -/
theorem run_keeps {P : State → Prop} (hstep : ∀ t t' : State, P t → step t = .next t' → P t') {k : Nat}
    {s s' : State} (h : core.run k s = .next s') (hs : P s) : P s' := by
  induction k generalizing s with
  | zero => cases h; exact hs
  | succ k ih =>
    obtain ⟨s1, h1, hrest⟩ := run_succ_eq_next_iff.mp h
    exact ih hrest (hstep s s1 hs h1)

/-- What holds between a state of `Xfer` and every state that follows it with no answer of the link. -/
structure Stalls (s t : State) : Prop where
  phase : t.phase = .xfer
  internal : t.internal = []
  noAnswer : ∀ a, Move.link a ∉ t.script
  outb : t.outb = s.outb
  starter : t.starter = s.starter
  held : s.held <+: t.held

/-- A step of the environment that is no answer of the link, or a wait of the engine, goes on with the stall. -/
theorem Stalls.step {s t t' : State} (h : Stalls s t) (hstep : step t = .next t') : Stalls s t' := by
  have hscript : ∀ a, Move.link a ∉ t.script.tail := fun a ha => h.noAnswer a (List.mem_of_mem_tail ha)
  have hphase := h.phase
  cases step_effect h.internal hstep with
  | waits e => subst e; exact { h with noAnswer := hscript }
  | issued q _ _ e =>
    subst e; exact { h with noAnswer := hscript, held := h.held.trans ⟨[q], rfl⟩ }
  | edge _ _ e => subst e; exact { h with noAnswer := hscript }
  | answered a _ hs _ => exact absurd (hs ▸ List.mem_cons_self) (h.noAnswer a)
  | done e =>
    rcases handlerDone_cases { t with script := t.script.tail } with e' | ⟨-, ⟨_, _, -, e'⟩ | ⟨_, _, -, e'⟩⟩ <;>
      rw [e'] at e <;> subst e <;> exact { h with noAnswer := hscript }
  | took _ _ _ _ ht =>
    obtain ⟨hp, -⟩ := takeable_of_locked (by simp [hphase]) ht
    cases hp.symm.trans hphase
  | event hp => cases hp.symm.trans hphase
  | proceeded hp => cases hp.symm.trans hphase

/-- Settles O41: each step without an answer keeps the stall. -/
theorem unansweredLinkStallsTheEngine : Obligations.UnansweredLinkStallsTheEngine := by
  unfold Obligations.UnansweredLinkStallsTheEngine
  intro k s s' hp hi hs hrun
  have h : Stalls s s' := run_keeps (fun _ _ => Stalls.step) hrun ⟨hp, hi, hs, rfl, rfl, [], List.append_nil _⟩
  exact ⟨h.phase, h.outb, h.starter, h.held⟩

/-! ## A cycle with handlers that only answer done -/

/-- A move of the engine or a done takes the machine from one state to the other, whatever the script holds behind
it. -/
def Goes (s t : State) : Prop :=
  ∃ m, (m = .engine 0 ∨ m = .done) ∧
    ∀ rest, Engine.apply m { s with script := rest } = .next { t with script := rest }

/-- Any number of such moves. -/
abbrev Reaches : State → State → Prop := Relation.ReflTransGen Goes

/-- The moves in between are a script that the machine runs. -/
theorem Reaches.run {s t : State} (h : Reaches s t) :
    ∃ moves : List Move, (∀ m ∈ moves, m = .engine 0 ∨ m = .done) ∧
      core.run moves.length { s with script := moves } = .next { t with script := [] } := by
  induction h using Relation.ReflTransGen.head_induction_on with
  | refl => exact ⟨[], List.forall_mem_nil _, rfl⟩
  | head hgoes _ ih =>
    obtain ⟨m, hm, happly⟩ := hgoes
    obtain ⟨moves, hmoves, hrun⟩ := ih
    exact ⟨m :: moves, List.forall_mem_cons.mpr ⟨hm, hmoves⟩,
      run_succ_eq_next_iff.mpr ⟨_, happly moves, hrun⟩⟩

/-- A cycle past its exchange, with nobody in service, in which only the parser and the handlers it invokes have
anything to do. -/
structure Undisturbed (s : State) : Prop where
  disp : s.phase = .disp
  noTap : s.tap.valid = false
  noServ : s.serv = none
  noInternal : s.internal = []
  held : ∀ q ∈ s.held, isHandlerSend q = false ∧ q.awaited = false

/-- A state in the course of such a cycle: its parse, its view, and what has been presented. -/
def inCourse (s : State) (p : Parse) (v : Option PacketView) (tr : List PortRec) : State :=
  { s with parse := p, pv := v, trace := tr }

/-- What is presented on the way delivers the views to the handlers they are bound to and raises the records, in order
each, and nothing goes to the link or to a client. -/
structure Delivers (s : State) (parsed : List PacketView × List DiagRec) (added : List PortRec) : Prop where
  dispatches : dispatchStream { s with trace := added } = deliveries s parsed.1
  diags : diagStream { s with trace := added } = parsed.2
  links : linkStream { s with trace := added } = []
  results : resultStream { s with trace := added } = []

section Delivers

variable {s : State} {vs vs' : List PacketView} {ds ds' : List DiagRec} {added added' : List PortRec}

theorem Delivers.append (h : Delivers s (vs, ds) added) (h' : Delivers s (vs', ds') added') :
    Delivers s (vs ++ vs', ds ++ ds') (added ++ added') := by
  obtain ⟨h1, h2, h3, h4⟩ := h
  obtain ⟨h1', h2', h3', h4'⟩ := h'
  unfold dispatchStream at h1 h1'
  unfold diagStream at h2 h2'
  unfold linkStream at h3 h3'
  unfold resultStream at h4 h4'
  constructor
  · simp only [dispatchStream, List.filter_append, h1, h1', deliveries, List.filterMap_append]
  · simp only [diagStream, List.filterMap_append, h2, h2']
  · simp only [linkStream, List.filter_append, h3, h3', List.append_nil]
  · simp only [resultStream, List.filter_append, h4, h4', List.append_nil]

theorem Delivers.diagnostics (s : State) (ds : List DiagRec) : Delivers s ([], ds) (ds.map .diag) := by
  constructor
  · simp [dispatchStream, deliveries, List.filter_map, Function.comp_def]
  · simp [diagStream, List.filterMap_map]
  · simp [linkStream, List.filter_map, Function.comp_def]
  · simp [resultStream, List.filter_map, Function.comp_def]

/-- What `DISPATCH` presents of one view (R160, R161). -/
theorem Delivers.view (s : State) (v : PacketView) : Delivers s ([v], []) (deliveries s [v]) := by
  by_cases hb : (Ops.entry s v.channel).handler = 0 <;> constructor <;>
    simp [dispatchStream, diagStream, linkStream, resultStream, deliveries, hb]

end Delivers

/-! ### Moves of the cycle -/

section Round

variable {s : State} {cur : Cursor} (hreads : Ops.parserReads s = true) (hrun : s.parse = .running cur)
  (hv : s.pv = none) (hin : (cur.pos : Int) + cur.rem ≤ s.cfg.n)

include hreads hrun hv hin

/-- The engine's round is the parser loop's last round: the parse ends, with the same records (R114). -/
theorem proceed_of_last_round {fuel : Nat} {ds : List DiagRec}
    (hl : Ops.parseLoop s.cfg s.inb (fuel + 1) cur.pos cur.rem = ([], ds)) :
    Engine.proceed s = .next { Ops.raiseAll ds s with parse := .ended } := by
  by_cases h0 : cur.rem ≤ 0
  · rw [parseLoop_of_rem_nonpos _ h0] at hl
    cases hl
    rw [proceed_of_short hrun hv (by omega), parseRound_of_rem_nonpos hreads hrun hv h0, raiseAll_nil]
  rw [Ops.parseLoop, if_neg h0] at hl
  by_cases h4 : cur.rem < 4
  · rw [decodeAt_of_short (by omega)] at hl
    cases hl
    rw [proceed_of_short hrun hv h4, parseRound_of_trailing hreads hrun hv (by omega) (by omega)]
    rfl
  · rw [decodeAt_of_header (by omega) (by omega)] at hl
    rw [proceed_of_subHeader hrun hv (by omega) (by omega), exec_decodeSubHeader,
      parseRound_of_running hreads hrun hv, if_neg h0, if_neg h4, ← Memory.read16]
    rcases hd : Ops.decodeFields s.cfg s.inb cur.pos cur.rem.toNat (s.inb.read cur.pos) (s.inb.read (cur.pos + 1))
      (s.inb.read16 (cur.pos + 2)) with ⟨_ | _ | ⟨v, consumed⟩ | _, big⟩ <;> rw [hd] at hl
    case sentinel => cases hl; rw [raiseAll_nil]
    case malformed => cases hl; rfl
    case view => cases hl
    case outside => exact absurd hd (decodeFields_ne_outside (by omega) _ _ _ _ _)

/-- The engine's round is the parser loop's round that yields a view (R114). -/
theorem proceed_of_view_round (hn : 9 ≤ s.cfg.n) {v : PacketView} {consumed : Nat} {big : Bool}
    (hd : Ops.decodeAt s.cfg s.inb cur.pos cur.rem.toNat = (.view v consumed, big)) :
    Engine.proceed s = .next { Ops.raiseAll (Ops.oversizeDiag big cur.pos (s.inb.read16 (cur.pos + 2))) s with
      pv := some v, parse := .running ⟨cur.lim, cur.pos + consumed, cur.rem - consumed⟩ } := by
  obtain ⟨-, h5, -⟩ := bounds_of_decodeAt_view hn hd
  rw [decodeAt_of_header (by omega) (by omega)] at hd
  rw [proceed_of_subHeader hrun hv (by omega) (by omega), exec_decodeSubHeader,
    parseRound_of_running hreads hrun hv, if_neg (by omega), if_neg (by omega), ← Memory.read16, hd]

end Round

/-- A handler that waits for nothing answers, and its view is gone (R166, R168). -/
theorem handlerDone_of_handler {s : State} {handler context : Nat} (hs : s.serv = some (.handler handler context))
    (hq : ∀ q ∈ s.held, q.awaited = false) : Ops.handlerDone s = { s with serv := none, pv := none } := by
  have hany : s.held.any (·.awaited) = false := List.any_eq_false.mpr fun q hmem => by simp [hq q hmem]
  simp only [Ops.handlerDone, hany, hs, Bool.false_eq_true, if_false]

/-- A view whose channel has no bound handler is dropped (R161). -/
theorem dispatchView_of_unbound {v : PacketView} {s : State} (h : (Ops.entry s v.channel).handler = 0) :
    Ops.dispatchView v s = { s with pv := none } := if_pos h

/-- A view whose channel has a bound handler is given to it (R160). -/
theorem dispatchView_of_bound {v : PacketView} {s : State} (h : (Ops.entry s v.channel).handler ≠ 0) :
    Ops.dispatchView v s = Ops.invoke (Ops.entry s v.channel).handler (Ops.entry s v.channel).context v s := if_neg h

/-- No end of a cycle reads the moves still to come. -/
theorem endCycle_with_script (r : Result) (s : State) (ms : List Move) :
    Ops.endCycle r { s with script := ms } = { Ops.endCycle r s with script := ms } := by
  unfold Ops.endCycle Ops.reportCycle
  dsimp only
  split
  · rfl
  · split <;> rfl
  · rfl

/-- A handler in service that waits for nothing may answer done. -/
theorem goes_of_handlerDone {s : State} {handler context : Nat} (hs : s.serv = some (.handler handler context))
    (hq : ∀ q ∈ s.held, q.awaited = false) : Goes s { s with serv := none, pv := none } :=
  ⟨.done, .inr rfl, fun rest =>
    congrArg Host.Outcome.next (handlerDone_of_handler (s := { s with script := rest }) hs hq)⟩

section Course

variable {s : State} (hs : Undisturbed s)

include hs

theorem Undisturbed.parserReads : Ops.parserReads s = true := parserReads_iff.mpr ⟨hs.disp, hs.noTap⟩

theorem Undisturbed.course (p : Parse) (v : Option PacketView) (tr : List PortRec) : Undisturbed (inCourse s p v tr) :=
  { hs with }

/-- A move of the engine goes on with the cycle. -/
theorem Undisturbed.goes_of_proceed {t : State}
    (h : ∀ rest, Engine.proceed { s with script := rest } = .next { t with script := rest }) : Goes s t :=
  ⟨.engine 0, .inl rfl, fun rest => (move_of_proceed (s := { s with script := rest }) hs.noInternal hs.disp hs.noServ
    (fun q hq => (hs.held q hq).1) 0).trans (h rest)⟩

/-- A live view is dispatched, and its handler, if one is bound, answers (R160, R161, R166). -/
theorem Undisturbed.reaches_dispatched (cur : Cursor) (v : PacketView) (tr : List PortRec) :
    Reaches (inCourse s (.running cur) (some v) tr) (inCourse s (.running cur) none (tr ++ deliveries s [v])) := by
  have hcourse := hs.course (.running cur) (some v) tr
  by_cases hb : (Ops.entry s v.channel).handler = 0
  · have hnone : deliveries s [v] = [] := by simp [deliveries, hb]
    rw [hnone, List.append_nil]
    exact .single (hcourse.goes_of_proceed fun rest =>
      (proceed_of_view rfl rfl).trans (congrArg Host.Outcome.next (dispatchView_of_unbound hb)))
  · have hone : deliveries s [v] =
        [.dispatch (Ops.entry s v.channel).handler (Ops.entry s v.channel).context v] := by simp [deliveries, hb]
    rw [hone]
    have hinvoked : Goes (inCourse s (.running cur) (some v) tr)
        (Ops.invoke (Ops.entry s v.channel).handler (Ops.entry s v.channel).context v
          (inCourse s (.running cur) (some v) tr)) :=
      hcourse.goes_of_proceed fun rest =>
        (proceed_of_view rfl rfl).trans (congrArg Host.Outcome.next (dispatchView_of_bound hb))
    have hdone := goes_of_handlerDone (s := Ops.invoke (Ops.entry s v.channel).handler (Ops.entry s v.channel).context v
      (inCourse s (.running cur) (some v) tr)) rfl fun q hq => (hs.held q hq).2
    refine .tail (.single hinvoked) ?_
    convert hdone using 1
    rw [inCourse, hs.noServ]
    rfl

/-- The cycle's rounds deliver what the parser's loop yields and raise its records (R114, R160). -/
theorem Undisturbed.reaches_parsed (hn : 9 ≤ s.cfg.n) {fuel : Nat} {cur : Cursor} (hf : cur.rem ≤ fuel)
    (hin : (cur.pos : Int) + cur.rem ≤ s.cfg.n) (tr : List PortRec) :
    ∃ added, Delivers s (Ops.parseLoop s.cfg s.inb fuel cur.pos cur.rem) added ∧
      Reaches (inCourse s (.running cur) none tr) (inCourse s .ended none (tr ++ added)) := by
  have hlast : ∀ {fuel cur tr ds}, (cur.pos : Int) + cur.rem ≤ s.cfg.n →
      Ops.parseLoop s.cfg s.inb (fuel + 1) cur.pos cur.rem = ([], ds) →
      Reaches (inCourse s (.running cur) none tr) (inCourse s .ended none (tr ++ ds.map .diag)) :=
    fun {_ cur tr _} hin hl => .single ((hs.course (.running cur) none tr).goes_of_proceed fun rest =>
      proceed_of_last_round (s := { inCourse s (.running cur) none tr with script := rest }) hs.parserReads rfl rfl hin
        hl)
  induction fuel generalizing cur tr with
  | zero => exact ⟨_, .diagnostics s [], hlast hin (parseLoop_of_rem_nonpos 1 hf)⟩
  | succ fuel ih =>
    rcases parseLoop_cases s.cfg s.inb fuel cur.pos cur.rem with ⟨ds, hl, -⟩ | ⟨v, consumed, big, hrem, hd⟩
    · rw [hl]
      exact ⟨_, .diagnostics s ds, hlast hin hl⟩
    · obtain ⟨-, -, hconsumed, -⟩ := bounds_of_decodeAt_view hn hd
      set ds := Ops.oversizeDiag big cur.pos (s.inb.read16 (cur.pos + 2))
      have hround : Goes (inCourse s (.running cur) none tr)
          (inCourse s (.running ⟨cur.lim, cur.pos + consumed, cur.rem - consumed⟩) (some v) (tr ++ ds.map .diag)) :=
        (hs.course (.running cur) none tr).goes_of_proceed fun rest =>
          proceed_of_view_round (s := { inCourse s (.running cur) none tr with script := rest }) hs.parserReads rfl rfl
            hin hn hd
      obtain ⟨added, hdelivers, hrest⟩ := ih (cur := ⟨cur.lim, cur.pos + consumed, cur.rem - consumed⟩)
        (by dsimp only; push_cast at hf; omega) (by dsimp only; push_cast; omega)
        (tr ++ ds.map .diag ++ deliveries s [v])
      rw [parseLoop_of_view hrem hd]
      refine ⟨_, (Delivers.diagnostics s ds).append ((Delivers.view s v).append hdelivers), ?_⟩
      rw [← List.append_assoc, ← List.append_assoc]
      exact (Relation.ReflTransGen.single hround).trans ((hs.reaches_dispatched _ v _).trans hrest)

/-- What the parse of a cycle yields: of a frame whose size is 0 nothing (R135). -/
def parsedInCycle (c : Config) (m : Memory) : List PacketView × List DiagRec :=
  if m.frameSize = 0#16 then ([], []) else Ops.parseFrame c m

/-- A cycle past its exchange delivers what the parse yields and raises its records (R135, R113, R114). -/
theorem Undisturbed.reaches_ended (hn : 9 ≤ s.cfg.n) (tr : List PortRec) :
    ∃ added, Delivers s (parsedInCycle s.cfg s.inb) added ∧
      Reaches (inCourse s .notBegun none tr) (inCourse s .ended none (tr ++ added)) := by
  have hheader : ∀ {t : State}, (∀ rest, Ops.parseHeader s.inb.frameSize s.inb.frameChecksum
      { inCourse s .notBegun none tr with script := rest } = { t with script := rest }) →
      Goes (inCourse s .notBegun none tr) t :=
    fun h => (hs.course .notBegun none tr).goes_of_proceed fun rest =>
      (proceed_of_header (s := { inCourse s .notBegun none tr with script := rest }) rfl hs.noTap).trans
        ((exec_decodeFrameHeader _ _ _ _ _).trans (congrArg Host.Outcome.next (h rest)))
  unfold parsedInCycle
  split
  · rename_i h0
    refine ⟨[], .diagnostics s [], ?_⟩
    rw [List.append_nil]
    refine .single (hheader fun rest => ?_)
    rw [h0]
    exact parseHeader_of_empty (s := { inCourse s .notBegun none tr with script := rest }) hs.parserReads rfl
  · rename_i h0
    by_cases hv : s.inb.frameChecksum = checksumOf s.inb.frameSize
    · rw [parseFrame_of_good_checksum hv]
      have hcap := contentLimit_le_cap s.cfg s.inb.frameSize
      rw [Config.cap] at hcap
      set lim := contentLimit s.cfg s.inb.frameSize
      have hbegun : Goes (inCourse s .notBegun none tr)
          (inCourse s (.running ⟨lim, 4, lim⟩) none (tr ++ (overrunDiag s.cfg s.inb.frameSize).map .diag)) :=
        hheader fun rest => parseHeader_of_good_checksum (s := { inCourse s .notBegun none tr with script := rest })
          hs.parserReads rfl h0 hv
      obtain ⟨added, hdelivers, hparsed⟩ := hs.reaches_parsed hn (cur := ⟨lim, 4, lim⟩) (Int.le_refl _)
        (by dsimp only; omega) (tr ++ (overrunDiag s.cfg s.inb.frameSize).map .diag)
      refine ⟨_, (Delivers.diagnostics s _).append hdelivers, ?_⟩
      rw [← List.append_assoc]
      exact .head hbegun hparsed
    · rw [parseFrame_of_bad_checksum hv]
      exact ⟨_, .diagnostics s [_], .single (hheader fun rest => parseHeader_of_bad_checksum
        (s := { inCourse s .notBegun none tr with script := rest }) hs.parserReads rfl h0 hv)⟩

/-- After the parse the cycle ends (R136). -/
theorem Undisturbed.goes_endCycle (tr : List PortRec) :
    Goes (inCourse s .ended none tr) (Ops.endCycle .ok (inCourse s .ended none tr)) :=
  (hs.course .ended none tr).goes_of_proceed fun rest =>
    (proceed_of_ended rfl).trans (congrArg _ (endCycle_with_script .ok (inCourse s .ended none tr) rest))

end Course

/-- What a delivery adds to each stream. -/
theorem Delivers.streams {s : State} {parsed : List PacketView × List DiagRec} {added : List PortRec}
    (h : Delivers s parsed added) {t : State} (ht : t.trace = s.trace ++ added) :
    dispatchStream t = dispatchStream s ++ deliveries s parsed.1 ∧ diagStream t = diagStream s ++ parsed.2 ∧
      linkStream t = linkStream s ∧ resultStream t = resultStream s := by
  obtain ⟨hdispatches, hdiags, hlinks, hresults⟩ := h
  rw [← hdispatches, ← hdiags, dispatchStream, diagStream, linkStream, resultStream, ht, List.filter_append,
    List.filterMap_append, List.filter_append, List.filter_append]
  exact ⟨rfl, rfl, (congrArg _ hlinks).trans (List.append_nil _), (congrArg _ hresults).trans (List.append_nil _)⟩

/-- The end of a cycle with `Ok` adds to the streams only the result of the client that started it (R136, R141). -/
theorem endCycle_ok_streams (s : State) :
    dispatchStream (Ops.endCycle .ok s) = dispatchStream s ∧ diagStream (Ops.endCycle .ok s) = diagStream s ∧
      linkStream (Ops.endCycle .ok s) = linkStream s ∧
      (∀ c, s.starter = .client c → resultStream (Ops.endCycle .ok s) = resultStream s ++ [.result c .ok]) ∧
      ((∀ c, s.starter ≠ .client c) → resultStream (Ops.endCycle .ok s) = resultStream s) := by
  unfold dispatchStream diagStream linkStream resultStream
  rcases reportCycle_trace .ok s with ⟨e, hstarter⟩ | ⟨c, hstarter, e⟩ | ⟨-, hr, -⟩
  · rw [Ops.endCycle_trace, e]
    exact ⟨rfl, rfl, rfl, fun c h => absurd h (hstarter c), fun _ => rfl⟩
  · rw [Ops.endCycle_trace, e]
    simp [hstarter]
  · cases hr

/-- Settles O55: the header, the rounds, the dispatches and the dones lead to step X4, and what is presented on the way
is what `FB_PARSE` yields and raises. -/
theorem cycleDeliversWhatTheParserYields : Obligations.CycleDeliversWhatTheParserYields := by
  unfold Obligations.CycleDeliversWhatTheParserYields
  intro s hinv hp hn ht hv hpv hheld hs parsed
  have hundisturbed : Undisturbed s := ⟨hp, ht, hv, hinv.noInternal, hheld⟩
  obtain ⟨added, hdelivers, hended⟩ := hundisturbed.reaches_ended hinv.legal.1 s.trace
  have hbegin : inCourse s .notBegun none s.trace = s := by rw [inCourse, ← hn, ← hpv]
  rw [hbegin] at hended
  obtain ⟨moves, hmoves, hrun⟩ := Reaches.run (hended.tail (hundisturbed.goes_endCycle _))
  set u := inCourse s .ended none (s.trace ++ added)
  obtain ⟨hdispatches, hdiags, hlinks, hresults⟩ := hdelivers.streams (t := u) rfl
  obtain ⟨edispatches, ediags, elinks, eclient, eother⟩ := endCycle_ok_streams u
  obtain ⟨hclient, hevent, hnobody⟩ := endCycle_reports .ok u
  refine ⟨moves, { Ops.endCycle .ok u with script := [] }, hmoves, hrun, ?_, edispatches.trans hdispatches,
    ediags.trans hdiags, elinks.trans hlinks, fun c hc => ?_, fun he => ?_, fun hb => ?_⟩
  · rw [endCycle_frame .ok u, hs, hpv, hv]
    rfl
  · obtain ⟨hret, htrace⟩ := hclient c hc
    exact ⟨hret, (eclient c hc).trans (congrArg (· ++ _) hresults), _, htrace⟩
  · obtain ⟨hret, -⟩ := hevent he
    exact ⟨hret, (eother fun _ hc => nomatch hc.symm.trans he).trans hresults⟩
  · obtain ⟨hret, -⟩ := hnobody hb
    exact ⟨hret, (eother fun _ hc => nomatch hc.symm.trans hb).trans hresults⟩

end Sys2Proof.Machine

/-! The dispatch multiplexer and the debug tap (R160 to R171): the commands that write the table and the tap, to whom a
view goes, how a service ends, and what a tapped cycle keeps from the handlers and from the diagnostic stream. -/

namespace Sys2Proof.Machine

/-! ## The dispatch table -/

/-- A number that fits its register is written as it is (log 17). -/
theorem toWidth_of_lt {w v : Nat} (h : v < 2 ^ w) : toWidth w v = v := Nat.mod_eq_of_lt h

section Table

variable {s : State} {ch : Byte}

theorem exec_register_of_inside (hp : s.phase = .idle) (hc : ch.toNat < s.cfg.nch) (o : Bool) (h x : Nat) :
    exec (.register o ch h x) s = .next (Ops.answer s.caller .ok (Ops.setEntry ch h x s)) := by
  simp only [exec, execRegister, hp, if_pos hc]

theorem exec_register_of_outside (hp : s.phase = .idle) (hc : s.cfg.nch ≤ ch.toNat) (o : Bool) (h x : Nat) :
    exec (.register o ch h x) s = .next (Ops.answer s.caller .invalidChannel s) := by
  simp only [exec, execRegister, hp, if_neg (Nat.not_lt.mpr hc)]

theorem exec_unregister_of_inside (hp : s.phase = .idle) (hc : ch.toNat < s.cfg.nch) (o : Bool) :
    exec (.unregister o ch) s = .next (Ops.answer s.caller .ok (Ops.setEntry ch 0 0 s)) := by
  simp only [exec, execUnregister, hp, if_pos hc]

theorem exec_unregister_of_outside (hp : s.phase = .idle) (hc : s.cfg.nch ≤ ch.toNat) (o : Bool) :
    exec (.unregister o ch) s = .next (Ops.answer s.caller .ok s) := by
  simp only [exec, execUnregister, hp, if_neg (Nat.not_lt.mpr hc)]

/-- What an operation that writes one entry of the table does: that entry, its result, and nothing else (R162, R163). -/
theorem exec_of_setEntry {i : Instr} {h x : Nat}
    (he : exec i s = .next (Ops.answer s.caller .ok (Ops.setEntry ch h x s))) (hc : ch.toNat < s.dt.length)
    (hh : h < 2 ^ s.cfg.handlerW) (hx : x < 2 ^ s.cfg.ctxW) :
    ∃ t, exec i s = .next t ∧
      t = { s with dt := t.dt, trace := s.trace ++ [.result s.caller .ok] } ∧ t.dt.length = s.dt.length ∧
      t.dt[ch.toNat]? = some ⟨h, x⟩ ∧ ∀ k, k ≠ ch.toNat → t.dt[k]? = s.dt[k]? := by
  refine ⟨_, he, rfl, List.length_set, ?_, fun k hk => List.getElem?_set_ne hk.symm⟩
  rw [Ops.answer_dt, Ops.setEntry_dt, List.getElem?_set_self hc, toWidth_of_lt hh, toWidth_of_lt hx]

end Table

/-- Settles O48: inside the table `REGISTER` is `setEntry` and `Ok`, outside it only a result. -/
theorem registerInstallsTheEntry : Obligations.RegisterInstallsTheEntry := by
  unfold Obligations.RegisterInstallsTheEntry
  intro s o ch h x hp
  exact ⟨fun hc hlen hh hx => exec_of_setEntry (exec_register_of_inside hp hc o h x) (hlen ▸ hc) hh hx,
    fun hc => exec_register_of_outside hp hc o h x⟩

/-- Settles O49: inside the table `UNREGISTER` is `setEntry` with zeros, outside it only a result. -/
theorem unregisterClearsTheEntry : Obligations.UnregisterClearsTheEntry := by
  unfold Obligations.UnregisterClearsTheEntry
  intro s o ch hp
  exact ⟨fun hc hlen => exec_of_setEntry (exec_unregister_of_inside hp hc o) (hlen ▸ hc) (Nat.two_pow_pos _)
    (Nat.two_pow_pos _), fun hc => exec_unregister_of_outside hp hc o⟩

/-! ## The tap -/

/-- Operands within their widths are what the tap holds, valid exactly when the handler is not 0 (R164, R27). -/
theorem setTap_of_lt {s : State} {h x : Nat} (hh : h < 2 ^ s.cfg.handlerW) (hx : x < 2 ^ s.cfg.ctxW) :
    Ops.setTap h x s = { s with tap := ⟨decide (h ≠ 0), h, x⟩ } := by
  have hv : (h != 0) = decide (h ≠ 0) := Bool.eq_iff_iff.mpr (by simp)
  rw [Ops.setTap, toWidth_of_lt hh, toWidth_of_lt hx, hv]

/-- Settles O50: in `Idle` both commands write the tap, the one from its operands, the other with zeros. -/
theorem tapCommandsWriteTheTap : Obligations.TapCommandsWriteTheTap := by
  unfold Obligations.TapCommandsWriteTheTap
  intro s o h x hp
  refine ⟨fun hh hx => ?_, ?_⟩
  · simp only [exec, execSetDebugTap, hp, setTap_of_lt hh hx]
    rfl
  · simp only [exec, execClearDebugTap, hp]
    rfl

/-- Settles O52: the record is `IN` from offset 0, `N` bytes long. -/
theorem tapGetsTheRawFrame : Obligations.TapGetsTheRawFrame := by
  unfold Obligations.TapGetsTheRawFrame
  intro s
  obtain ⟨hlength, hbytes⟩ := s.inb.slice_zero_bytes s.cfg.n
  exact ⟨s.inb.slice 0 s.cfg.n, hlength, hbytes, rfl⟩

/-! ## To whom a view goes -/

/-- A channel inside the table has the entry that stands there (R26). -/
theorem entry_of_inside {s : State} {ch : Byte} {e : DtEntry} (hc : ch.toNat < s.cfg.nch)
    (he : s.dt[ch.toNat]? = some e) : Ops.entry s ch = e := by
  rw [Ops.entry, if_pos hc, List.getD_eq_getElem?_getD, he, Option.getD_some]

/-- A channel outside the table reads as unbound (R161). -/
theorem entry_of_outside {s : State} {ch : Byte} (hc : s.cfg.nch ≤ ch.toNat) : Ops.entry s ch = ⟨0, 0⟩ :=
  if_neg (Nat.not_lt.mpr hc)

/-- Settles O51: `DISPATCH` goes by the entry of the view's channel, and a channel outside the table has none. -/
theorem dispatchInvokesTheBoundHandler : Obligations.DispatchInvokesTheBoundHandler := by
  unfold Obligations.DispatchInvokesTheBoundHandler
  intro s v
  refine ⟨fun e hc he hb => ?_, fun e hc he hu => ?_, fun hc => ?_⟩ <;> refine congrArg Host.Outcome.next ?_
  · have hentry := entry_of_inside hc he
    rw [dispatchView_of_bound (by rwa [hentry]), hentry]
    rfl
  · exact dispatchView_of_unbound (by rwa [entry_of_inside hc he])
  · exact dispatchView_of_unbound (by rw [entry_of_outside hc])

/-! ## The end of a service -/

/-- A step whose script begins with a done. -/
theorem step_of_done {s : State} {rest : List Move} (h : s.script = .done :: rest) :
    step s = .next (Ops.handlerDone { s with script := rest }) := by
  rw [step, Engine.run, h]
  rfl

/-- A tap handler that waits for nothing answers, and the parse is skipped (R167, R134). -/
theorem handlerDone_of_tap {s : State} {handler context : Nat} (hs : s.serv = some (.tap handler context))
    (hp : s.phase = .disp) (hq : ∀ q ∈ s.held, q.awaited = false) :
    Ops.handlerDone s = { s with serv := none, parse := .ended } := by
  have hany : s.held.any (·.awaited) = false := List.any_eq_false.mpr fun q hmem => by simp [hq q hmem]
  simp only [Ops.handlerDone, hany, hs, hp, Bool.false_eq_true, if_false, if_true]

/-- With nobody in service a done changes nothing (log 5). -/
theorem handlerDone_of_nobody {s : State} (hs : s.serv = none) : Ops.handlerDone s = s := by
  simp only [Ops.handlerDone, hs, ite_self]

/-- Settles O47: the step is `handlerDone`, which goes by who is in service. -/
theorem doneEndsTheService : Obligations.DoneEndsTheService := by
  unfold Obligations.DoneEndsTheService
  intro s rest h x hs hq
  rw [step_of_done hs]
  exact ⟨fun hv => congrArg _ (handlerDone_of_handler (s := { s with script := rest }) hv hq),
    fun hv hp => congrArg _ (handlerDone_of_tap (s := { s with script := rest }) hv hp hq),
    fun hv => congrArg _ (handlerDone_of_nobody (s := { s with script := rest }) hv)⟩

/-! ## Under a tap -/

/-- A record that is neither a handler's invocation nor a diagnostic (R171). -/
def NoDelivery (r : PortRec) : Prop := (∀ h x v, r ≠ .dispatch h x v) ∧ ∀ d, r ≠ .diag d

theorem noDelivery_result (caller : Nat) (r : Result) : NoDelivery (.result caller r) := ⟨nofun, nofun⟩

theorem noDelivery_tap (h x : Nat) (frame : List Byte) : NoDelivery (.tap h x frame) := ⟨nofun, nofun⟩

section Tapped

variable {s s' : State}

/-- Outside `Xfer` the engine waits for no answer of the link, and one changes nothing (R131, log 5). -/
theorem linkAnswer_of_not_xfer (hp : s.phase ≠ .xfer) (answer : Option (List Byte)) : Ops.linkAnswer answer s = s := by
  rcases linkAnswer_cases answer s with e | ⟨h, -⟩ | ⟨h, -⟩
  · exact e
  · exact absurd h hp
  · exact absurd h hp

theorem handlerDone_trace (s : State) : (Ops.handlerDone s).trace = s.trace := by
  rcases handlerDone_cases s with e | ⟨-, ⟨_, _, -, e⟩ | ⟨_, _, -, e⟩⟩ <;> rw [e]

/-- A cycle that ends well raises no diagnostic, whoever started it (R136). -/
theorem endCycle_ok_noDelivery (s : State) : Presents NoDelivery s (Ops.endCycle .ok s) := by
  rcases reportCycle_trace .ok s with ⟨e, -⟩ | ⟨c, -, e⟩ | ⟨-, h, -⟩
  · exact .nothing e
  · exact .one e (noDelivery_result c .ok)
  · cases h

/-- No parse runs while a tap is installed (R134). -/
theorem Inv.not_running_of_tap (h : Inv s) (ht : s.tap.valid = true) (cur : Cursor) : s.parse ≠ .running cur := by
  intro hr
  obtain ⟨-, -, -, hnoTap⟩ := h.cursor cur hr
  cases hnoTap.symm.trans ht

/-- Under a tap the cycle goes on only to forward the frame, or to end (R134, R171). -/
theorem ProceedEffect.noDelivery (he : ProceedEffect s s') (h : Inv s) (ht : s.tap.valid = true) :
    Presents NoDelivery s s' := by
  cases he with
  | tapped _ _ e => subst e; exact .one rfl (noDelivery_tap _ _ _)
  | header _ hno _ => cases hno.symm.trans ht
  | dispatched cur _ hr _ _ => exact absurd hr (h.not_running_of_tap ht cur)
  | round cur hr _ _ _ _ _ _ => exact absurd hr (h.not_running_of_tap ht cur)
  | ended _ e => subst e; exact endCycle_ok_noDelivery s

/-- Past the exchange of a tapped cycle nothing is delivered or raised: the only command taken is a handler's deferred
send, which answers with a result (R139). -/
theorem StepEffect.noDelivery {s1 : State} (he : StepEffect s s1 s') (h : Inv s1) (hp : s1.phase = .disp)
    (ht : s1.tap.valid = true) : Presents NoDelivery s1 s' := by
  cases he with
  | waits e => subst e; exact .nothing rfl
  | issued _ _ _ e => subst e; exact .nothing rfl
  | edge _ _ e => subst e; exact .nothing rfl
  | answered a _ _ e => rw [e, linkAnswer_of_not_xfer (by simp [hp])]; exact .nothing rfl
  | done e => subst e; exact .nothing (handlerDone_trace s1)
  | took idx q i _ htake hd hc =>
    obtain ⟨-, hsend⟩ := takeable_of_locked (by simp [hp]) htake
    obtain ⟨ch, op, p, rfl⟩ := decodeCommand_handlerSend hsend hd
    obtain ⟨ch, op, p, r, rfl⟩ := hc.of_handlerSend hp
    exact .one (congrArg (· ++ _) (Ops.append_trace ch op p _)) (noDelivery_result _ r)
  | event hidle _ _ => cases hidle.symm.trans hp
  | proceeded _ _ _ hc => exact hc.noDelivery h ht

end Tapped

/-- Settles O53: under a tap no parse runs, so no header is read and no view dispatched; what is left presents the tapped
frame or a result. -/
theorem installedTapSilencesDispatch : Obligations.InstalledTapSilencesDispatch := by
  unfold Obligations.InstalledTapSilencesDispatch
  intro s s' h hp ht hstep
  exact (step_effect h.noInternal hstep).noDelivery (h.with_script s.script.tail) hp ht

end Sys2Proof.Machine

/-! Errors, the event source and arbitration (R180 to R190): the latched edge of the event, and that no step reads
what has been presented on the ports. -/

namespace Sys2Proof.Machine

/-! ## The latched edge -/

/-- A step whose script begins with an edge only sets the bit (R186). -/
theorem step_of_edge {s : State} {rest : List Move} (h : s.script = .edge :: rest) :
    step s = .next { s with script := rest, irqPending := true } := by
  rw [step, Engine.run, h]
  rfl

section Latch

variable {s s' : State}

theorem linkAnswer_irqPending (answer : Option (List Byte)) (s : State) :
    (Ops.linkAnswer answer s).irqPending = s.irqPending := by
  rcases linkAnswer_cases answer s with e | ⟨-, -, e⟩ | ⟨-, _, -, -, e⟩ <;> rw [e]
  exact Ops.endCycle_irqPending _ _

theorem handlerDone_irqPending (s : State) : (Ops.handlerDone s).irqPending = s.irqPending := by
  rcases handlerDone_cases s with e | ⟨-, ⟨_, _, -, e⟩ | ⟨_, _, -, e⟩⟩ <;> rw [e]

/-- No command touches the bit, not even one that starts a cycle (R186). -/
theorem CommandEffect.irqPending_eq {i : Instr} (he : CommandEffect i s s') : s'.irqPending = s.irqPending := by
  cases he with
  | appended _ ch op p _ _ e => subst e; exact Ops.append_irqPending ch op p s
  | sent _ _ ch op p _ _ e => subst e; exact Ops.append_irqPending ch op p s
  | held _ _ e | flushed _ _ _ e | entry _ _ _ _ _ e | refused _ _ e | tapSet _ _ _ e | tapCleared _ e =>
    subst e; rfl

/-- Nothing the cycle in progress goes on with touches the bit (R186, R187). -/
theorem ProceedEffect.irqPending_eq (he : ProceedEffect s s') : s'.irqPending = s.irqPending := by
  cases he with
  | tapped _ _ e => subst e; rfl
  | header _ _ e =>
    subst e
    rcases parseHeader_cases s.inb.frameSize s.inb.frameChecksum s with e | ⟨-, -, ⟨_, e⟩ | ⟨_, e⟩⟩ <;> rw [e] <;> rfl
  | dispatched _ v _ _ e => subst e; unfold Ops.dispatchView; split <;> rfl
  | round _ _ _ _ _ _ _ e =>
    rcases parseRound_cases e with rfl | ⟨_, -, -, -, rfl | ⟨_, rfl⟩ | ⟨_, -, -, -, -, rfl⟩⟩ <;> rfl
  | ended _ e => subst e; exact Ops.endCycle_irqPending _ _

/-- What a step can do to the bit: an edge sets it, the start of the event's cycle clears it, and any other step leaves
it as it is (R186). -/
theorem step_irqPending_cases (hi : s.internal = []) (hstep : step s = .next s') :
    s'.irqPending = s.irqPending ∨
    (s'.irqPending = true ∧ ∃ rest, s.script = .edge :: rest) ∨
    (s'.irqPending = false ∧ s.phase = .idle ∧ s'.phase = .xfer ∧ s'.starter = .event) := by
  cases step_effect hi hstep with
  | edge rest hs e => subst e; exact .inr (.inl ⟨rfl, rest, hs⟩)
  | event hp _ e => subst e; exact .inr (.inr ⟨rfl, hp, rfl, rfl⟩)
  | waits e | issued _ _ _ e => subst e; exact .inl rfl
  | answered a _ _ e => subst e; exact .inl (linkAnswer_irqPending a _)
  | done e => subst e; exact .inl (handlerDone_irqPending _)
  | took _ _ _ _ _ _ he => exact .inl he.irqPending_eq
  | proceeded _ _ _ he => exact .inl he.irqPending_eq

end Latch

/-- Settles O43: of the cases of a step only the edge and the start of the event's cycle write the bit. -/
theorem edgesAreLatched : Obligations.EdgesAreLatched := by
  unfold Obligations.EdgesAreLatched
  refine ⟨fun s rest h => step_of_edge h, fun s s' hi hset hstep => ?_, fun s s' hi hclear hstep hset => ?_⟩
  · rcases step_irqPending_cases hi hstep with h | ⟨h, -⟩ | ⟨h, hidle, hxfer, hevent⟩
    · exact .inl (h.trans hset)
    · exact .inl h
    · exact .inr ⟨hidle, hxfer, hevent, h⟩
  · rcases step_irqPending_cases hi hstep with h | ⟨-, hedge⟩ | ⟨h, -⟩
    · cases (h.trans hclear).symm.trans hset
    · exact hedge
    · cases h.symm.trans hset

/-! ## What has been presented is never read -/

/-- Two outcomes of one operation, from the same state but for the records already presented (`old` in the one, `new` in
the other), under the parameters `c`: the same stop, or the same next state, behind whose records the same ones are
added (R183, log 8). -/
inductive SameOutcome (c : Config) (old new : List PortRec) :
    Host.Outcome State Fault Refusal → Host.Outcome State Fault Refusal → Prop where
  | next (added : List PortRec) {s' : State} (hc : s'.cfg = c) (ht : s'.trace = old ++ added) :
      SameOutcome c old new (.next s') (.next { s' with trace := new ++ added })
  | fault (r : Fault) : SameOutcome c old new (.fault r) (.fault r)
  | refused (r : Refusal) : SameOutcome c old new (.refused r) (.refused r)

/-- An operation that does not read what has been presented, only adds to it, and keeps the parameters (R183, R5). -/
def IgnoresTrace (m : State → Host.Outcome State Fault Refusal) : Prop :=
  ∀ (s : State) (new : List PortRec), SameOutcome s.cfg s.trace new (m s) (m { s with trace := new })

section IgnoresTrace

variable {c : Config} {old new : List PortRec} {s' : State}

/-- Nothing is presented. -/
theorem SameOutcome.silent (hc : s'.cfg = c) (ht : s'.trace = old) :
    SameOutcome c old new (.next s') (.next { s' with trace := new }) := by
  have h := SameOutcome.next (new := new) [] hc (ht.trans (List.append_nil old).symm)
  rwa [List.append_nil] at h

/-- What is added is one list for every trace the operation starts behind: a suffix of a list is determined by the part
before it. -/
theorem IgnoresTrace.adds {m : State → Host.Outcome State Fault Refusal} (hm : IgnoresTrace m) {s : State}
    (h : m s = .next s') : ∃ added : List PortRec, s'.trace = s.trace ++ added ∧ s'.cfg = s.cfg ∧
      ∀ tr : List PortRec, m { s with trace := tr } = .next { s' with trace := tr ++ added } := by
  have key : ∀ tr, ∃ added, s'.cfg = s.cfg ∧ s'.trace = s.trace ++ added ∧
      m { s with trace := tr } = .next { s' with trace := tr ++ added } := by
    intro tr
    have h' := hm s tr
    rw [h] at h'
    generalize m { s with trace := tr } = o at h'
    cases h' with
    | next added hc ht => exact ⟨added, hc, ht, rfl⟩
  obtain ⟨added, hc, ht, -⟩ := key []
  refine ⟨added, ht, hc, fun tr => ?_⟩
  obtain ⟨added', -, ht', e⟩ := key tr
  rwa [List.append_cancel_left (ht'.symm.trans ht)] at e

/-! ### The shared operations -/

/-- `FB_APPEND` presents nothing and goes by the accumulator alone (R111). -/
theorem append_with_trace (ch op : Byte) (p : List Byte) (s : State) (new : List PortRec) :
    Ops.append ch op p { s with trace := new } =
      ({ (Ops.append ch op p s).1 with trace := new }, (Ops.append ch op p s).2) := by
  unfold Ops.append
  split <;> rfl

theorem endCycle_ignoresTrace (r : Result) : IgnoresTrace fun s => .next (Ops.endCycle r s) := by
  intro s new
  unfold Ops.endCycle Ops.reportCycle
  dsimp only
  split
  · exact .next [_] rfl rfl
  · split
    · exact .next [_] rfl rfl
    · exact .silent rfl rfl
  · exact .silent rfl rfl

theorem linkAnswer_ignoresTrace (answer : Option (List Byte)) :
    IgnoresTrace fun s => .next (Ops.linkAnswer answer s) := by
  intro s new
  unfold Ops.linkAnswer
  dsimp only
  split
  · exact endCycle_ignoresTrace .transportError { s with outb := [] } new
  · split <;> exact .silent rfl rfl
  · exact .silent rfl rfl

theorem handlerDone_ignoresTrace : IgnoresTrace fun s => .next (Ops.handlerDone s) := by
  intro s new
  unfold Ops.handlerDone
  dsimp only
  split
  · exact .silent rfl rfl
  · split <;> exact .silent rfl rfl

theorem dispatchView_ignoresTrace (v : PacketView) : IgnoresTrace fun s => .next (Ops.dispatchView v s) := by
  intro s new
  have hentry : Ops.entry { s with trace := new } v.channel = Ops.entry s v.channel := rfl
  unfold Ops.dispatchView
  dsimp only
  rw [hentry]
  split
  · exact .silent rfl rfl
  · exact .next [_] rfl rfl

theorem parseHeader_ignoresTrace (size checksum : Word) :
    IgnoresTrace fun s => .next (Ops.parseHeader size checksum s) := by
  intro s new
  have hreads : Ops.parserReads { s with trace := new } = Ops.parserReads s := rfl
  unfold Ops.parseHeader
  dsimp only
  rw [hreads]
  split
  · split
    · exact .silent rfl rfl
    · split <;> exact .next _ rfl rfl
  · exact .silent rfl rfl

theorem parseRound_ignoresTrace (ch op : Byte) (ps : Word) : IgnoresTrace (Ops.parseRound ch op ps) := by
  intro s new
  have hreads : Ops.parserReads { s with trace := new } = Ops.parserReads s := rfl
  unfold Ops.parseRound
  dsimp only
  rw [hreads]
  split
  · split
    · exact .silent rfl rfl
    · split
      · exact .next _ rfl rfl
      · split
        · exact .silent rfl rfl
        · exact .next _ rfl rfl
        · exact .next _ rfl rfl
        · exact .fault _
  · exact .silent rfl rfl

/-! ### The instructions -/

/-- A deferred send taken at once: its append, and its result (R138, R139). -/
theorem answer_append_ignoresTrace (ch op : Byte) (p : List Byte) :
    IgnoresTrace fun s => .next (Ops.answer s.caller (Ops.append ch op p s).2 (Ops.append ch op p s).1) := by
  intro s new
  dsimp only
  rw [append_with_trace ch op p s new]
  exact .next [_] (Ops.append_cfg ch op p s) (congrArg (· ++ _) (Ops.append_trace ch op p s))

theorem execSendSync_ignoresTrace (o : Bool) (ch op : Byte) (p : List Byte) :
    IgnoresTrace (execSendSync o ch op p) := by
  intro s new
  unfold execSendSync
  dsimp only
  split
  · cases hf : appendFits s.cfg s.outb p with
    | true =>
      rw [append_of_fits hf, append_of_fits (s := { s with trace := new }) hf]
      exact .next [_] rfl rfl
    | false =>
      rw [append_of_not_fits hf, append_of_not_fits (s := { s with trace := new }) hf]
      exact .next [_] rfl rfl
  · exact .silent rfl rfl

theorem execDecode_ignoresTrace (b : Buf) (pos rem : Nat) : IgnoresTrace (execDecode b pos rem) := by
  intro s new
  have hbuffer : Ops.buffer b { s with trace := new } = Ops.buffer b s := by cases b <;> rfl
  unfold execDecode
  rw [hbuffer]
  dsimp only
  split
  · exact .silent rfl rfl
  · exact .next _ rfl rfl
  · exact .next _ rfl rfl
  · exact .fault _

/-- No instruction reads what has been presented (R183). -/
theorem exec_ignoresTrace (i : Instr) : IgnoresTrace (exec i) := by
  intro s new
  cases i with
  | sendSync o ch op p => exact execSendSync_ignoresTrace o ch op p s new
  | sendDeferred ch op p =>
    simp only [exec, execSendDeferred]
    split
    · exact answer_append_ignoresTrace ch op p s new
    · exact .silent rfl rfl
  | sendDeferredH ch op p =>
    simp only [exec, execSendDeferredH]
    split
    · exact .silent rfl rfl
    · exact answer_append_ignoresTrace ch op p s new
  | register | unregister =>
    simp only [exec, execRegister, execUnregister]
    split
    · split <;> exact .next [_] rfl rfl
    · exact .silent rfl rfl
  | flushNow | setDebugTap | clearDebugTap | irqRecv | xferCycle =>
    simp only [exec, execFlushNow, execSetDebugTap, execClearDebugTap, execIrqRecv, execXferCycle]
    split
    · exact .next [_] rfl rfl
    · exact .silent rfl rfl
  | encode ch op p => exact .silent rfl rfl
  | decode b pos rem => exact execDecode_ignoresTrace b pos rem s new
  | fbReset b => cases b <;> exact .silent rfl rfl
  | fbAppend ch op p =>
    simp only [exec, execFbAppend]
    rw [append_with_trace ch op p s new]
    exact .silent (Ops.append_cfg ch op p s) (Ops.append_trace ch op p s)
  | fbParse b => cases b <;> exact .next _ rfl rfl
  | dispatch v => exact dispatchView_ignoresTrace v s new
  | tapForward => exact .next [_] rfl rfl
  | frameHeader size checksum => exact parseHeader_ignoresTrace size checksum s new
  | emptyFrameHeader => exact parseHeader_ignoresTrace 0#16 checksumK s new
  | subpktHeader ch op size => exact parseRound_ignoresTrace ch op size s new
  | sentinelChannel op size => exact parseRound_ignoresTrace 0#8 op size s new
  | sentinelSize ch op => exact parseRound_ignoresTrace ch op 0#16 s new
  | reservedCmd code => exact .refused _
  | resultOk | resultNoSpace | resultInvalidChannel | resultTransportError => exact .next [_] rfl rfl
  | diagInvalidChecksum | diagMalformedSubPacket | diagOversizedPayload | diagFrameSizeOverrun
  | diagTransportError => exact .next [_] rfl rfl

/-! ### The engine -/

theorem take_ignoresTrace (idx : Nat) : IgnoresTrace (Engine.take idx) := by
  intro s new
  unfold Engine.take
  dsimp only
  split
  · exact .silent rfl rfl
  · next h _ =>
    split
    · next i _ => exact exec_ignoresTrace i { s with held := s.held.eraseIdx idx, caller := h.caller } new
    · exact .refused _

theorem proceed_ignoresTrace : IgnoresTrace Engine.proceed := by
  intro s new
  have houtside : Engine.fetchOutside { s with trace := new } = Engine.fetchOutside s := rfl
  have hfetch : Engine.fetchInbound { s with trace := new } = Engine.fetchInbound s := rfl
  unfold Engine.proceed
  dsimp only
  rw [houtside, hfetch]
  split
  · exact .fault _
  · split
    · exact exec_ignoresTrace _ s new
    · split
      · exact parseRound_ignoresTrace _ _ _ s new
      · exact endCycle_ignoresTrace _ s new

theorem move_ignoresTrace (k : Nat) : IgnoresTrace (Engine.move k) := by
  intro s new
  have hchoices : Engine.choices { s with trace := new } = Engine.choices s := rfl
  unfold Engine.move
  dsimp only
  rw [hchoices]
  split
  · next is _ => exact exec_ignoresTrace _ { s with internal := is } new
  · split
    · exact .silent rfl rfl
    · exact take_ignoresTrace _ s new
    · exact exec_ignoresTrace _ s new
    · exact proceed_ignoresTrace s new

theorem apply_ignoresTrace (m : Move) : IgnoresTrace (Engine.apply m) := by
  intro s new
  cases m with
  | engine k => exact move_ignoresTrace k s new
  | issue q => exact .silent rfl rfl
  | edge => exact .silent rfl rfl
  | link answer => exact linkAnswer_ignoresTrace answer s new
  | done => exact handlerDone_ignoresTrace s new

theorem step_ignoresTrace : IgnoresTrace step := by
  intro s new
  unfold step Engine.run
  dsimp only
  split
  · exact move_ignoresTrace 0 s new
  · next m rest _ => exact apply_ignoresTrace m { s with script := rest } new

end IgnoresTrace

/-- Settles O5: every operation the step is made of ignores the trace, so the step does. -/
theorem presentedRecordsAreNeverRead : Obligations.PresentedRecordsAreNeverRead := by
  unfold Obligations.PresentedRecordsAreNeverRead
  exact fun _ _ h => step_ignoresTrace.adds h

end Sys2Proof.Machine

/-! Hazards (R193, R220, R230): a step of the engine that finds no work, and the deadlock of a handler that waits for a
command of its own. -/

namespace Sys2Proof.Machine

/-! ## A step without work -/

section NoWork

variable {s : State}

/-- In `Xfer` the engine may do nothing but wait for the link (R131, R143). -/
theorem choices_of_xfer (hp : s.phase = .xfer) : Engine.choices s = [] := by
  have hnil : Engine.takeablePlaces s = [] := takeablePlaces_eq_nil_iff.mpr fun q _ => by rw [hp]; rfl
  rw [Engine.choices, Engine.ownChoices, hnil, hp]
  rfl

/-- In `Disp`, with somebody in service and no handler's deferred send at the command port, the engine waits for done
(R166). -/
theorem choices_of_service (hp : s.phase = .disp) (hv : s.serv ≠ none) (hn : ∀ q ∈ s.held, isHandlerSend q = false) :
    Engine.choices s = [] := by
  have hnil : Engine.takeablePlaces s = [] := takeablePlaces_eq_nil_iff.mpr fun q hq => by rw [hp]; exact hn q hq
  simp [Engine.choices, Engine.ownChoices, hp, hv, hnil]

/-- With no choice the engine's move is a wait that changes nothing (log 4). -/
theorem step_of_no_choice (hi : s.internal = []) (hs : s.script = []) (hc : Engine.choices s = []) :
    step s = .next s := by
  rw [step_of_no_script hs, Engine.move, hi, hc]
  rfl

end NoWork

/-- Settles O46: in each of the three situations the engine has no choice. -/
theorem engineWaitsWithoutWork : Obligations.EngineWaitsWithoutWork := by
  unfold Obligations.EngineWaitsWithoutWork
  refine fun s hi hs => ⟨fun hp hheld hirq => ?_, fun hp => ?_, fun hp hv hn => ?_⟩ <;>
    refine step_of_no_choice hi hs ?_
  · rw [choices_of_idle hp, hheld, hirq]
    rfl
  · exact choices_of_xfer hp
  · exact choices_of_service hp hv hn

/-! ## A handler that waits for a command of its own -/

section Deadlock

variable {s s' : State}

/-- No deadlock reads the moves still to come. -/
theorem Deadlocked.with_script (h : Deadlocked s) (ms : List Move) : Deadlocked { s with script := ms } := { h with }

/-- What keeps a deadlock: the phase, the service, and the held commands that are no handler's deferred send. -/
theorem Deadlocked.of_keeps (h : Deadlocked s) (hphase : s'.phase = s.phase) (hserv : s'.serv = s.serv)
    (hinternal : s'.internal = s.internal) (hheld : ∀ q ∈ s.held, isHandlerSend q = false → q ∈ s'.held) :
    Deadlocked s' ∧ s'.serv = s.serv := by
  obtain ⟨q, hq, hawaited, hnot⟩ := h.waits
  exact ⟨⟨hphase.trans h.inCycle, hserv ▸ h.inService, ⟨q, hheld q hq hnot, hawaited, hnot⟩,
    hinternal.trans h.noInternal⟩, hserv⟩

/-- A handler that waits for its own command does not answer done (R230). -/
theorem Deadlocked.handlerDone_eq (h : Deadlocked s) : Ops.handlerDone s = s := by
  obtain ⟨q, hq, hawaited, -⟩ := h.waits
  exact if_pos (List.any_eq_true.mpr ⟨q, hq, hawaited⟩)

/-- When a handler's deferred send leaves the command port, every other kind of command stays there (R139, R143). -/
theorem mem_eraseIdx_of_handlerSend {held : List Held} {idx : Nat} {q r : Held} (hq : held[idx]? = some q)
    (hsend : isHandlerSend q = true) (hr : r ∈ held) (hnot : isHandlerSend r = false) : r ∈ held.eraseIdx idx := by
  obtain ⟨k, hk⟩ := List.mem_iff_getElem?.mp hr
  refine List.mem_eraseIdx_iff_getElem?.mpr ⟨k, ?_, hk⟩
  rintro rfl
  obtain rfl : q = r := Option.some.inj (hq.symm.trans hk)
  cases hsend.symm.trans hnot

/-- A step leaves the deadlock and the service as they are: the cycle goes on only once nobody is in service, done is not
answered, and only a handler's deferred send is taken (R166, R230, R139). -/
theorem StepEffect.keeps_deadlock {s0 : State} (he : StepEffect s0 s s') (h : Deadlocked s) :
    Deadlocked s' ∧ s'.serv = s.serv := by
  cases he with
  | waits e => subst e; exact ⟨h, rfl⟩
  | issued _ _ _ e => subst e; exact h.of_keeps rfl rfl rfl fun _ hq _ => List.mem_append_left _ hq
  | edge _ _ e => subst e; exact h.of_keeps rfl rfl rfl fun _ hq _ => hq
  | answered a _ _ e => rw [e, linkAnswer_of_not_xfer (by simp [h.inCycle])]; exact ⟨h, rfl⟩
  | done e => rw [e, h.handlerDone_eq]; exact ⟨h, rfl⟩
  | took idx q i hq ht hd hc =>
    obtain ⟨-, hsend⟩ := takeable_of_locked (by simp [h.inCycle]) ht
    obtain ⟨ch, op, p, rfl⟩ := decodeCommand_handlerSend hsend hd
    obtain ⟨ch, op, p, r, rfl⟩ := hc.of_handlerSend h.inCycle
    refine h.of_keeps (Ops.append_phase ..) (Ops.append_serv ..) (Ops.append_internal ..) fun c hmem hnot => ?_
    have hstays := mem_eraseIdx_of_handlerSend hq hsend hmem hnot
    exact (Ops.append_held ..).symm ▸ hstays
  | event hp => cases hp.symm.trans h.inCycle
  | proceeded _ hv => exact absurd hv h.inService

theorem Deadlocked.step (h : Deadlocked s) (hstep : step s = .next s') : Deadlocked s' ∧ s'.serv = s.serv :=
  (step_effect h.noInternal hstep).keeps_deadlock (h.with_script s.script.tail)

end Deadlock

/-- Settles O42: each step keeps the deadlock with the same service, so any number of steps does. -/
theorem reentrantCommandDeadlocks : Obligations.ReentrantCommandDeadlocks := by
  unfold Obligations.ReentrantCommandDeadlocks
  intro k s s' h hrun
  refine run_keeps (P := fun t => Deadlocked t ∧ t.serv = s.serv) (fun t t' ⟨ht, hserv⟩ hstep => ?_) hrun ⟨h, rfl⟩
  obtain ⟨ht', hserv'⟩ := ht.step hstep
  exact ⟨ht', hserv'.trans hserv⟩

end Sys2Proof.Machine
